-- ==== Sys2Proof/Word.lean ====
section
/-!
DEFINITION. Word.lean: the two word types of the bridge command codec (BCC). A byte is the wire's and every
latch's unit (spec 00_scope.md R9 `BYTE`, R11); a response value has 32 bits (10_state.md R28).
-/
namespace Sys2Proof

/-- 00_scope.md R11: 8 bits, numbered 7 down to 0. -/
abbrev Byte := BitVec 8

/-- 10_state.md R28: the width of `RSP.VALUE`. -/
abbrev Word32 := BitVec 32

end Sys2Proof
end

