-- ==== Sys2Proof/Config.lean ====
section
/-!
DEFINITION. Config.lean: what an implementation fixes (00_scope.md R9) and the free values. The outside world
(the host, and the transport with the bridge and the slaves behind it) is a sequence of inputs, free in the
model (60_exceptions.md R215: every answer is a draw).
-/
namespace Sys2Proof

/-- The parameters of 00_scope.md R9, each a configuration argument; they are fixed before reset is released and no
step writes them (10_state.md R29). `maxPolls = none` is `UNBOUNDED`. `BYTE` is the type `Byte`. -/
structure Params where
  statusRegAddr : Byte
  okSentinel    : Byte
  maxLen        : Nat
  maxBulkLen    : Nat
  maxPolls      : Option Nat
  mkS           : Byte
  mkP           : Byte
  mkR           : Byte
  mkW           : Byte
  deriving DecidableEq, Repr

/-- One thing the outside world does to the BCC. Nothing else reaches it (R207: no interrupt; R220, R215). -/
inductive Input where
  /-- The transport answers OK to the outstanding `TxWrite`: all of the frame was delivered (R215). -/
  | txOk
  /-- The transport answers FAIL to the outstanding `TxWrite`; the first `sent` bytes of the frame (at most all
  of it) had been delivered (R215, D22; log 21). -/
  | txFail (sent : Nat)
  /-- The transport answers `OK(bytes)` to the outstanding `RxRead` (R215). -/
  | rxOk (bytes : List Byte)
  /-- The transport answers FAIL to the outstanding `RxRead` (R215). -/
  | rxFail
  /-- Nothing happens: the transport has not answered yet, the host does nothing (R131). -/
  | silent
  /-- An answer to a request made before a reset arrives; it is discarded (R231; log 23). -/
  | late
  /-- The host presents a further command record (R220, R25). -/
  | command (record : List Byte)
  /-- The host takes the pending response (R27, R220). -/
  | take
  /-- Reset is asserted; of a frame whose `TxWrite` was outstanding the first `sent` bytes had been delivered (R231). -/
  | reset (sent : Nat)
  deriving DecidableEq, Repr, Inhabited

/-- 00_scope.md R9 `OK_SENTINEL`, OPEN: no body, so no proof can rest on its value (log 7). -/
opaque Config.okSentinel : Byte

/-- FREE VALUE: what the outside world does next once the inputs that a state lists are used up, by the number of
inputs drawn so far. No body: every sequence of inputs is possible (R206, R215, R241; log 2). -/
opaque Config.world : Nat → Input

/-- The parameters at reset: the values of R9, `OK_SENTINEL` open, `MAX_POLLS` at its default `UNBOUNDED`; the
marker bytes are ASCII (R80; log 8). -/
def Config.params : Params :=
  { statusRegAddr := 0x0A, okSentinel := Config.okSentinel, maxLen := 255, maxBulkLen := 255, maxPolls := none
    mkS := 0x53, mkP := 0x50, mkR := 0x52, mkW := 0x57 }

end Sys2Proof
end

