-- ==== Sys2Proof/Syntax.lean ====
section
/-!
DEFINITION. Syntax.lean: the commands of the BCC, one constructor per row of spec/opcode_table.json
(30_encoding.md R89, R90).
-/
namespace Sys2Proof

/-- Bytes 1 to 5 of a command record (30_encoding.md R90). A command ignores those that R90 marks `-` for it (R99),
but acceptance latches every one of them (10_state.md R21, R25). -/
structure Fields where
  addr : Byte
  reg  : Byte
  val  : Byte
  pos  : Byte
  wid  : Byte
  deriving DecidableEq, Repr

/-- A command. `len` is byte 6 of a 7-byte record (format REC7); for a record with a data field (REC7D) byte 6 is the
length of `data` (R90, R102). -/
inductive Instr where
  /-- 0x01, R112 -/
  | i2cWrite (f : Fields) (data : List Byte)
  /-- 0x02, R113 -/
  | i2cRead (f : Fields) (len : Byte)
  /-- 0x03, R114 -/
  | brgRdReg (f : Fields) (len : Byte)
  /-- 0x04, R115 -/
  | brgWrReg (f : Fields) (len : Byte)
  /-- 0x05, R116 -/
  | brgWrBulk (f : Fields) (data : List Byte)
  /-- 0x10, R141 -/
  | regWrByte (f : Fields) (len : Byte)
  /-- 0x11, R142 -/
  | regWrBytes (f : Fields) (data : List Byte)
  /-- 0x12, R143 -/
  | regRdByte (f : Fields) (len : Byte)
  /-- 0x13, R144 -/
  | regRd16 (f : Fields) (len : Byte)
  /-- 0x14, R145 -/
  | regRd24be (f : Fields) (len : Byte)
  /-- 0x15, R150 -/
  | regWrField (f : Fields) (len : Byte)
  deriving DecidableEq, Repr

end Sys2Proof
end

