-- ==== Sys2Proof/WellFormed.lean ====
section
/-!
DEFINITION. WellFormed.lean: which terms of `Instr` a command record can hold, and which of them a configuration's length
bounds admit. A record's only bound is the data field's: its length is a byte (30_encoding.md R92, R101). Operand values
inside a byte are all legal as an encoding (R99); REG_WR_FIELD's operand domain is checked by its meaning
(41_register_access.md R152), not here.
-/
namespace Sys2Proof

def Instr.wellFormed : Instr → Bool
  | .i2cWrite _ data   => decide (data.length ≤ 255)
  | .i2cRead _ _       => true
  | .brgRdReg _ _      => true
  | .brgWrReg _ _      => true
  | .brgWrBulk _ data  => decide (data.length ≤ 255)
  | .regWrByte _ _     => true
  | .regWrBytes _ data => decide (data.length ≤ 255)
  | .regRdByte _ _     => true
  | .regRd16 _ _       => true
  | .regRd24be _ _     => true
  | .regWrField _ _    => true

/-- The length operand of a command is at most the configuration's `MAX_LEN`, that of BRG_WR_BULK at most `MAX_BULK_LEN`
(00_scope.md R9, 30_encoding.md R85, 40_codec.md R116). With R9's values, 255 for both, every well-formed command is
within them (log 19). -/
def Instr.withinBounds (p : Params) : Instr → Bool
  | .i2cWrite _ data   => decide (data.length ≤ p.maxLen)
  | .i2cRead _ len     => decide (len.toNat ≤ p.maxLen)
  | .brgRdReg _ _      => true
  | .brgWrReg _ _      => true
  | .brgWrBulk _ data  => decide (data.length ≤ p.maxBulkLen)
  | .regWrByte _ _     => true
  | .regWrBytes _ data => decide (data.length ≤ p.maxLen)
  | .regRdByte _ _     => true
  | .regRd16 _ _       => true
  | .regRd24be _ _     => true
  | .regWrField _ _    => true

end Sys2Proof
end

