-- ==== Sys2Proof/Decode.lean ====
section
/-!
DEFINITION. Decode.lean: the command record (30_encoding.md R89, R90, R101): the decoder, total on byte lists, and
after it the encoder.
-/
namespace Sys2Proof

/-- Why a byte list is no command of the opcode table. -/
inductive DecodeError where
  /-- The first byte is not in R89's table: an illegal code, which the BCC accepts and answers with STATUS_ILLEGAL
  (R98, R204). The record's other bytes are kept, since acceptance latches them (R25). -/
  | unassigned (op : Byte) (f : Fields) (len : Byte)
  /-- Not a command record at all: fewer than seven bytes, or a data field whose length is not what R90 gives. -/
  | malformed
  deriving DecidableEq, Repr

/-- A record without a data field (format REC7). -/
def decodeShort (i : Instr) (data : List Byte) : Except DecodeError Instr :=
  match data with
  | [] => .ok i
  | _ :: _ => .error .malformed

/-- A record with a data field of exactly LEN bytes (format REC7D). -/
def decodeLong (i : Instr) (len : Byte) (data : List Byte) : Except DecodeError Instr :=
  if data.length = len.toNat then .ok i else .error .malformed

/-- The codes of R89. Every code outside the table is `unassigned`. -/
def decodeOp (op : Byte) (f : Fields) (len : Byte) (data : List Byte) : Except DecodeError Instr :=
  if op = 0x01 then decodeLong (.i2cWrite f data) len data
  else if op = 0x02 then decodeShort (.i2cRead f len) data
  else if op = 0x03 then decodeShort (.brgRdReg f len) data
  else if op = 0x04 then decodeShort (.brgWrReg f len) data
  else if op = 0x05 then decodeLong (.brgWrBulk f data) len data
  else if op = 0x10 then decodeShort (.regWrByte f len) data
  else if op = 0x11 then decodeLong (.regWrBytes f data) len data
  else if op = 0x12 then decodeShort (.regRdByte f len) data
  else if op = 0x13 then decodeShort (.regRd16 f len) data
  else if op = 0x14 then decodeShort (.regRd24be f len) data
  else if op = 0x15 then decodeShort (.regWrField f len) data
  else match data with
    | [] => .error (.unassigned op f len)
    | _ :: _ => .error .malformed

/-- R90: header bytes OP, ADDR, REG, VAL, POS, WID, LEN, then DATA. -/
def decode : List Byte → Except DecodeError Instr
  | op :: addr :: reg :: val :: pos :: wid :: len :: data => decodeOp op ⟨addr, reg, val, pos, wid⟩ len data
  | _ => .error .malformed

/-- The code of R89. -/
def Instr.opcode : Instr → Byte
  | .i2cWrite _ _   => 0x01
  | .i2cRead _ _    => 0x02
  | .brgRdReg _ _   => 0x03
  | .brgWrReg _ _   => 0x04
  | .brgWrBulk _ _  => 0x05
  | .regWrByte _ _  => 0x10
  | .regWrBytes _ _ => 0x11
  | .regRdByte _ _  => 0x12
  | .regRd16 _ _    => 0x13
  | .regRd24be _ _  => 0x14
  | .regWrField _ _ => 0x15

/-- Bytes 1 to 5 of the record. -/
def Instr.fields : Instr → Fields
  | .i2cWrite f _ | .i2cRead f _ | .brgRdReg f _ | .brgWrReg f _ | .brgWrBulk f _ | .regWrByte f _
  | .regWrBytes f _ | .regRdByte f _ | .regRd16 f _ | .regRd24be f _ | .regWrField f _ => f

/-- The data field, where the record has one (R90). -/
def Instr.data? : Instr → Option (List Byte)
  | .i2cWrite _ d | .brgWrBulk _ d | .regWrBytes _ d => some d
  | .i2cRead _ _ | .brgRdReg _ _ | .brgWrReg _ _ | .regWrByte _ _ | .regRdByte _ _ | .regRd16 _ _
  | .regRd24be _ _ | .regWrField _ _ => none

/-- Byte 6 of the record: given, or the length of the data field (R90, R102; log 24). -/
def Instr.lenByte : Instr → Byte
  | .i2cWrite _ d | .brgWrBulk _ d | .regWrBytes _ d => BitVec.ofNat 8 d.length
  | .i2cRead _ n | .brgRdReg _ n | .brgWrReg _ n | .regWrByte _ n | .regRdByte _ n | .regRd16 _ n
  | .regRd24be _ n | .regWrField _ n => n

/-- The seven header bytes and the data field as one record (R90). -/
def recordBytes (op : Byte) (f : Fields) (len : Byte) (data : List Byte) : List Byte :=
  [op, f.addr, f.reg, f.val, f.pos, f.wid, len] ++ data

/-- The command record of a command. -/
def encode (i : Instr) : List Byte :=
  recordBytes i.opcode i.fields i.lenByte (i.data?.getD [])

/-! ## The opcode table's numbering of a record's bits -/

/-- The record that starts a byte list: `7 + LEN` bytes for the three codes with a data field, else 7 (R101). -/
def takeRecord (bytes : List Byte) : List Byte :=
  match bytes with
  | op :: _ :: _ :: _ :: _ :: _ :: len :: _ =>
    if op = 0x01 ∨ op = 0x05 ∨ op = 0x11 then bytes.take (7 + len.toNat) else bytes.take 7
  | _ => bytes

/-- The lowest `n` bytes of `w`, bits 7..0 first. -/
def bytesOfNat : Nat → Nat → List Byte
  | 0, _ => []
  | n + 1, w => BitVec.ofNat 8 w :: bytesOfNat n (w / 256)

/-- The record whose first `nbits` bits are `w` (bit 0 the least significant bit of byte 0) and whose other bits,
up to the longest record (262 bytes), are zero. -/
def tableRecord (nbits w : Nat) : List Byte :=
  takeRecord (bytesOfNat ((nbits + 7) / 8) (w % 2 ^ nbits) ++ List.replicate 262 0)

/-- The instruction the decoder reads from those bits. -/
def decodeTableWord (nbits w : Nat) : Option Instr :=
  match decode (tableRecord nbits w) with
  | .ok i => some i
  | .error _ => none

end Sys2Proof
end

