-- ==== Sys2Proof/Machine/State.lean ====
section
/-!
DEFINITION. Machine/State.lean: the state of the BCC as plain data (10_state.md R20 to R32), the reasons a step can
stop, and the state after reset (R32, R230).

A latch, buffer or response field that HOLDS NO VALUE is `none`: that is the value spec R31 and R32 give it at reset,
and R26 and R28 after some steps; it is not a reset value the spec leaves out (log 1).
-/
namespace Sys2Proof.Machine

/-- The frame whose completion a poll wait awaits: the step after which `WaitOK` was called (40_codec.md R111, R130). -/
inductive Site where
  | w | wb | ws | s | f
  deriving DecidableEq, Repr

/-- The step labels of 40_codec.md and 41_register_access.md: `W.tx`, `R.tx`, `R.rx`, `B.tx`, `B.rx`, `BW.tx`, `BB.tx`,
`WB.tx`, `WS.tx`, `S.tx`, `S.ir`, `S.rx`, `F.tx`, `P.tx`, `P.rx`. A poll's label also says which wait it belongs to,
since `WaitOK` resumes "at the step after the call" (R130; log 5). -/
inductive Label where
  | wTx | rTx | rRx | bTx | bRx | bwTx | bbTx | wbTx | wsTx | sTx | sIr | sRx | fTx
  | pTx (after : Site)
  | pRx (after : Site)
  deriving DecidableEq, Repr

/-- `L.PHASE` (10_state.md R24). -/
inductive Phase where
  | idle
  | txWait (k : Label)
  | rxWait (k : Label)
  deriving DecidableEq, Repr

/-- A transport request (00_scope.md R12). -/
inductive Request where
  | tx (frame : List Byte)
  | rx (n : Nat)
  deriving DecidableEq, Repr

/-- The status codes of 30_encoding.md R93 that a response can carry: STATUS_OK, STATUS_FAIL, STATUS_NONE,
STATUS_ILLEGAL, STATUS_TIMEOUT (log 22). -/
inductive Status where
  | stOk | stFail | stNone | stIllegal | stTimeout
  deriving DecidableEq, Repr

/-- The response register `RSP` (10_state.md R28); a field that holds no value is `none`. -/
structure Response where
  status : Status
  value  : Option Word32
  data   : Option (List Byte)
  dlen   : Option Byte
  deriving DecidableEq, Repr

/-- An event at the ports (10_state.md R23): what conformance is judged on. -/
inductive Event where
  | accept (record : List Byte)
  | tx (frame : List Byte)
  | txOk
  /-- the answer FAIL, with the part of the frame that had been delivered (R215) -/
  | txFail (delivered : List Byte)
  | rx (n : Nat)
  | rxOk (bytes : List Byte)
  | rxFail
  | response (r : Response)
  /-- reset, with the part of an outstanding frame that had been delivered (R231) -/
  | reset (delivered : List Byte)
  deriving DecidableEq, Repr

/-- The operand latches (10_state.md R21). -/
structure OperandLatches where
  op   : Option Byte
  addr : Option Byte
  reg  : Option Byte
  val  : Option Byte
  pos  : Option Byte
  wid  : Option Byte
  len  : Option Byte
  deriving DecidableEq, Repr

/-- The work latches (10_state.md R22). Five names are those of the spec: `L.STAT`, `L.POLLS`, `L.OLD`, `L.MASK`, `L.NEW`. -/
structure WorkLatches where
  stat  : Option Byte
  polls : Option Nat
  old   : Option Byte
  mask  : Option Byte
  new   : Option Byte
  deriving DecidableEq, Repr

/-- `L.TXBUF` and `L.RXBUF` (10_state.md R26). -/
structure Buffers where
  tx : Option (List Byte)
  rx : Option (List Byte)
  deriving DecidableEq, Repr

/-- The names of what can hold no value (10_state.md R31), for the fault that reading it is. -/
inductive Holder where
  | op | addr | reg | val | pos | wid | len | stat | polls | old | mask | new | txbuf | rxbuf
  | rsp | rspValue | rspData | rspDlen
  deriving DecidableEq, Repr

/-- The whole state. The first six fields are the five parts of R20 with the outstanding request (R32); then the
parameters (R9), the command port (R25), and the model's own fields (log 2, 13). -/
structure State where
  phase      : Phase
  ops        : OperandLatches
  work       : WorkLatches
  buf        : Buffers
  rsp        : Option Response
  /-- a response has been emitted that the host has not taken (R27, R32; log 14) -/
  rspPending : Bool
  /-- the transport request whose answer is awaited (R32) -/
  request    : Option Request
  /-- the configuration, written by no step (R9, R29; log 6) -/
  params     : Params
  /-- the records the host presents, oldest first; the head is at the command port (R25) -/
  port       : List (List Byte)
  /-- the model's own: what the outside world does next, as far as the state says it (log 2) -/
  inputs     : List Input
  /-- the model's own: how many inputs of `Config.world` have been drawn (log 2) -/
  drawn      : Nat
  /-- the model's own: every event at the ports so far, oldest first (R23, R57) -/
  trace      : List Event
  deriving DecidableEq, Repr

/-- Why a step stops. No run from reset reaches any of them: see `Obligations.ConsistentStateNeverFaults`. -/
inductive Fault where
  /-- A latch, buffer or response field was read that holds no value: "Reading either in a model is a fault of the
  model" (10_state.md R31). Raised by the latch and response reads of Ops. SAFE: the model stops. -/
  | noValue (what : Holder)
  /-- `L.PHASE` names a step that does not belong to the command in the latches. Raised by the commands' answer
  functions and by `stepBusy`; no reachable state has it (log 17). SAFE: the model stops. -/
  | phaseMismatch
  /-- A received sequence is shorter than the step that decodes it needs. Raised by the decoding steps; an answer has
  the length asked for (R215), so no reachable state has it (log 17). SAFE: the model stops. -/
  | shortRead
  /-- A status code 5 to 7 was seen (30_encoding.md R93; 93_implementation_defined.md U19). Raised by `Status.ofCode`
  only. SAFE: the model stops. -/
  | reservedStatus
  deriving DecidableEq, Repr

/-- Why the model gives no meaning. -/
inductive Refusal where
  /-- The instruction has no meaning yet. Raised by no arm of `exec`: every instruction is modelled. SAFE. -/
  | notModelled (mnemonic : String)
  /-- REG_WR_FIELD outside FieldDomain: "A model must refuse such a command, and give it no meaning" (41_register_access.md
  R152, 93_implementation_defined.md U1). Raised by `execRegWrField`. SAFE. -/
  | fieldDomain
  /-- What the host presented is no command record: its length is not what R90 and R101 give, which "cannot be expressed"
  (D31), and the host must not do it (60_exceptions.md R220). Raised by `stepIdle`. SAFE. -/
  | malformedRecord
  /-- A command whose length operand is above the configuration's `MAX_LEN` or `MAX_BULK_LEN`: "not expressible"
  (92_eei_decisions.md D15), and `EncRB` "requires |d| <= MAX_BULK_LEN" (30_encoding.md R87). Raised by `stepIdle`, and
  never with R9's values (log 19). SAFE. -/
  | lengthBound
  deriving DecidableEq, Repr

/-- 10_state.md R32: no operand latch holds a value. -/
def OperandLatches.empty : OperandLatches := ⟨none, none, none, none, none, none, none⟩

/-- 10_state.md R32: no work latch holds a value. -/
def WorkLatches.empty : WorkLatches := ⟨none, none, none, none, none⟩

/-- The machine right after reset (10_state.md R32, 70_reset_and_hazards.md R230); no record is presented. -/
def State.reset : State where
  phase := .idle
  ops := .empty
  work := .empty
  buf := ⟨none, none⟩
  rsp := none
  rspPending := false
  request := none
  params := Config.params
  port := []
  inputs := []
  drawn := 0
  trace := []

end Sys2Proof.Machine
end

