-- ==== Sys2Proof/Machine/Flags.lean ====
section
/-!
DEFINITION. Machine/Flags.lean: the only status the BCC has (10_state.md R27): the response status codes
(30_encoding.md R93), the status decision of a poll (R97) and the bound on polls (40_codec.md R111).
-/
namespace Sys2Proof.Machine

/-- The 3-bit code of a response status (30_encoding.md R93). -/
def Status.code : Status → BitVec 3
  | .stOk      => 0
  | .stFail    => 1
  | .stNone    => 2
  | .stIllegal => 3
  | .stTimeout => 4

/-- Reading a 3-bit status: codes 5 to 7 are reserved and never produced; a model that sees one has a fault
(30_encoding.md R93, 93_implementation_defined.md U19). -/
def Status.ofCode (c : BitVec 3) : Except Fault Status :=
  if c = 0 then .ok .stOk
  else if c = 1 then .ok .stFail
  else if c = 2 then .ok .stNone
  else if c = 3 then .ok .stIllegal
  else if c = 4 then .ok .stTimeout
  else .error .reservedStatus

/-- 30_encoding.md R97: the status decision is an equality on all 8 bits. -/
def statusIsOk (p : Params) (s : Byte) : Bool := decide (s = p.okSentinel)

/-- 40_codec.md R111: `MAX_POLLS /= UNBOUNDED and L.POLLS >= MAX_POLLS`; `MAX_POLLS = 0` is outside R232 (log 16). -/
def pollsExhausted (p : Params) (polls : Nat) : Bool :=
  match p.maxPolls with
  | none => false
  | some m => decide (m ≤ polls)

end Sys2Proof.Machine
end

