-- ==== Sys2Proof/Machine/Operands.lean ====
section
/-!
DEFINITION. Machine/Operands.lean: the operand forms of 30_encoding.md (address, length, bit field), the wire frames
and their encoders, the frame decoder, and the assembly of received bytes.
-/
namespace Sys2Proof.Machine

/-! ## Operands -/

/-- 30_encoding.md R91: the wire address byte of a write, bit 0 forced to 0. -/
def forceWrite (a8 : Byte) : Byte := a8 &&& 0xFE

/-- 30_encoding.md R91: the wire address byte of a read, bit 0 forced to 1. -/
def forceRead (a8 : Byte) : Byte := a8 ||| 0x01

/-- 41_register_access.md R152 `FieldDomain(pos, wid)`. -/
def fieldDomain (pos wid : Byte) : Bool :=
  decide (pos.toNat ≤ 7) && decide (wid.toNat ≤ 8) && decide (wid.toNat ≤ pos.toNat + 1)

/-- 41_register_access.md R151 `FieldLsb(pos, wid) = pos - wid + 1`; on the domain the difference is not negative. -/
def fieldLsb (pos wid : Byte) : Nat := pos.toNat + 1 - wid.toNat

/-- 41_register_access.md R151 `FieldMask`, 30_encoding.md R94. -/
def fieldMask (pos wid : Byte) : Byte :=
  BitVec.ofNat 8 (((1 <<< wid.toNat) - 1) <<< fieldLsb pos wid)

/-- 41_register_access.md R151: `old` with the field's bits cleared (the source's "pre-mask" value). -/
def fieldCleared (old pos wid : Byte) : Byte := old &&& ~~~(fieldMask pos wid)

/-- 41_register_access.md R151: the value shifted into position and masked. -/
def fieldBits (val pos wid : Byte) : Byte :=
  BitVec.ofNat 8 (val.toNat <<< fieldLsb pos wid) &&& fieldMask pos wid

/-- 41_register_access.md R151 `FieldInsert(old, val, pos, wid)`. -/
def fieldInsert (old val pos wid : Byte) : Byte := fieldCleared old pos wid ||| fieldBits val pos wid

/-! ## Wire frames (30_encoding.md R81 to R87) -/

/-- R81, format IW: start, address for writing, length, payload, stop. -/
def encIW (p : Params) (a8 : Byte) (d : List Byte) : List Byte :=
  [p.mkS, forceWrite a8, BitVec.ofNat 8 d.length] ++ d ++ [p.mkP]

/-- R82, format IR: start, address for reading, number of bytes to read, stop. -/
def encIR (p : Params) (a8 n : Byte) : List Byte := [p.mkS, forceRead a8, n, p.mkP]

/-- R83, format RR. -/
def encRR (p : Params) (r : Byte) : List Byte := [p.mkR, r, p.mkP]

/-- R84, format RW. -/
def encRW (p : Params) (r v : Byte) : List Byte := [p.mkW, r, v, p.mkP]

/-- R85, format RB: no length byte. -/
def encRB (p : Params) (d : List Byte) : List Byte := [p.mkW] ++ d ++ [p.mkP]

/-- R86: the poll frame is the RR frame of the status register. -/
def pollFrame (p : Params) : List Byte := encRR p p.statusRegAddr

/-! ## The frame decoder, a checking function (30_encoding.md R95) -/

/-- A frame term; an RW frame is `rb [r, v]` (R95). -/
inductive Frame where
  | iw (a : Byte) (d : List Byte)
  | ir (a n : Byte)
  | rr (r : Byte)
  | rb (d : List Byte)
  deriving DecidableEq, Repr

/-- R95 for a frame that begins with 'S'; `rest` is the frame from byte 3 on. -/
def decodeStart (p : Params) (a n : Byte) (rest : List Byte) : Option Frame :=
  if a.getLsbD 0 = false ∧ rest.length = n.toNat + 1 ∧ rest.getLast? = some p.mkP then some (.iw a rest.dropLast)
  else if a.getLsbD 0 = true ∧ rest = [p.mkP] then some (.ir a n)
  else none

/-- R95 for a frame that begins with 'W'; `rest` is the frame from byte 1 on.
DESIGN CHOICE (log 25): for more than `MAX_BULK_LEN` data bytes R95's pseudocode gives `RB`, since it has no bound, and
R100 with R85's bound would make the sequence `Invalid`; the model follows R95's pseudocode. -/
def decodeBulk (p : Params) (rest : List Byte) : Option Frame :=
  if rest.getLast? = some p.mkP then some (.rb rest.dropLast) else none

/-- R95 `DecodeFrame`: total; `none` is `Invalid`. The cases are those of R95's pseudocode, in its order.
DESIGN CHOICE (log 27): R95 writes the markers as the literals of R80; the model puts the parameters of R9 in their places,
and where a configuration makes two markers equal, the first line of the pseudocode that fits decides. -/
def decodeFrame (p : Params) (frame : List Byte) : Option Frame :=
  match frame with
  | m :: a :: n :: b :: more =>
    if m = p.mkS then decodeStart p a n (b :: more)
    else if m = p.mkW then decodeBulk p (a :: n :: b :: more)
    else none
  | [m, r, stop] =>
    if m = p.mkR ∧ stop = p.mkP then some (.rr r)
    else if m = p.mkW then decodeBulk p [r, stop]
    else none
  | m :: rest => if m = p.mkW then decodeBulk p rest else none
  | [] => none

/-! ## Assembly of received bytes (20_memory.md R51, 30_encoding.md R97) -/

/-- 8 bits, zero-extended: `zext_32(s[0])`. -/
def assemble8 : List Byte → Option Word32
  | b0 :: _ => some (b0.setWidth 32)
  | [] => none

/-- 16 bits, first byte low: `(s[1] << 8) | s[0]`. -/
def assemble16 : List Byte → Option Word32
  | b0 :: b1 :: _ => some ((b1.setWidth 32 <<< 8) ||| b0.setWidth 32)
  | _ => none

/-- 24 bits, first byte high: `(s[0] << 16) | (s[1] << 8) | s[2]`. -/
def assemble24 : List Byte → Option Word32
  | b0 :: b1 :: b2 :: _ => some ((b0.setWidth 32 <<< 16) ||| (b1.setWidth 32 <<< 8) ||| b2.setWidth 32)
  | _ => none

end Sys2Proof.Machine
end

