-- ==== Sys2Proof/Machine/Ops.lean ====
section
/-!
DEFINITION. Machine/Ops.lean: the named operations on the state: reading what may hold no value, acceptance, issuing a
transport request, `respond`, reset, the outside world's inputs, and the run of one command over them. The BCC has no
memory and takes no exception (00_scope.md R12, 60_exceptions.md R209): what ends a command is `respond`, and what
interrupts one is `resetState`.
-/
namespace Sys2Proof.Machine

abbrev Out := Host.Outcome State Fault Refusal

/-- Go on from a next state; a fault or a refusal ends the step. -/
def Out.andThen (o : Out) (k : State → Out) : Out :=
  match o with
  | .next s => k s
  | .fault r => .fault r
  | .refused r => .refused r

/-! ## Reading what may hold no value (10_state.md R31) -/

/-- Read a latch or buffer; reading one that holds no value is a fault of the model (R31, U2). -/
def readHeld {α : Type} (what : Holder) (v : Option α) (k : α → Out) : Out :=
  match v with
  | some a => k a
  | none => .fault (.noValue what)

/-- A host's read of the response register (R27, R28); before any response it holds no value (R32): a fault (R31). -/
def readResponse (s : State) : Except Fault Response :=
  match s.rsp with
  | some r => .ok r
  | none => .error (.noValue .rsp)

/-- A host's read of `RSP.STATUS`, as the 3-bit code (R28, R93); before any response a fault (R31, R32). -/
def readStatus (s : State) : Except Fault (BitVec 3) :=
  match s.rsp with
  | some r => .ok r.status.code
  | none => .error (.noValue .rsp)

/-- A host's read of `RSP.VALUE`: a fault where it holds no value, never a zero (R28, U2). -/
def readValue (s : State) : Except Fault Word32 :=
  match s.rsp.bind (·.value) with
  | some v => .ok v
  | none => .error (.noValue .rspValue)

/-- A host's read of `RSP.DATA`: a fault where it holds no value (R28, U2). -/
def readData (s : State) : Except Fault (List Byte) :=
  match s.rsp.bind (·.data) with
  | some d => .ok d
  | none => .error (.noValue .rspData)

/-- A host's read of `RSP.DLEN`, which holds a value exactly when `RSP.DATA` does: else a fault (R28, U2). -/
def readDlen (s : State) : Except Fault Byte :=
  match s.rsp.bind (·.dlen) with
  | some n => .ok n
  | none => .error (.noValue .rspDlen)

/-! ## Acceptance (10_state.md R21, R25, R26) -/

/-- Copy every field of a record into the operand latches, and its data field, or no value, into `L.TXBUF`. -/
def latchRecord (op : Byte) (f : Fields) (len : Byte) (data? : Option (List Byte)) (s : State) : State :=
  { s with
    ops := ⟨some op, some f.addr, some f.reg, some f.val, some f.pos, some f.wid, some len⟩
    buf := { s.buf with tx := data? }
    trace := s.trace ++ [.accept (recordBytes op f len (data?.getD []))] }

/-- Acceptance of a command (R25). -/
def accept (i : Instr) (s : State) : State := latchRecord i.opcode i.fields i.lenByte i.data? s

/-- The command in the latches, if the latches hold one: what the sequencer is in the middle of (R24, R25). -/
def inFlight (s : State) : Option Instr :=
  match s.ops.op, s.ops.addr, s.ops.reg, s.ops.val, s.ops.pos, s.ops.wid, s.ops.len with
  | some op, some addr, some reg, some val, some pos, some wid, some len =>
    match decodeOp op ⟨addr, reg, val, pos, wid⟩ len (s.buf.tx.getD []) with
    | .ok i => some i
    | .error _ => none
  | _, _, _, _, _, _, _ => none

/-! ## Transport requests and responses (00_scope.md R12) -/

/-- Issue `TxWrite(frame)` at step label `k` (R12, R24). -/
def issueTx (k : Label) (frame : List Byte) (s : State) : State :=
  { s with phase := .txWait k, request := some (.tx frame), trace := s.trace ++ [.tx frame] }

/-- Issue `RxRead(n)` at step label `k` (R12, R24). -/
def issueRx (k : Label) (n : Nat) (s : State) : State :=
  { s with phase := .rxWait k, request := some (.rx n), trace := s.trace ++ [.rx n] }

/-- The response with its four fields; `RSP.DLEN` holds a value exactly when `RSP.DATA` does (10_state.md R28). -/
def mkResponse (st : Status) (value : Option Word32) (data : Option (List Byte)) : Response :=
  { status := st, value := value, data := data, dlen := data.map (fun d => BitVec.ofNat 8 d.length) }

/-- `respond(status, value, data)`: emit the response and return the sequencer to IDLE (00_scope.md R12).
The response stays in `RSP` until the next one or a reset (log 15). -/
def respond (st : Status) (value : Option Word32) (data : Option (List Byte)) (s : State) : State :=
  { s with
    phase := .idle
    request := none
    rsp := some (mkResponse st value data)
    rspPending := true
    trace := s.trace ++ [.response (mkResponse st value data)] }

/-- `L.STAT <- v`. -/
def setStat (v : Byte) (s : State) : State := { s with work := { s.work with stat := some v } }

/-- `L.POLLS <- n`. -/
def setPolls (n : Nat) (s : State) : State := { s with work := { s.work with polls := some n } }

/-- `L.RXBUF <- s`. -/
def setRxbuf (bytes : List Byte) (s : State) : State := { s with buf := { s.buf with rx := some bytes } }

/-- The three work latches REG_WR_FIELD writes (41_register_access.md R150). -/
def setField (old mask new : Byte) (s : State) : State :=
  { s with work := { s.work with old := some old, mask := some mask, new := some new } }

/-! ## Reset (70_reset_and_hazards.md R230, R231) -/

/-- Of an outstanding frame, the part that had been delivered (R215, R231). -/
def deliveredPart (r : Option Request) (sent : Nat) : List Byte :=
  match r with
  | some (.tx frame) => frame.take sent
  | _ => []

/-- Reset: the state of R32; a command in flight is abandoned with no response (R231). The parameters are fixed (R29);
the host's records, the inputs to come and the model's own fields are outside the block (log 9). -/
def resetState (sent : Nat) (s : State) : State :=
  { State.reset with
    params := s.params
    port := s.port
    inputs := s.inputs
    drawn := s.drawn
    trace := s.trace ++ [.reset (deliveredPart s.request sent)] }

/-! ## The outside world (60_exceptions.md R215, R220) -/

/-- A transport answer as the pseudocode sees it: `OK`, with the bytes of an `RxRead` (none for a `TxWrite`), or `FAIL`. -/
inductive Answer where
  | ok (bytes : List Byte)
  | fail
  deriving DecidableEq, Repr

/-- The answer an input is to a request; `none` where it is not an answer of the shape R215 gives that request
(such an input has no effect, log 3). -/
def answerTo (r : Request) (i : Input) : Option Answer :=
  match r, i with
  | .tx _, .txOk => some (.ok [])
  | .tx _, .txFail _ => some .fail
  | .rx n, .rxOk bytes => if bytes.length = n then some (.ok bytes) else none
  | .rx _, .rxFail => some .fail
  | _, _ => none

/-- The event that records the answer to a request. -/
def answerEvent (r : Request) (i : Input) : Event :=
  match i with
  | .txFail sent => .txFail (deliveredPart (some r) sent)
  | .rxOk bytes => .rxOk bytes
  | .rxFail => .rxFail
  | _ => .txOk

/-- The transport answers: the event is recorded and no request is outstanding any more. -/
def takeAnswer (r : Request) (i : Input) (s : State) : State :=
  { s with request := none, trace := s.trace ++ [answerEvent r i] }

/-- One input: `h` is what the command in flight does with an answer to its request. -/
def deliver (h : Answer → State → Out) (i : Input) (s : State) : Out :=
  match i with
  | .command record => .next { s with port := s.port ++ [record] }
  | .take => .next { s with rspPending := false }
  | .reset sent => .next (resetState sent s)
  | .silent => .next s
  | .late => .next s
  | i =>
    match s.request with
    | none => .next s
    | some r =>
      match answerTo r i with
      | none => .next s
      | some a => h a (takeAnswer r i s)

/-- The sequencer's run over the inputs that are known: until the command has ended, or until it waits for an input
that is not known yet (R24: "The phase advances only by the transport's answer to the awaited request"). -/
def drive (h : Answer → State → Out) : List Input → State → Out
  | [], s => .next { s with inputs := [] }
  | i :: rest, s =>
    if s.phase = .idle then .next { s with inputs := i :: rest }
    else (deliver h i s).andThen (drive h rest)

/-- The meaning of a command from its first step and from what it does with each transport answer. In IDLE the command
is accepted and started; while it is the command in flight, it goes on; while another is in flight, it waits: held,
neither lost nor queued (10_state.md R25; log 18). -/
def runCommand (i : Instr) (start : State → Out) (h : Answer → State → Out) (s : State) : Out :=
  if s.phase = .idle then (start (accept i s)).andThen (fun t => drive h t.inputs t)
  else if inFlight s = some i then drive h s.inputs s
  else .next s

/-- A record whose code is unassigned: accepted, STATUS_ILLEGAL at once, no transport request (30_encoding.md R98,
60_exceptions.md R204). -/
def rejectUnassigned (op : Byte) (f : Fields) (len : Byte) (s : State) : State :=
  respond .stIllegal none none (latchRecord op f len none s)

end Sys2Proof.Machine
end

