-- ==== Sys2Proof/Machine/Poller.lean ====
section
/-!
DEFINITION. Machine/Poller.lean: the two sequences commands share: `WaitOK` (40_codec.md R111) and
`SelectAndRead` (41_register_access.md R140).
-/
namespace Sys2Proof.Machine

/-- What `WaitOK` returns (40_codec.md R111: "returns OK or TIMEOUT, never FAIL"). -/
inductive WaitResult where
  | ok | timeout
  deriving DecidableEq, Repr

/-- Step `P.tx`: send the poll frame. -/
def issuePoll (site : Site) (s : State) : State := issueTx (.pTx site) (pollFrame s.params) s

/-- `WaitOK` begins: `L.POLLS <- 0`, then the first poll (R111). -/
def startWait (site : Site) (s : State) : State := issuePoll site (setPolls 0 s)

/-- A poll ended not-OK: count it, then give up or poll again (R111). -/
def pollMissed (site : Site) (k : WaitResult → State → Out) (s : State) : Out :=
  readHeld .polls s.work.polls fun n =>
    if pollsExhausted s.params (n + 1) then k .timeout (setPolls (n + 1) s)
    else .next (issuePoll site (setPolls (n + 1) s))

/-- The answer to a poll's `TxWrite` or `RxRead` (R111); `k` is the step after the call (40_codec.md R130). -/
def pollAnswer (site : Site) (k : WaitResult → State → Out) (a : Answer) (s : State) : Out :=
  match a with
  | .fail => pollMissed site k s
  | .ok bytes =>
    match s.phase with
    | .txWait _ => .next (issueRx (.pRx site) 1 s)
    | .rxWait _ =>
      match bytes with
      | [] => .fault .shortRead
      | b :: _ =>
        if statusIsOk s.params b then k .ok (setStat b s) else pollMissed site k (setStat b s)
    | .idle => .fault .phaseMismatch

/-- What `SelectAndRead` returns (41_register_access.md R140). -/
inductive SelectResult where
  | ok (bytes : List Byte)
  | fail
  | timeout
  deriving DecidableEq, Repr

/-- Step `S.tx`: select the device register with a one-byte write (R140). -/
def selectStart (s : State) : Out :=
  readHeld .addr s.ops.addr fun a => readHeld .reg s.ops.reg fun r =>
    .next (issueTx .sTx (encIW s.params a [r]) s)

/-- Step `S.ir`, after the select write's wait (R140). -/
def selectWaited (n : Nat) (k : SelectResult → State → Out) (w : WaitResult) (s : State) : Out :=
  match w with
  | .timeout => k .timeout s
  | .ok => readHeld .addr s.ops.addr fun a =>
      .next (issueTx .sIr (encIR s.params a (BitVec.ofNat 8 n)) s)

/-- The answers inside `SelectAndRead(n)` (R140); `k` is the step after the call. -/
def selectAnswer (n : Nat) (k : SelectResult → State → Out) (a : Answer) (s : State) : Out :=
  match s.phase with
  | .txWait .sTx =>
    match a with
    | .fail => k .fail s
    | .ok _ => .next (startWait .s s)
  | .txWait (.pTx .s) => pollAnswer .s (selectWaited n k) a s
  | .rxWait (.pRx .s) => pollAnswer .s (selectWaited n k) a s
  | .txWait .sIr =>
    match a with
    | .fail => k .fail s
    | .ok _ => .next (issueRx .sRx n s)
  | .rxWait .sRx =>
    match a with
    | .fail => k .fail s
    | .ok bytes => k (.ok bytes) (setRxbuf bytes s)
  | _ => .fault .phaseMismatch

end Sys2Proof.Machine
end

