-- ==== Sys2Proof/Machine/Codec.lean ====
section
/-!
DEFINITION. Machine/Codec.lean: the codec commands (40_codec.md R112 to R116): I2C_WRITE, I2C_READ, BRG_RD_REG,
BRG_WR_REG, BRG_WR_BULK.
-/
namespace Sys2Proof.Machine

/-- The end of a write command: STATUS_OK, or STATUS_TIMEOUT if the wait ran out (R112, R141, R142). -/
def writeDone (w : WaitResult) (s : State) : Out :=
  match w with
  | .ok => .next (respond .stOk none none s)
  | .timeout => .next (respond .stTimeout none none s)

/-- The answers inside a command that sends one IW frame at step `own` and then waits (R112, R141, R142). -/
def writeAnswer (own : Label) (site : Site) (a : Answer) (s : State) : Out :=
  if s.phase = .txWait own then
    match a with
    | .fail => .next (respond .stFail none none s)
    | .ok _ => .next (startWait site s)
  else if s.phase = .txWait (.pTx site) ∨ s.phase = .rxWait (.pRx site) then pollAnswer site writeDone a s
  else .fault .phaseMismatch

/-- The answers inside a fire-and-forget command: the answer is awaited and discarded (R115, R116). -/
def forgetAnswer (own : Label) (s : State) : Out :=
  if s.phase = .txWait own then .next (respond .stNone none none s) else .fault .phaseMismatch

/-! ## I2C_WRITE (R112) -/

def i2cWriteStart (s : State) : Out :=
  readHeld .addr s.ops.addr fun a => readHeld .txbuf s.buf.tx fun d =>
    .next (issueTx .wTx (encIW s.params a d) s)

def i2cWriteAnswer (a : Answer) (s : State) : Out := writeAnswer .wTx .w a s

/-- 0x01 I2C_WRITE: write `n` bytes to a slave, then wait for completion (R112). -/
def execI2cWrite (f : Fields) (data : List Byte) (s : State) : Out :=
  runCommand (.i2cWrite f data) i2cWriteStart i2cWriteAnswer s

/-! ## I2C_READ (R113) -/

def i2cReadStart (s : State) : Out :=
  readHeld .addr s.ops.addr fun a => readHeld .len s.ops.len fun n =>
    .next (issueTx .rTx (encIR s.params a n) s)

def i2cReadAnswer (a : Answer) (s : State) : Out :=
  match s.phase with
  | .txWait .rTx =>
    match a with
    | .fail => .next (respond .stFail none none s)
    | .ok _ => readHeld .len s.ops.len fun n => .next (issueRx .rRx n.toNat s)
  | .rxWait .rRx =>
    match a with
    | .fail => .next (respond .stFail none none s)
    | .ok bytes => .next (respond .stOk none (some bytes) (setRxbuf bytes s))
  | _ => .fault .phaseMismatch

/-- 0x02 I2C_READ: read `n` bytes from a slave; no poll follows (R113). -/
def execI2cRead (f : Fields) (len : Byte) (s : State) : Out :=
  runCommand (.i2cRead f len) i2cReadStart i2cReadAnswer s

/-! ## BRG_RD_REG (R114) -/

def brgRdRegStart (s : State) : Out :=
  readHeld .reg s.ops.reg fun r => .next (issueTx .bTx (encRR s.params r) s)

def brgRdRegAnswer (a : Answer) (s : State) : Out :=
  match s.phase with
  | .txWait .bTx =>
    match a with
    | .fail => .next (respond .stFail none none s)
    | .ok _ => .next (issueRx .bRx 1 s)
  | .rxWait .bRx =>
    match a with
    | .fail => .next (respond .stFail none none s)
    | .ok bytes =>
      match assemble8 bytes with
      | some v => .next (respond .stOk (some v) (some bytes) (setRxbuf bytes s))
      | none => .fault .shortRead
  | _ => .fault .phaseMismatch

/-- 0x03 BRG_RD_REG: read one bridge register once, and report whatever came back (R114). -/
def execBrgRdReg (f : Fields) (len : Byte) (s : State) : Out :=
  runCommand (.brgRdReg f len) brgRdRegStart brgRdRegAnswer s

/-! ## BRG_WR_REG (R115) -/

def brgWrRegStart (s : State) : Out :=
  readHeld .reg s.ops.reg fun r => readHeld .val s.ops.val fun v =>
    .next (issueTx .bwTx (encRW s.params r v) s)

def brgWrRegAnswer (_ : Answer) (s : State) : Out := forgetAnswer .bwTx s

/-- 0x04 BRG_WR_REG: write one bridge register, fire-and-forget (R115). -/
def execBrgWrReg (f : Fields) (len : Byte) (s : State) : Out :=
  runCommand (.brgWrReg f len) brgWrRegStart brgWrRegAnswer s

/-! ## BRG_WR_BULK (R116) -/

def brgWrBulkStart (s : State) : Out :=
  readHeld .txbuf s.buf.tx fun d => .next (issueTx .bbTx (encRB s.params d) s)

def brgWrBulkAnswer (_ : Answer) (s : State) : Out := forgetAnswer .bbTx s

/-- 0x05 BRG_WR_BULK: send raw bytes in one bridge register write frame, fire-and-forget (R116). -/
def execBrgWrBulk (f : Fields) (data : List Byte) (s : State) : Out :=
  runCommand (.brgWrBulk f data) brgWrBulkStart brgWrBulkAnswer s

end Sys2Proof.Machine
end

