-- ==== Sys2Proof/Machine/RegisterAccess.lean ====
section
/-!
DEFINITION. Machine/RegisterAccess.lean: the register access commands (41_register_access.md R141 to R145) and the
bit-field manipulator REG_WR_FIELD (R150 to R152).
-/
namespace Sys2Proof.Machine

/-! ## REG_WR_BYTE (R141) -/

def regWrByteStart (s : State) : Out :=
  readHeld .addr s.ops.addr fun a => readHeld .reg s.ops.reg fun r => readHeld .val s.ops.val fun v =>
    .next (issueTx .wbTx (encIW s.params a [r, v]) s)

def regWrByteAnswer (a : Answer) (s : State) : Out := writeAnswer .wbTx .wb a s

/-- 0x10 REG_WR_BYTE: write one byte to one device register (R141). -/
def execRegWrByte (f : Fields) (len : Byte) (s : State) : Out :=
  runCommand (.regWrByte f len) regWrByteStart regWrByteAnswer s

/-! ## REG_WR_BYTES (R142) -/

def regWrBytesStart (s : State) : Out :=
  readHeld .addr s.ops.addr fun a => readHeld .txbuf s.buf.tx fun d =>
    .next (issueTx .wsTx (encIW s.params a d) s)

def regWrBytesAnswer (a : Answer) (s : State) : Out := writeAnswer .wsTx .ws a s

/-- 0x11 REG_WR_BYTES: write a raw payload to a slave (R142). -/
def execRegWrBytes (f : Fields) (data : List Byte) (s : State) : Out :=
  runCommand (.regWrBytes f data) regWrBytesStart regWrBytesAnswer s

/-! ## The reads REG_RD_BYTE, REG_RD_16, REG_RD_24BE (R143, R144, R145) -/

/-- The end of a register read: the assembled value and the raw bytes, or the failure's code (R143). -/
def readDone (assemble : List Byte → Option Word32) (x : SelectResult) (s : State) : Out :=
  match x with
  | .fail => .next (respond .stFail none none s)
  | .timeout => .next (respond .stTimeout none none s)
  | .ok bytes =>
    match assemble bytes with
    | some v => .next (respond .stOk (some v) (some bytes) s)
    | none => .fault .shortRead

def regRdByteAnswer (a : Answer) (s : State) : Out := selectAnswer 1 (readDone assemble8) a s

/-- 0x12 REG_RD_BYTE: read one device register (R143). -/
def execRegRdByte (f : Fields) (len : Byte) (s : State) : Out :=
  runCommand (.regRdByte f len) selectStart regRdByteAnswer s

def regRd16Answer (a : Answer) (s : State) : Out := selectAnswer 2 (readDone assemble16) a s

/-- 0x13 REG_RD_16: read two bytes, low byte first in wire order (R144). -/
def execRegRd16 (f : Fields) (len : Byte) (s : State) : Out :=
  runCommand (.regRd16 f len) selectStart regRd16Answer s

def regRd24beAnswer (a : Answer) (s : State) : Out := selectAnswer 3 (readDone assemble24) a s

/-- 0x14 REG_RD_24BE: read three bytes, big-endian in wire order (R145). -/
def execRegRd24be (f : Fields) (len : Byte) (s : State) : Out :=
  runCommand (.regRd24be f len) selectStart regRd24beAnswer s

/-! ## REG_WR_FIELD (R150) -/

/-- After the read: compute the new byte and send the write-back at `F.tx`; a read that did not return OK is swallowed,
with no write-back (R150, 60_exceptions.md R202). -/
def fieldAfterRead (x : SelectResult) (s : State) : Out :=
  match x with
  | .fail => .next (respond .stNone none none s)
  | .timeout => .next (respond .stNone none none s)
  | .ok bytes =>
    match bytes with
    | [] => .fault .shortRead
    | old :: _ =>
      readHeld .pos s.ops.pos fun pos => readHeld .wid s.ops.wid fun wid => readHeld .val s.ops.val fun val =>
      readHeld .addr s.ops.addr fun a => readHeld .reg s.ops.reg fun r =>
        let new := fieldInsert old val pos wid
        .next (issueTx .fTx (encIW s.params a [r, new]) (setField old (fieldMask pos wid) new s))

/-- The write-back's wait ended; its result is not used (R150). -/
def fieldDone (_ : WaitResult) (s : State) : Out := .next (respond .stNone none none s)

def regWrFieldAnswer (a : Answer) (s : State) : Out :=
  match s.phase with
  | .txWait .fTx =>
    match a with
    | .fail => .next (respond .stNone none none s)
    | .ok _ => .next (startWait .f s)
  | .txWait (.pTx .f) => pollAnswer .f fieldDone a s
  | .rxWait (.pRx .f) => pollAnswer .f fieldDone a s
  | _ => selectAnswer 1 fieldAfterRead a s

/-- 0x15 REG_WR_FIELD: replace a bit field by read-modify-write (R150). Outside FieldDomain the source leaves the
behaviour unspecified and the model refuses before any step (R152, 60_exceptions.md R208; log 12). -/
def execRegWrField (f : Fields) (len : Byte) (s : State) : Out :=
  if fieldDomain f.pos f.wid then runCommand (.regWrField f len) selectStart regWrFieldAnswer s
  else .refused .fieldDomain

end Sys2Proof.Machine
end

