-- ==== Sys2Proof/Machine/Dispatch.lean ====
section
/-!
DEFINITION. Machine/Dispatch.lean: exec, one arm per command of the opcode table.
-/
namespace Sys2Proof.Machine

def exec (i : Instr) (s : State) : Host.Outcome State Fault Refusal :=
  match i with
  | .i2cWrite f data => Sys2Proof.Machine.execI2cWrite f data s
  | .i2cRead f len => Sys2Proof.Machine.execI2cRead f len s
  | .brgRdReg f len => Sys2Proof.Machine.execBrgRdReg f len s
  | .brgWrReg f len => Sys2Proof.Machine.execBrgWrReg f len s
  | .brgWrBulk f data => Sys2Proof.Machine.execBrgWrBulk f data s
  | .regWrByte f len => Sys2Proof.Machine.execRegWrByte f len s
  | .regWrBytes f data => Sys2Proof.Machine.execRegWrBytes f data s
  | .regRdByte f len => Sys2Proof.Machine.execRegRdByte f len s
  | .regRd16 f len => Sys2Proof.Machine.execRegRd16 f len s
  | .regRd24be f len => Sys2Proof.Machine.execRegRd24be f len s
  | .regWrField f len => Sys2Proof.Machine.execRegWrField f len s

end Sys2Proof.Machine
end

