-- ==== Sys2Proof/Machine/Sequencer.lean ====
section
/-!
DEFINITION. Machine/Sequencer.lean: what one step does around exec: taking a record from the command port in IDLE
(10_state.md R25), going on with the command in flight, and drawing a free input where the state lists none (log 2).
-/
namespace Sys2Proof.Machine

/-- No command is in flight: an answer has no request to answer (60_exceptions.md R215). -/
def noAnswer (_ : Answer) (s : State) : Out := .next s

/-- IDLE with nothing at the port: the next input of the outside world, listed or free. -/
def takeInput (s : State) : Out :=
  match s.inputs with
  | i :: rest => deliver noAnswer i { s with inputs := rest }
  | [] => deliver noAnswer (Config.world s.drawn) { s with drawn := s.drawn + 1 }

/-- While a command waits and the state lists no input, one free input is drawn. -/
def topUp (s : State) : State :=
  match s.inputs with
  | _ :: _ => s
  | [] => { s with inputs := [Config.world s.drawn], drawn := s.drawn + 1 }

/-- Start the command that a record decodes to, if its length operand is within the configured bounds (00_scope.md R9,
30_encoding.md R85; log 19). -/
def startCommand (i : Instr) (s : State) : Out :=
  if i.withinBounds s.params then exec i s else .refused .lengthBound

/-- IDLE: the record at the port, if there is one, is accepted (R25).
DESIGN CHOICE (log 26): R25, R208 and R230 give no order between a record that waits at the port and a reset or another
input that comes at the same moment; the model accepts the record first, so that such a reset then abandons it (R231). -/
def stepIdle (s : State) : Out :=
  match s.port with
  | [] => takeInput s
  | record :: rest =>
    match decode record with
    | .ok i => startCommand i { s with port := rest }
    | .error (.unassigned op f len) => .next (rejectUnassigned op f len { s with port := rest })
    | .error .malformed => .refused .malformedRecord

/-- A command is in flight: it goes on with the next inputs (R24). -/
def stepBusy (s : State) : Out :=
  match inFlight s with
  | some i => exec i (topUp s)
  | none => .fault .phaseMismatch

/-- One step of the BCC. -/
def stepBcc (s : State) : Out := if s.phase = .idle then stepIdle s else stepBusy s

/-- Present a record so that the very next step accepts it: nothing in flight, the record at the head of the port. -/
def presentRecord (record : List Byte) (s : State) : State :=
  { s with phase := .idle, request := none, port := record :: s.port }

end Sys2Proof.Machine
end

