-- ==== Sys2Proof/Machine/Step.lean ====
section
/-!
DEFINITION. Machine/Step.lean: the step of the machine, and the placing of a table word at the command port.
-/
namespace Sys2Proof.Machine

/-- One step (10_state.md R24, R25): in IDLE the next record or input, otherwise the command in flight. -/
def step (s : State) : Host.Outcome State Fault Refusal := stepBcc s

/-- `s` with the record of an opcode-table word at the command port (log 10). -/
def State.withFetchWord (s : State) (nbits w : Nat) : State := presentRecord (tableRecord nbits w) s

end Sys2Proof.Machine
end

