-- ==== Sys2Proof/Safety.lean ====
section
/-!
DEFINITION. Safety.lean: the terms in which claims about the BCC are made: a poll that ends not-OK, the inputs and the
port events of a wait, the state a command leaves, the consistency of a state, the sequence law of the port trace, the
frames the BCC may emit and the statuses each command may report.
-/
namespace Sys2Proof.Machine

/-! ## Waits (40_codec.md R111) -/

/-- A poll that ended not-OK: its `TxWrite` failed, its `RxRead` failed, or it read a byte. -/
inductive Miss where
  | txFail (sent : Nat)
  | rxFail
  | read (b : Byte)
  deriving DecidableEq, Repr

/-- The poll really is not-OK: the byte it read, if any, is not the sentinel. -/
def Miss.isMiss (p : Params) : Miss → Bool
  | .read b => decide (b ≠ p.okSentinel)
  | .txFail _ => true
  | .rxFail => true

/-- The environment's answers to that poll. After a failed poll `TxWrite` no `RxRead` follows (R111). -/
def Miss.inputs : Miss → List Input
  | .txFail sent => [.txFail sent]
  | .rxFail => [.txOk, .rxFail]
  | .read b => [.txOk, .rxOk [b]]

/-- The port events of that poll. -/
def Miss.events (p : Params) : Miss → List Event
  | .txFail sent => [.tx (pollFrame p), .txFail ((pollFrame p).take sent)]
  | .rxFail => [.tx (pollFrame p), .txOk, .rx 1, .rxFail]
  | .read b => [.tx (pollFrame p), .txOk, .rx 1, .rxOk [b]]

/-- `L.STAT` after that poll, from `L.STAT` before it. -/
def Miss.stat (before : Option Byte) : Miss → Option Byte
  | .read b => some b
  | .txFail _ => before
  | .rxFail => before

/-- The answers of polls that all ended not-OK. -/
def missInputs (ms : List Miss) : List Input := ms.flatMap Miss.inputs

/-- Their port events. -/
def missEvents (p : Params) (ms : List Miss) : List Event := ms.flatMap (Miss.events p)

/-- `L.STAT` after them. -/
def missStat (before : Option Byte) (ms : List Miss) : Option Byte := ms.foldl Miss.stat before

/-- The answers of a wait that ends with a poll that reads the sentinel. -/
def waitInputs (p : Params) (ms : List Miss) : List Input := missInputs ms ++ [.txOk, .rxOk [p.okSentinel]]

/-- Its port events. -/
def waitEvents (p : Params) (ms : List Miss) : List Event :=
  missEvents p ms ++ [.tx (pollFrame p), .txOk, .rx 1, .rxOk [p.okSentinel]]

/-- Every poll of `ms` is not-OK. -/
def allMiss (p : Params) (ms : List Miss) : Bool := ms.all (Miss.isMiss p)

/-- `n` not-OK polls in a row do not end a wait: always so with `MAX_POLLS = UNBOUNDED` (R111). -/
def withinBound (p : Params) (n : Nat) : Bool :=
  match p.maxPolls with
  | none => true
  | some m => decide (n < m)

/-! ## The state a command leaves -/

/-- The operand latches after acceptance of a command (10_state.md R21, R25). -/
def latchesOf (i : Instr) : OperandLatches :=
  ⟨some i.opcode, some i.fields.addr, some i.fields.reg, some i.fields.val, some i.fields.pos, some i.fields.wid,
    some i.lenByte⟩

/-- `s` after command `i`, accepted in `s`, has ended with response `r`: the work latches are `w` and `L.RXBUF` is `rx`,
the transport events between acceptance and response are `events`, and the inputs `rest` are still to come. The
parameters, the port and the free-input counter are those of `s`. -/
def finished (i : Instr) (w : WorkLatches) (rx : Option (List Byte)) (r : Response) (events : List Event)
    (rest : List Input) (s : State) : State :=
  { s with
    phase := .idle
    request := none
    ops := latchesOf i
    work := w
    buf := ⟨i.data?, rx⟩
    rsp := some r
    rspPending := true
    inputs := rest
    trace := s.trace ++ (.accept (encode i) :: (events ++ [.response r])) }

/-- `s` after command `i`, accepted in `s`, has come to wait at `phase` for the answer to `req`, with no response and
every known input used. -/
def waiting (i : Instr) (phase : Phase) (req : Request) (w : WorkLatches) (rx : Option (List Byte))
    (events : List Event) (s : State) : State :=
  { s with
    phase := phase
    request := some req
    ops := latchesOf i
    work := w
    buf := ⟨i.data?, rx⟩
    inputs := []
    trace := s.trace ++ (.accept (encode i) :: events) }

/-- Whether the last command accepted has responded, after an event, from whether it had before it. -/
def Event.responded (before : Bool) : Event → Bool
  | .accept _ => false
  | .response _ => true
  | .tx _ | .txOk | .txFail _ | .rx _ | .rxOk _ | .rxFail | .reset _ => before

/-- The last command that the trace shows accepted has responded; a reset that abandons it is no response (60_exceptions.md
R221, 70_reset_and_hazards.md R231). Where no command was accepted, none has failed to respond. -/
def lastCommandResponded (events : List Event) : Bool := events.foldl Event.responded true

/-- No further command among the inputs. -/
def noCommand (inputs : List Input) : Bool :=
  inputs.all fun i => match i with
    | .command _ => false
    | .txOk | .txFail _ | .rxOk _ | .rxFail | .silent | .late | .take | .reset _ => true

/-- 60_exceptions.md R221: a run of a command sequence has ended when the last command has responded and the sequencer is in
IDLE; no command of the sequence is left at the port or among the listed inputs. -/
def State.ended (s : State) : Bool :=
  decide (s.phase = .idle) && s.port.isEmpty && noCommand s.inputs && lastCommandResponded s.trace

/-! ## What a command can touch -/

/-- The commands whose sequence has a poll wait (40_codec.md R111, R112, 41_register_access.md R140 to R150). -/
def polls : Instr → Bool
  | .i2cWrite _ _ | .regWrByte _ _ | .regWrBytes _ _ | .regRdByte _ _ | .regRd16 _ _ | .regRd24be _ _
  | .regWrField _ _ => true
  | .i2cRead _ _ | .brgRdReg _ _ | .brgWrReg _ _ | .brgWrBulk _ _ => false

/-- The commands that receive data into `L.RXBUF` (10_state.md R26). -/
def readsData : Instr → Bool
  | .i2cRead _ _ | .brgRdReg _ _ | .regRdByte _ _ | .regRd16 _ _ | .regRd24be _ _ | .regWrField _ _ => true
  | .i2cWrite _ _ | .regWrByte _ _ | .regWrBytes _ _ | .brgWrReg _ _ | .brgWrBulk _ _ => false

/-- The command that writes `L.OLD`, `L.MASK` and `L.NEW` (10_state.md R22). -/
def writesField : Instr → Bool
  | .regWrField _ _ => true
  | .i2cWrite _ _ | .i2cRead _ _ | .brgRdReg _ _ | .brgWrReg _ _ | .brgWrBulk _ _ | .regWrByte _ _
  | .regWrBytes _ _ | .regRdByte _ _ | .regRd16 _ _ | .regRd24be _ _ => false

/-! ## Consistency of a state -/

/-- 41_register_access.md R152: the commands the model does not refuse. -/
def inDomain : Instr → Bool
  | .regWrField f _ => fieldDomain f.pos f.wid
  | .i2cWrite _ _ | .i2cRead _ _ | .brgRdReg _ _ | .brgWrReg _ _ | .brgWrBulk _ _ | .regWrByte _ _
  | .regWrBytes _ _ | .regRdByte _ _ | .regRd16 _ _ | .regRd24be _ _ => true

/-- The requests of a command that sends one IW frame at `own` and then polls (R112, R141, R142). -/
def writeRequest (p : Params) (own : Label) (site : Site) (frame : List Byte) (ph : Phase) : Option Request :=
  if ph = .txWait own then some (.tx frame)
  else if ph = .txWait (.pTx site) then some (.tx (pollFrame p))
  else if ph = .rxWait (.pRx site) then some (.rx 1)
  else none

/-- The requests of `SelectAndRead(n)` (R140). -/
def selectRequest (p : Params) (f : Fields) (n : Nat) (ph : Phase) : Option Request :=
  match ph with
  | .txWait .sTx => some (.tx (encIW p f.addr [f.reg]))
  | .txWait (.pTx .s) => some (.tx (pollFrame p))
  | .rxWait (.pRx .s) => some (.rx 1)
  | .txWait .sIr => some (.tx (encIR p f.addr (BitVec.ofNat 8 n)))
  | .rxWait .sRx => some (.rx n)
  | _ => none

/-- The transport request that the spec gives command `i` at a step label, `none` where the label is not one of `i`'s
(40_codec.md R112 to R116, 41_register_access.md R140 to R150). `new` is `L.NEW`. -/
def requestAt (p : Params) (new : Option Byte) (i : Instr) (ph : Phase) : Option Request :=
  match i with
  | .i2cWrite f d => writeRequest p .wTx .w (encIW p f.addr d) ph
  | .i2cRead f n =>
    match ph with
    | .txWait .rTx => some (.tx (encIR p f.addr n))
    | .rxWait .rRx => some (.rx n.toNat)
    | _ => none
  | .brgRdReg f _ =>
    match ph with
    | .txWait .bTx => some (.tx (encRR p f.reg))
    | .rxWait .bRx => some (.rx 1)
    | _ => none
  | .brgWrReg f _ => if ph = .txWait .bwTx then some (.tx (encRW p f.reg f.val)) else none
  | .brgWrBulk _ d => if ph = .txWait .bbTx then some (.tx (encRB p d)) else none
  | .regWrByte f _ => writeRequest p .wbTx .wb (encIW p f.addr [f.reg, f.val]) ph
  | .regWrBytes f d => writeRequest p .wsTx .ws (encIW p f.addr d) ph
  | .regRdByte f _ => selectRequest p f 1 ph
  | .regRd16 f _ => selectRequest p f 2 ph
  | .regRd24be f _ => selectRequest p f 3 ph
  | .regWrField f _ =>
    match ph with
    | .txWait .fTx => new.map fun v => .tx (encIW p f.addr [f.reg, v])
    | .txWait (.pTx .f) => some (.tx (pollFrame p))
    | .rxWait (.pRx .f) => some (.rx 1)
    | ph => selectRequest p f 1 ph

/-- A step of a poll wait. -/
def Phase.isPoll : Phase → Bool
  | .txWait (.pTx _) => true
  | .rxWait (.pRx _) => true
  | _ => false

/-- In IDLE no request is outstanding; otherwise the latches hold a command of the model within the configured bounds, the
outstanding request is the one the spec gives that command at that step, and a wait has its count (10_state.md R24, R32). -/
def State.sequencerOk (s : State) : Bool :=
  if s.phase = .idle then decide (s.request = none)
  else
    match inFlight s with
    | none => false
    | some i =>
      inDomain i && i.withinBounds s.params && s.request.isSome && decide (requestAt s.params s.work.new i s.phase = s.request)
        && (!s.phase.isPoll || s.work.polls.isSome)

/-- 10_state.md R28: `RSP.DLEN` holds a value exactly when `RSP.DATA` does, and is its length; `RSP.VALUE` and
`RSP.DATA` hold no value in a response that reports anything but STATUS_OK. -/
def Response.wf (r : Response) : Bool :=
  decide (r.dlen = r.data.map fun d => BitVec.ofNat 8 d.length)
    && decide ((r.data.getD []).length ≤ 255)
    && (decide (r.status = .stOk) || (r.value.isNone && r.data.isNone))

/-- The response register holds a well-formed response or none, and none is pending that was never emitted. -/
def State.responseOk (s : State) : Bool :=
  match s.rsp with
  | none => !s.rspPending
  | some r => r.wf

/-- 10_state.md R26: each buffer holds 0 to 255 bytes, or no value. -/
def State.buffersOk (s : State) : Bool :=
  decide ((s.buf.tx.getD []).length ≤ 255) && decide ((s.buf.rx.getD []).length ≤ 255)

/-- The model's invariant. -/
abbrev State.Consistent (s : State) : Prop :=
  (s.sequencerOk && s.responseOk && s.buffersOk) = true

/-! ## The port trace -/

/-- Where the port trace stands: no command, a command between two requests, or a request awaiting its answer. -/
inductive Cursor where
  | idle | running | awaitTx
  | awaitRx (n : Nat)
  deriving DecidableEq, Repr

/-- The events that may come next (20_memory.md R60, R61, 60_exceptions.md R215): one command at a time, one request at a
time, each answered, in its shape, before the next. -/
def Cursor.next : Cursor → Event → Option Cursor
  | .idle, .accept _ => some .running
  | .running, .tx _ => some .awaitTx
  | .awaitTx, .txOk => some .running
  | .awaitTx, .txFail _ => some .running
  | .running, .rx n => some (.awaitRx n)
  | .awaitRx n, .rxOk bytes => if bytes.length = n then some .running else none
  | .awaitRx _, .rxFail => some .running
  | .running, .response _ => some .idle
  | _, .reset _ => some .idle
  | _, _ => none

/-- Read a trace from a cursor; `none` where an event is out of order. -/
def scanFrom : Option Cursor → List Event → Option Cursor
  | c, [] => c
  | c, e :: rest => scanFrom (c.bind (·.next e)) rest

/-- Where a state's sequencer stands. -/
def State.cursor (s : State) : Cursor :=
  match s.phase, s.request with
  | .idle, _ => .idle
  | _, some (.tx _) => .awaitTx
  | _, some (.rx n) => .awaitRx n
  | _, none => .running

/-- The whole trace is in order and ends where the sequencer stands. -/
abbrev State.TraceInOrder (s : State) : Prop := scanFrom (some .idle) s.trace = some s.cursor

/-- The frames of 30_encoding.md R81 to R86, with R81's and R85's bounds on the payload. -/
def isBccFrame (p : Params) (frame : List Byte) : Prop :=
  (∃ a8 d, d.length ≤ 255 ∧ frame = encIW p a8 d) ∨ (∃ a8 n, frame = encIR p a8 n)
    ∨ (∃ r, frame = encRR p r) ∨ (∃ r v, frame = encRW p r v)
    ∨ (∃ d, d.length ≤ p.maxBulkLen ∧ frame = encRB p d)

/-- Every frame the trace records is one of them (R100). -/
def State.FramesKnown (s : State) : Prop := ∀ frame, Event.tx frame ∈ s.trace → isBccFrame s.params frame

/-- The responses a trace records. -/
def responsesIn (events : List Event) : List Response :=
  events.filterMap fun e => match e with
    | .response r => some r
    | _ => none

/-- The transport events of a trace: requests and answers. -/
def transportOf (events : List Event) : List Event :=
  events.filter fun e => match e with
    | .tx _ | .txOk | .txFail _ | .rx _ | .rxOk _ | .rxFail => true
    | .accept _ | .response _ | .reset _ => false

/-- The marker bytes of 30_encoding.md R80 and the status register's address. -/
def standardParams (p : Params) : Bool :=
  decide (p.mkS = 0x53) && decide (p.mkP = 0x50) && decide (p.mkR = 0x52) && decide (p.mkW = 0x57)
    && decide (p.statusRegAddr = 0x0A)

/-- 60_exceptions.md R200: the statuses each command can report; TIMEOUT only when `MAX_POLLS` is finite. -/
def mayReport (p : Params) (i : Instr) (st : Status) : Bool :=
  match i with
  | .i2cRead _ _ | .brgRdReg _ _ => decide (st = .stOk) || decide (st = .stFail)
  | .brgWrReg _ _ | .brgWrBulk _ _ | .regWrField _ _ => decide (st = .stNone)
  | .i2cWrite _ _ | .regWrByte _ _ | .regWrBytes _ _ | .regRdByte _ _ | .regRd16 _ _ | .regRd24be _ _ =>
    decide (st = .stOk) || decide (st = .stFail) || (decide (st = .stTimeout) && p.maxPolls.isSome)

/-- The same command with every field that R90 marks `-` for it written as 0 (30_encoding.md R90, R99, R102). -/
def eraseIgnored : Instr → Instr
  | .i2cWrite f d => .i2cWrite ⟨f.addr, 0, 0, 0, 0⟩ d
  | .i2cRead f n => .i2cRead ⟨f.addr, 0, 0, 0, 0⟩ n
  | .brgRdReg f _ => .brgRdReg ⟨0, f.reg, 0, 0, 0⟩ 0
  | .brgWrReg f _ => .brgWrReg ⟨0, f.reg, f.val, 0, 0⟩ 0
  | .brgWrBulk _ d => .brgWrBulk ⟨0, 0, 0, 0, 0⟩ d
  | .regWrByte f _ => .regWrByte ⟨f.addr, f.reg, f.val, 0, 0⟩ 0
  | .regWrBytes f d => .regWrBytes ⟨f.addr, 0, 0, 0, 0⟩ d
  | .regRdByte f _ => .regRdByte ⟨f.addr, f.reg, 0, 0, 0⟩ 0
  | .regRd16 f _ => .regRd16 ⟨f.addr, f.reg, 0, 0, 0⟩ 0
  | .regRd24be f _ => .regRd24be ⟨f.addr, f.reg, 0, 0, 0⟩ 0
  | .regWrField f _ => .regWrField f 0

/-- `t` and `u`, both reached from `s` by accepting one command each, look alike at the ports: the same transport events
and responses after the acceptance, the same response register, the same request outstanding or none, the same readiness,
the same records still presented and the same inputs still to come (10_state.md R23). -/
def PortsAgree (s t u : State) : Prop :=
  t.trace.drop (s.trace.length + 1) = u.trace.drop (s.trace.length + 1)
    ∧ t.rsp = u.rsp ∧ t.rspPending = u.rspPending ∧ t.request = u.request
    ∧ (t.phase = .idle ↔ u.phase = .idle) ∧ t.port = u.port ∧ t.inputs = u.inputs

/-- No reset among the inputs. -/
def noReset (inputs : List Input) : Bool :=
  inputs.all fun i => match i with
    | .reset _ => false
    | _ => true

end Sys2Proof.Machine
end

