-- ==== Sys2Proof/Certificates/Slice0/Obligations.lean ====
section
/-!
DEFINITION. Certificates/Slice0/Obligations.lean: what is claimed about the model, rule by rule of spec/. Frames are
written with the markers as parameters (00_scope.md R9); `EncodersGiveTheWireBytes` and `FrameDecoderLaws` give the bytes
of R80.
-/
open Sys2Proof Sys2Proof.Machine

namespace Sys2Proof.Machine

/-- The IW frame of R81, written out. -/
def frameIW (p : Params) (a8 : Byte) (d : List Byte) : List Byte :=
  [p.mkS, a8 &&& 0xFE, BitVec.ofNat 8 d.length] ++ d ++ [p.mkP]

/-- The IR frame of R82, written out. -/
def frameIR (p : Params) (a8 n : Byte) : List Byte := [p.mkS, a8 ||| 0x01, n, p.mkP]

/-- The poll frame of R86, written out. -/
def framePoll (p : Params) : List Byte := [p.mkR, p.statusRegAddr, p.mkP]

/-- A response that gives a status only (R28). -/
def bareResponse (st : Status) : Response := ⟨st, none, none, none⟩

/-- The work latches after a wait that left `L.STAT` at `stat` and counted `n` not-OK polls (R22, R111). -/
def polled (stat : Option Byte) (n : Nat) (w : WorkLatches) : WorkLatches := ⟨stat, some n, w.old, w.mask, w.new⟩

/-- The work latches after REG_WR_FIELD has read `old` and computed the mask and the new byte (R150). -/
def fielded (f : Fields) (old : Byte) (w : WorkLatches) : WorkLatches :=
  ⟨w.stat, w.polls, some old, some (fieldMask f.pos f.wid), some (fieldInsert old f.val f.pos f.wid)⟩

/-- A frame's `TxWrite` that failed after `k` bytes (R215). -/
def txFails (frame : List Byte) (k : Nat) : List Event := [Event.tx frame, .txFail (frame.take k)]

/-- The IW frame of REG_WR_FIELD's write-back (R150). -/
def frameBack (p : Params) (f : Fields) (old : Byte) : List Byte :=
  frameIW p f.addr [f.reg, fieldInsert old f.val f.pos f.wid]

/-- What R112, R141 and R142 say of a command `i` that sends `EncIW(a8, d)` at step `own` and then waits: from every state
in IDLE, for every answer the environment may give. -/
def WriteBehaves (i : Instr) (own : Label) (site : Site) (a8 : Byte) (d : List Byte) : Prop :=
  ∀ s : State, s.phase = .idle →
    -- STATUS_OK when some poll reads the sentinel
    (∀ ms rest, allMiss s.params ms = true → withinBound s.params ms.length = true →
      s.inputs = .txOk :: (waitInputs s.params ms ++ rest) →
      exec i s = .next (finished i
        (polled (some s.params.okSentinel) ms.length s.work) s.buf.rx
        (bareResponse .stOk) ([Event.tx (frameIW s.params a8 d), .txOk] ++ waitEvents s.params ms) rest s)) ∧
    -- STATUS_FAIL when the frame's TxWrite fails: no poll
    (∀ k rest, s.inputs = .txFail k :: rest →
      exec i s = .next (finished i s.work s.buf.rx (bareResponse .stFail)
        (txFails (frameIW s.params a8 d) k) rest s)) ∧
    -- STATUS_TIMEOUT when MAX_POLLS is finite and as many polls in a row end not-OK
    (∀ ms rest, allMiss s.params ms = true → s.params.maxPolls = some ms.length → 0 < ms.length →
      s.inputs = .txOk :: (missInputs ms ++ rest) →
      exec i s = .next (finished i
        (polled (missStat s.work.stat ms) ms.length s.work) s.buf.rx
        (bareResponse .stTimeout) ([Event.tx (frameIW s.params a8 d), .txOk] ++ missEvents s.params ms) rest s)) ∧
    -- otherwise it polls on, with no response
    (∀ ms, allMiss s.params ms = true → withinBound s.params ms.length = true →
      s.inputs = .txOk :: missInputs ms →
      exec i s = .next (waiting i (.txWait (.pTx site)) (.tx (framePoll s.params))
        (polled (missStat s.work.stat ms) ms.length s.work) s.buf.rx
        ([Event.tx (frameIW s.params a8 d), .txOk] ++ missEvents s.params ms ++ [Event.tx (framePoll s.params)]) s)) ∧
    -- and before the frame is answered it waits at its own step
    (s.inputs = [] →
      exec i s = .next (waiting i (.txWait own) (.tx (frameIW s.params a8 d)) s.work s.buf.rx
        [Event.tx (frameIW s.params a8 d)] s))

/-- The port events of `SelectAndRead`'s select write up to the end of its wait (R140). -/
def selectEvents (p : Params) (f : Fields) (ms : List Miss) : List Event :=
  [Event.tx (frameIW p f.addr [f.reg]), .txOk] ++ waitEvents p ms

/-- The failures R143 to R145 share: the register reads of `n` bytes end at the first failing step (R140). -/
def ReadFails (i : Instr) (f : Fields) (n : Nat) : Prop :=
  ∀ s : State, s.phase = .idle →
    -- the select write's TxWrite fails
    (∀ k rest, s.inputs = .txFail k :: rest →
      exec i s = .next (finished i s.work s.buf.rx (bareResponse .stFail)
        (txFails (frameIW s.params f.addr [f.reg]) k) rest s)) ∧
    -- its wait runs out: no read frame is sent
    (∀ ms rest, allMiss s.params ms = true → s.params.maxPolls = some ms.length → 0 < ms.length →
      s.inputs = .txOk :: (missInputs ms ++ rest) →
      exec i s = .next (finished i
        (polled (missStat s.work.stat ms) ms.length s.work) s.buf.rx
        (bareResponse .stTimeout)
        ([Event.tx (frameIW s.params f.addr [f.reg]), .txOk] ++ missEvents s.params ms) rest s)) ∧
    -- the read frame's TxWrite fails: no RxRead
    (∀ ms k rest, allMiss s.params ms = true → withinBound s.params ms.length = true →
      s.inputs = .txOk :: (waitInputs s.params ms ++ (.txFail k :: rest)) →
      exec i s = .next (finished i
        (polled (some s.params.okSentinel) ms.length s.work) s.buf.rx
        (bareResponse .stFail)
        (selectEvents s.params f ms ++ txFails (frameIR s.params f.addr (BitVec.ofNat 8 n)) k) rest s)) ∧
    -- the RxRead fails
    (∀ ms rest, allMiss s.params ms = true → withinBound s.params ms.length = true →
      s.inputs = .txOk :: (waitInputs s.params ms ++ (.txOk :: .rxFail :: rest)) →
      exec i s = .next (finished i
        (polled (some s.params.okSentinel) ms.length s.work) s.buf.rx
        (bareResponse .stFail)
        (selectEvents s.params f ms ++ [Event.tx (frameIR s.params f.addr (BitVec.ofNat 8 n)), .txOk, .rx n, .rxFail]) rest s)) ∧
    -- the select write's poll never reads OK: no response
    (∀ ms, allMiss s.params ms = true → withinBound s.params ms.length = true →
      s.inputs = .txOk :: missInputs ms →
      exec i s = .next (waiting i (.txWait (.pTx .s)) (.tx (framePoll s.params))
        (polled (missStat s.work.stat ms) ms.length s.work) s.buf.rx
        ([Event.tx (frameIW s.params f.addr [f.reg]), .txOk] ++ missEvents s.params ms ++ [Event.tx (framePoll s.params)]) s))

/-- The success R143 to R145 share: `bytes` of the length asked for give the value `value`. -/
def ReadSucceeds (i : Instr) (f : Fields) (bytes : List Byte) (value : Word32) : Prop :=
  ∀ (s : State) ms rest, s.phase = .idle → allMiss s.params ms = true → withinBound s.params ms.length = true →
    s.inputs = .txOk :: (waitInputs s.params ms ++ (.txOk :: .rxOk bytes :: rest)) →
    exec i s = .next (finished i
      (polled (some s.params.okSentinel) ms.length s.work) (some bytes)
      ⟨.stOk, some value, some bytes, some (BitVec.ofNat 8 bytes.length)⟩
      (selectEvents s.params f ms ++ [Event.tx (frameIR s.params f.addr (BitVec.ofNat 8 bytes.length)), .txOk,
        .rx bytes.length, .rxOk bytes]) rest s)

/-- What R115 and R116 say of a command that sends one frame and reports nothing, within the configured `MAX_BULK_LEN`. -/
def ForgetBehaves (i : Instr) (own : Label) (frame : Params → List Byte) : Prop :=
  ∀ s : State, s.phase = .idle → i.withinBounds s.params = true →
    (∀ rest, s.inputs = .txOk :: rest →
      exec i s = .next (finished i s.work s.buf.rx (bareResponse .stNone)
        [Event.tx (frame s.params), .txOk] rest s)) ∧
    (∀ k rest, s.inputs = .txFail k :: rest →
      exec i s = .next (finished i s.work s.buf.rx (bareResponse .stNone)
        (txFails (frame s.params) k) rest s)) ∧
    (s.inputs = [] →
      exec i s = .next (waiting i (.txWait own) (.tx (frame s.params)) s.work s.buf.rx [Event.tx (frame s.params)] s))

/-- 10_state.md R32 and R231: `s` right after a reset that found `sent` bytes of an outstanding frame delivered, with the
inputs `rest` still to come. The parameters hold; the host's records and the model's own fields stay (log 9). -/
def afterReset (sent : Nat) (rest : List Input) (s : State) : State :=
  { State.reset with
    params := s.params
    port := s.port
    inputs := rest
    drawn := s.drawn
    trace := s.trace ++ [.reset (match s.request with
      | some (.tx frame) => frame.take sent
      | _ => [])] }

/-- 10_state.md R32: what reset leaves, at the start and in any state, but for the parameters. -/
def holdsResetValues (s : State) : Prop :=
  s.phase = .idle ∧
  s.ops.op = none ∧ s.ops.addr = none ∧ s.ops.reg = none ∧ s.ops.val = none ∧ s.ops.pos = none ∧ s.ops.wid = none ∧
  s.ops.len = none ∧
  s.work.stat = none ∧ s.work.polls = none ∧ s.work.old = none ∧ s.work.mask = none ∧ s.work.new = none ∧
  s.buf.tx = none ∧ s.buf.rx = none ∧
  s.rsp = none ∧ s.rspPending = false ∧
  s.request = none

end Sys2Proof.Machine

/-! ## Encoding -/

/-- 30_encoding.md R89, R90, R101: a byte list decodes to a command exactly when the command is well-formed and the bytes
are its record. -/
def Obligations.DecodeIsTheInverseOfEncode : Prop :=
  ∀ (r : List Byte) (i : Instr), decode r = .ok i ↔ (i.wellFormed = true ∧ encode i = r)

/-- Records written out from R90 decode to the commands they stand for, one per row of R89's table. -/
def Obligations.SampleRecordsDecode : Prop :=
  decode [0x01, 0xD1, 0, 0, 0, 0, 2, 0x6B, 0x00] = .ok (.i2cWrite ⟨0xD1, 0, 0, 0, 0⟩ [0x6B, 0x00]) ∧
  decode [0x02, 0xD0, 0, 0, 0, 0, 2] = .ok (.i2cRead ⟨0xD0, 0, 0, 0, 0⟩ 2) ∧
  decode [0x04, 0, 0x02, 0x5A, 0, 0, 0] = .ok (.brgWrReg ⟨0, 0x02, 0x5A, 0, 0⟩ 0) ∧
  decode [0x15, 0xD0, 0x1C, 0x02, 0x04, 0x03, 0] = .ok (.regWrField ⟨0xD0, 0x1C, 0x02, 0x04, 0x03⟩ 0)

/-- 30_encoding.md R87: the encoder functions, byte for byte, at the marker values of R80. -/
def Obligations.EncodersGiveTheWireBytes : Prop :=
  ∀ p : Params, standardParams p = true →
    (∀ a8 d, d.length ≤ 255 → encIW p a8 d = [0x53, a8 &&& 0xFE, BitVec.ofNat 8 d.length] ++ d ++ [0x50]) ∧
    (∀ a8 n, encIR p a8 n = [0x53, a8 ||| 0x01, n, 0x50]) ∧
    (∀ r, encRR p r = [0x52, r, 0x50]) ∧
    (∀ r v, encRW p r v = [0x57, r, v, 0x50]) ∧
    (∀ d, d.length ≤ p.maxBulkLen → encRB p d = [0x57] ++ d ++ [0x50]) ∧
    pollFrame p = encRR p p.statusRegAddr ∧ pollFrame p = [0x52, 0x0A, 0x50] ∧
    (∀ r v, encRW p r v = encRB p [r, v])

/-- 30_encoding.md R91: bit 0 of the address operand never reaches a frame, bits 7 to 1 always do. -/
def Obligations.AddressBitIsForced : Prop :=
  ∀ (p : Params) (a8 : Byte),
    (∀ d, encIW p a8 d = [p.mkS, a8 &&& 0xFE, BitVec.ofNat 8 d.length] ++ d ++ [p.mkP]
      ∧ encIW p (a8 ^^^ 0x01) d = encIW p a8 d) ∧
    (∀ n, encIR p a8 n = [p.mkS, a8 ||| 0x01, n, p.mkP] ∧ encIR p (a8 ^^^ 0x01) n = encIR p a8 n) ∧
    (forceWrite a8).getLsbD 0 = false ∧ (forceRead a8).getLsbD 0 = true ∧
    (∀ b, 0 < b → (forceWrite a8).getLsbD b = a8.getLsbD b ∧ (forceRead a8).getLsbD b = a8.getLsbD b)

/-- 30_encoding.md R96: the decoder's laws (a) to (e); that no frame of the encoders is Invalid follows from them; and
what is Invalid. Each law is on its encoder's domain (30_encoding.md R87). -/
def Obligations.FrameDecoderLaws : Prop :=
  ∀ p : Params, standardParams p = true →
    (∀ a8 d, d.length ≤ 255 → decodeFrame p (encIW p a8 d) = some (.iw (a8 &&& 0xFE) d)) ∧
    (∀ a8 n, decodeFrame p (encIR p a8 n) = some (.ir (a8 ||| 0x01) n)) ∧
    (∀ r, decodeFrame p (encRR p r) = some (.rr r)) ∧
    (∀ d, d.length ≤ p.maxBulkLen → decodeFrame p (encRB p d) = some (.rb d)) ∧
    (∀ r v, decodeFrame p (encRW p r v) = some (.rb [r, v])) ∧
    decodeFrame p [] = none ∧
    (∀ frame, frame.getLast? ≠ some 0x50 → decodeFrame p frame = none) ∧
    (∀ a n rest, a.getLsbD 0 = false → rest.length ≠ n.toNat + 1 → decodeFrame p (0x53 :: a :: n :: rest) = none) ∧
    (∀ a n rest, a.getLsbD 0 = true → rest.length ≠ 1 → decodeFrame p (0x53 :: a :: n :: rest) = none)

/-- 30_encoding.md R95: whatever decodes is the encoding of its term, so `DecodeFrame` is the inverse of the encoders and
of nothing else. An RB frame has no bound here: R95's pseudocode has none, where R100's words have R85's (the model follows
R95: its choice, log 25). -/
def Obligations.DecodedFrameIsEncoded : Prop :=
  ∀ p : Params, standardParams p = true → ∀ (frame : List Byte) (t : Frame), decodeFrame p frame = some t →
    match t with
    | .iw a d => frame = encIW p a d ∧ d.length ≤ 255 ∧ a.getLsbD 0 = false
    | .ir a n => frame = encIR p a n ∧ a.getLsbD 0 = true
    | .rr r => frame = encRR p r
    | .rb d => frame = encRB p d

/-! ## Field arithmetic and result assembly -/

/-- 41_register_access.md R151, on the domain of R152: the mask and the inserted byte, as exact integers that fit in 8
bits, and bit by bit: outside the mask `old`, inside it the value's bits, shifted. -/
def Obligations.FieldInsertBitByBit : Prop :=
  ∀ old val pos wid : Byte, fieldDomain pos wid = true →
    (fieldLsb pos wid : Int) = pos.toNat - wid.toNat + 1 ∧ fieldLsb pos wid ≤ 8 ∧
    (fieldMask pos wid).toNat = ((1 <<< wid.toNat) - 1) <<< fieldLsb pos wid ∧
    (fieldInsert old val pos wid).toNat =
      (old.toNat &&& (fieldMask pos wid ^^^ 0xFF).toNat)
        ||| ((val.toNat <<< fieldLsb pos wid) &&& (fieldMask pos wid).toNat) ∧
    (∀ b, b < 8 →
      (fieldMask pos wid).getLsbD b = decide (fieldLsb pos wid ≤ b ∧ b ≤ pos.toNat) ∧
      (fieldInsert old val pos wid).getLsbD b =
        if fieldLsb pos wid ≤ b ∧ b ≤ pos.toNat then val.getLsbD (b - fieldLsb pos wid) else old.getLsbD b)

/-- 41_register_access.md R152: the domain, and that outside it the command is refused before any step. That exec refuses it
also in a state with another command in flight, where R25 would hold it, is the model's choice (log 12). Inside the domain, whatever the inputs, the command is accepted and
its select frame sent; with no input listed, it waits there. -/
def Obligations.RegWrFieldRefusedExactlyOutsideDomain : Prop :=
  ∀ (f : Fields) (len : Byte),
    (fieldDomain f.pos f.wid = true ↔ (f.pos.toNat ≤ 7 ∧ f.wid.toNat ≤ 8 ∧ f.wid.toNat ≤ f.pos.toNat + 1)) ∧
    (∀ s : State, exec (.regWrField f len) s = .refused .fieldDomain ↔ fieldDomain f.pos f.wid = false) ∧
    (∀ s : State, s.phase = .idle → fieldDomain f.pos f.wid = true →
      ∃ t, exec (.regWrField f len) s = .next t ∧
        s.trace ++ [.accept (encode (.regWrField f len)), .tx (frameIW s.params f.addr [f.reg])] <+: t.trace) ∧
    (∀ s : State, s.phase = .idle → s.inputs = [] → fieldDomain f.pos f.wid = true →
      exec (.regWrField f len) s = .next (waiting (.regWrField f len) (.txWait .sTx)
        (.tx (frameIW s.params f.addr [f.reg])) s.work s.buf.rx [Event.tx (frameIW s.params f.addr [f.reg])] s))

/-- 20_memory.md R51: the three assemblies, as unsigned numbers. -/
def Obligations.AssemblyOfReceivedBytes : Prop :=
  ∀ b0 b1 b2 : Byte,
    (∃ v, assemble8 [b0] = some v ∧ v.toNat = b0.toNat) ∧
    (∃ v, assemble16 [b0, b1] = some v ∧ v.toNat = b1.toNat * 256 + b0.toNat) ∧
    (∃ v, assemble24 [b0, b1, b2] = some v ∧ v.toNat = b0.toNat * 65536 + b1.toNat * 256 + b2.toNat)

/-! ## The commands -/

/-- 40_codec.md R112. -/
def Obligations.I2cWriteBehaves : Prop :=
  ∀ (f : Fields) (d : List Byte), d.length ≤ 255 →
    (Instr.i2cWrite f d).opcode = 0x01 ∧ WriteBehaves (.i2cWrite f d) .wTx .w f.addr d

/-- 41_register_access.md R141: one IW frame with the payload `[reg, v]`. -/
def Obligations.RegWrByteBehaves : Prop :=
  ∀ (f : Fields) (len : Byte),
    (Instr.regWrByte f len).opcode = 0x10 ∧ WriteBehaves (.regWrByte f len) .wbTx .wb f.addr [f.reg, f.val]

/-- 41_register_access.md R142. -/
def Obligations.RegWrBytesBehaves : Prop :=
  ∀ (f : Fields) (d : List Byte), d.length ≤ 255 →
    (Instr.regWrBytes f d).opcode = 0x11 ∧ WriteBehaves (.regWrBytes f d) .wsTx .ws f.addr d

/-- 40_codec.md R113. -/
def Obligations.I2cReadBehaves : Prop :=
  ∀ (f : Fields) (len : Byte) (s : State), s.phase = .idle →
    (Instr.i2cRead f len).opcode = 0x02 ∧
    (∀ bytes rest, bytes.length = len.toNat → s.inputs = .txOk :: .rxOk bytes :: rest →
      exec (.i2cRead f len) s = .next (finished (.i2cRead f len) s.work (some bytes)
        ⟨.stOk, none, some bytes, some len⟩
        [Event.tx (frameIR s.params f.addr len), .txOk, .rx len.toNat, .rxOk bytes] rest s)) ∧
    (∀ k rest, s.inputs = .txFail k :: rest →
      exec (.i2cRead f len) s = .next (finished (.i2cRead f len) s.work s.buf.rx (bareResponse .stFail)
        (txFails (frameIR s.params f.addr len) k) rest s)) ∧
    (∀ rest, s.inputs = .txOk :: .rxFail :: rest →
      exec (.i2cRead f len) s = .next (finished (.i2cRead f len) s.work s.buf.rx (bareResponse .stFail)
        [Event.tx (frameIR s.params f.addr len), .txOk, .rx len.toNat, .rxFail] rest s)) ∧
    (s.inputs = [] →
      exec (.i2cRead f len) s = .next (waiting (.i2cRead f len) (.txWait .rTx)
        (.tx (frameIR s.params f.addr len)) s.work s.buf.rx [Event.tx (frameIR s.params f.addr len)] s)) ∧
    (s.inputs = [.txOk] →
      exec (.i2cRead f len) s = .next (waiting (.i2cRead f len) (.rxWait .rRx) (.rx len.toNat) s.work s.buf.rx
        [Event.tx (frameIR s.params f.addr len), .txOk, .rx len.toNat] s))

/-- 40_codec.md R114: one read, whatever came back is reported. -/
def Obligations.BrgRdRegBehaves : Prop :=
  ∀ (f : Fields) (len : Byte) (s : State), s.phase = .idle →
    (Instr.brgRdReg f len).opcode = 0x03 ∧
    (∀ b rest, s.inputs = .txOk :: .rxOk [b] :: rest →
      exec (.brgRdReg f len) s = .next (finished (.brgRdReg f len) s.work (some [b])
        ⟨.stOk, some (b.setWidth 32), some [b], some 1⟩
        [Event.tx [s.params.mkR, f.reg, s.params.mkP], .txOk, .rx 1, .rxOk [b]] rest s)) ∧
    (∀ k rest, s.inputs = .txFail k :: rest →
      exec (.brgRdReg f len) s = .next (finished (.brgRdReg f len) s.work s.buf.rx (bareResponse .stFail)
        (txFails [s.params.mkR, f.reg, s.params.mkP] k) rest s)) ∧
    (∀ rest, s.inputs = .txOk :: .rxFail :: rest →
      exec (.brgRdReg f len) s = .next (finished (.brgRdReg f len) s.work s.buf.rx (bareResponse .stFail)
        [Event.tx [s.params.mkR, f.reg, s.params.mkP], .txOk, .rx 1, .rxFail] rest s)) ∧
    (s.inputs = [] →
      exec (.brgRdReg f len) s = .next (waiting (.brgRdReg f len) (.txWait .bTx)
        (.tx [s.params.mkR, f.reg, s.params.mkP]) s.work s.buf.rx [Event.tx [s.params.mkR, f.reg, s.params.mkP]] s))

/-- 40_codec.md R115: the RW frame, then STATUS_NONE whatever the answer. -/
def Obligations.BrgWrRegBehaves : Prop :=
  ∀ (f : Fields) (len : Byte), (Instr.brgWrReg f len).opcode = 0x04 ∧
    ForgetBehaves (.brgWrReg f len) .bwTx (fun p => [p.mkW, f.reg, f.val, p.mkP])

/-- 40_codec.md R116: the RB frame, then STATUS_NONE whatever the answer. -/
def Obligations.BrgWrBulkBehaves : Prop :=
  ∀ (f : Fields) (d : List Byte), d.length ≤ 255 → (Instr.brgWrBulk f d).opcode = 0x05 ∧
    ForgetBehaves (.brgWrBulk f d) .bbTx (fun p => [p.mkW] ++ d ++ [p.mkP])

/-- 41_register_access.md R143. -/
def Obligations.RegRdByteBehaves : Prop :=
  ∀ (f : Fields) (len : Byte), (Instr.regRdByte f len).opcode = 0x12 ∧
    (∀ b0, ReadSucceeds (.regRdByte f len) f [b0] (b0.setWidth 32)) ∧ ReadFails (.regRdByte f len) f 1

/-- 41_register_access.md R144: low byte first in wire order. -/
def Obligations.RegRd16Behaves : Prop :=
  ∀ (f : Fields) (len : Byte), (Instr.regRd16 f len).opcode = 0x13 ∧
    (∀ b0 b1, ReadSucceeds (.regRd16 f len) f [b0, b1] (BitVec.ofNat 32 (b1.toNat * 256 + b0.toNat))) ∧
    ReadFails (.regRd16 f len) f 2

/-- 41_register_access.md R145: big-endian in wire order. -/
def Obligations.RegRd24beBehaves : Prop :=
  ∀ (f : Fields) (len : Byte), (Instr.regRd24be f len).opcode = 0x14 ∧
    (∀ b0 b1 b2, ReadSucceeds (.regRd24be f len) f [b0, b1, b2]
      (BitVec.ofNat 32 (b0.toNat * 65536 + b1.toNat * 256 + b2.toNat))) ∧
    ReadFails (.regRd24be f len) f 3

/-- 41_register_access.md R150 with both waits ending OK: the byte read, the mask and the new byte are latched, and the new
byte is written back. -/
def Obligations.RegWrFieldCompletes : Prop :=
  ∀ (f : Fields) (len old : Byte) (s : State) (ms ms' : List Miss) (rest : List Input),
    fieldDomain f.pos f.wid = true → s.phase = .idle →
    allMiss s.params ms = true → withinBound s.params ms.length = true →
    allMiss s.params ms' = true → withinBound s.params ms'.length = true →
    s.inputs = .txOk :: (waitInputs s.params ms ++ (.txOk :: .rxOk [old] :: .txOk :: (waitInputs s.params ms' ++ rest))) →
    exec (.regWrField f len) s = .next (finished (.regWrField f len)
      (polled (some s.params.okSentinel) ms'.length (fielded f old s.work)) (some [old])
      (bareResponse .stNone)
      (selectEvents s.params f ms ++ [Event.tx (frameIR s.params f.addr 1), .txOk, .rx 1, .rxOk [old],
        .tx (frameBack s.params f old), .txOk] ++ waitEvents s.params ms')
      rest s)

/-- 60_exceptions.md R202: a preliminary read that does not return OK is swallowed: STATUS_NONE, no write-back frame, and
the field latches keep their values. -/
def Obligations.RegWrFieldSwallowsAFailedRead : Prop :=
  ∀ (f : Fields) (len : Byte) (s : State), fieldDomain f.pos f.wid = true → s.phase = .idle →
    (∀ k rest, s.inputs = .txFail k :: rest →
      exec (.regWrField f len) s = .next (finished (.regWrField f len) s.work s.buf.rx (bareResponse .stNone)
        (txFails (frameIW s.params f.addr [f.reg]) k) rest s)) ∧
    (∀ ms rest, allMiss s.params ms = true → s.params.maxPolls = some ms.length → 0 < ms.length →
      s.inputs = .txOk :: (missInputs ms ++ rest) →
      exec (.regWrField f len) s = .next (finished (.regWrField f len)
        (polled (missStat s.work.stat ms) ms.length s.work) s.buf.rx
        (bareResponse .stNone)
        ([Event.tx (frameIW s.params f.addr [f.reg]), .txOk] ++ missEvents s.params ms) rest s)) ∧
    (∀ ms k rest, allMiss s.params ms = true → withinBound s.params ms.length = true →
      s.inputs = .txOk :: (waitInputs s.params ms ++ (.txFail k :: rest)) →
      exec (.regWrField f len) s = .next (finished (.regWrField f len)
        (polled (some s.params.okSentinel) ms.length s.work) s.buf.rx
        (bareResponse .stNone)
        (selectEvents s.params f ms ++ txFails (frameIR s.params f.addr 1) k) rest s)) ∧
    (∀ ms rest, allMiss s.params ms = true → withinBound s.params ms.length = true →
      s.inputs = .txOk :: (waitInputs s.params ms ++ (.txOk :: .rxFail :: rest)) →
      exec (.regWrField f len) s = .next (finished (.regWrField f len)
        (polled (some s.params.okSentinel) ms.length s.work) s.buf.rx
        (bareResponse .stNone)
        (selectEvents s.params f ms ++ [Event.tx (frameIR s.params f.addr 1), .txOk, .rx 1, .rxFail]) rest s))

/-- 60_exceptions.md R203, 41_register_access.md R150: a write-back that fails, or whose wait runs out, is not reported
either; a wait that never ends gives no response (R206). -/
def Obligations.RegWrFieldDoesNotReportTheWriteBack : Prop :=
  ∀ (f : Fields) (len old : Byte) (s : State) (ms : List Miss),
    fieldDomain f.pos f.wid = true → s.phase = .idle →
    allMiss s.params ms = true → withinBound s.params ms.length = true →
    (∀ k rest, s.inputs = .txOk :: (waitInputs s.params ms ++ (.txOk :: .rxOk [old] :: .txFail k :: rest)) →
      exec (.regWrField f len) s = .next (finished (.regWrField f len)
        (polled (some s.params.okSentinel) ms.length (fielded f old s.work)) (some [old])
        (bareResponse .stNone)
        (selectEvents s.params f ms ++ [Event.tx (frameIR s.params f.addr 1), .txOk, .rx 1, .rxOk [old]]
          ++ txFails (frameBack s.params f old) k) rest s)) ∧
    (∀ ms' rest, allMiss s.params ms' = true → s.params.maxPolls = some ms'.length → 0 < ms'.length →
      s.inputs = .txOk :: (waitInputs s.params ms ++ (.txOk :: .rxOk [old] :: .txOk :: (missInputs ms' ++ rest))) →
      exec (.regWrField f len) s = .next (finished (.regWrField f len)
        (polled (missStat (some s.params.okSentinel) ms') ms'.length (fielded f old s.work)) (some [old])
        (bareResponse .stNone)
        (selectEvents s.params f ms ++ [Event.tx (frameIR s.params f.addr 1), .txOk, .rx 1, .rxOk [old],
          .tx (frameBack s.params f old), .txOk]
          ++ missEvents s.params ms') rest s)) ∧
    (∀ ms', allMiss s.params ms' = true → withinBound s.params ms'.length = true →
      s.inputs = .txOk :: (waitInputs s.params ms ++ (.txOk :: .rxOk [old] :: .txOk :: missInputs ms')) →
      exec (.regWrField f len) s = .next (waiting (.regWrField f len) (.txWait (.pTx .f)) (.tx (framePoll s.params))
        (polled (missStat (some s.params.okSentinel) ms') ms'.length (fielded f old s.work)) (some [old])
        (selectEvents s.params f ms ++ [Event.tx (frameIR s.params f.addr 1), .txOk, .rx 1, .rxOk [old],
          .tx (frameBack s.params f old), .txOk]
          ++ missEvents s.params ms' ++ [Event.tx (framePoll s.params)]) s))

/-! ## Whole-machine rules about the commands -/

/-- 60_exceptions.md R200: from acceptance on, a command makes at most one response, with a status of its row of the table
and fields as R28 says; and unless a reset comes, it is back in IDLE exactly when it has made one, which `RSP` then
holds. -/
def Obligations.ResponsesAsTheStatusTable : Prop :=
  ∀ (i : Instr) (s t : State), s.phase = .idle → exec i s = .next t →
    ∃ events, t.trace = s.trace ++ events ∧ (responsesIn events).length ≤ 1 ∧
      (∀ r ∈ responsesIn events, mayReport s.params i r.status = true ∧ r.wf = true) ∧
      (noReset s.inputs = true →
        (t.phase = .idle ↔ (responsesIn events).length = 1) ∧ (∀ r ∈ responsesIn events, t.rsp = some r))

/-- The frame of the commands: what a command accepted in IDLE leaves unchanged, unless a reset comes. Every command leaves
the parameters, the records presented before and the trace so far; the operand latches and `L.TXBUF` hold its record;
only REG_WR_FIELD writes `L.OLD`, `L.MASK`, `L.NEW`; only a command that polls writes `L.STAT` and `L.POLLS`; only a
command that reads data writes `L.RXBUF` (10_state.md R21, R22, R26). The clause on `drawn` is about the model's own field
(log 2). -/
def Obligations.FrameOfTheCommands : Prop :=
  ∀ (i : Instr) (s t : State), s.phase = .idle → noReset s.inputs = true → exec i s = .next t →
    t.params = s.params ∧ t.drawn = s.drawn ∧ s.port <+: t.port ∧ s.trace <+: t.trace ∧
    t.ops = latchesOf i ∧ t.buf.tx = i.data? ∧
    (match i with
      | .i2cWrite _ _ | .regWrByte _ _ | .regWrBytes _ _ =>
        t.work.old = s.work.old ∧ t.work.mask = s.work.mask ∧ t.work.new = s.work.new ∧ t.buf.rx = s.buf.rx
      | .i2cRead _ _ | .brgRdReg _ _ => t.work = s.work
      | .brgWrReg _ _ | .brgWrBulk _ _ => t.work = s.work ∧ t.buf.rx = s.buf.rx
      | .regRdByte _ _ | .regRd16 _ _ | .regRd24be _ _ =>
        t.work.old = s.work.old ∧ t.work.mask = s.work.mask ∧ t.work.new = s.work.new
      | .regWrField _ _ => True)

/-- 30_encoding.md R99: the fields a command ignores have no effect at the ports. -/
def Obligations.IgnoredFieldsHaveNoEffect : Prop :=
  ∀ (i j : Instr) (s t : State), eraseIgnored i = eraseIgnored j → s.phase = .idle → exec i s = .next t →
    ∃ u, exec j s = .next u ∧ PortsAgree s t u ∧ t.phase = u.phase ∧ t.work = u.work ∧ t.buf = u.buf

/-- 30_encoding.md R103 (a), (b), (c): REG_WR_BYTE and REG_WR_BYTES look like the I2C_WRITE of their payload at the ports,
whatever the environment does, and BRG_WR_REG like the BRG_WR_BULK of its two bytes. -/
def Obligations.EquivalentCommandsAgreeAtThePorts : Prop :=
  ∀ (f : Fields) (len : Byte) (d : List Byte) (s t : State), s.phase = .idle →
    (exec (.regWrByte f len) s = .next t →
      ∃ u, exec (.i2cWrite f [f.reg, f.val]) s = .next u ∧ PortsAgree s t u) ∧
    (exec (.regWrBytes f d) s = .next t → ∃ u, exec (.i2cWrite f d) s = .next u ∧ PortsAgree s t u) ∧
    (exec (.brgWrReg f len) s = .next t →
      ∃ u, exec (.brgWrBulk f [f.reg, f.val]) s = .next u ∧ PortsAgree s t u)

/-- 30_encoding.md R103 (d), 41_register_access.md R140: at the transport REG_RD_BYTE is I2C_WRITE of the register number and
then, only if that reported STATUS_OK, I2C_READ of one byte, whatever the environment answers; it reports the status and
the data of the part that ended it. -/
def Obligations.RegRdByteIsSelectThenRead : Prop :=
  ∀ (f : Fields) (len : Byte) (s u : State), s.phase = .idle → noReset s.inputs = true →
    exec (.i2cWrite f [f.reg]) s = .next u →
    ∃ t, exec (.regRdByte f len) s = .next t ∧
      (u.phase = .idle ∧ u.rsp = some (bareResponse .stOk) →
        ∃ v, exec (.i2cRead f 1) u = .next v ∧
          transportOf (t.trace.drop s.trace.length) = transportOf (v.trace.drop s.trace.length) ∧
          t.inputs = v.inputs ∧ t.request = v.request ∧ (t.phase = .idle ↔ v.phase = .idle) ∧
          (t.phase = .idle → t.rsp.map (fun r => (r.status, r.data)) = v.rsp.map (fun r => (r.status, r.data)))) ∧
      (¬(u.phase = .idle ∧ u.rsp = some (bareResponse .stOk)) →
        transportOf (t.trace.drop s.trace.length) = transportOf (u.trace.drop s.trace.length) ∧
        t.inputs = u.inputs ∧ t.request = u.request ∧ (t.phase = .idle ↔ u.phase = .idle) ∧
        (t.phase = .idle → t.rsp = u.rsp))

/-- 60_exceptions.md R206: with `MAX_POLLS = UNBOUNDED`, a command whose poll never reads the sentinel makes no response,
however many polls there are: it stands at its next poll, counting, and the command port is not ready. -/
def Obligations.UnboundedPollingIsAHang : Prop :=
  ∀ (i : Instr) (s : State) (ms : List Miss), polls i = true → inDomain i = true → s.phase = .idle →
    s.params.maxPolls = none → allMiss s.params ms = true → s.inputs = .txOk :: missInputs ms →
    ∃ t events, exec i s = .next t ∧ t.phase.isPoll = true ∧ t.phase ≠ .idle ∧
      t.request = some (.tx (framePoll s.params)) ∧ t.work.polls = some ms.length ∧ t.rsp = s.rsp ∧ t.inputs = [] ∧
      t.trace = s.trace ++ events ∧ responsesIn events = []

/-- 40_codec.md R131, 60_exceptions.md R206: while the transport does not answer, nothing of the BCC changes. -/
def Obligations.SilentTransportChangesNothing : Prop :=
  ∀ (i : Instr) (s : State), s.phase ≠ .idle → inFlight s = some i → inDomain i = true →
    (∀ x ∈ s.inputs, x = .silent ∨ x = .late) → exec i s = .next { s with inputs := [] }

/-- 10_state.md R24: the answers may come in one step or over several; a command that waits goes on from where it stands,
to the same end. That one step runs as far as the known inputs reach is the model's choice (log 4); R24 does not say it. -/
def Obligations.ResumingIsOneRun : Prop :=
  ∀ (i : Instr) (s t : State) (later : List Input), i.wellFormed = true → s.phase = .idle →
    exec i s = .next t → t.phase ≠ .idle →
    exec i { t with inputs := later } = exec i { s with inputs := s.inputs ++ later }

/-- 10_state.md R25: while a command is in flight another one is held, with no effect; and a step that goes on with the
command in flight keeps the records at the port, in order, and accepts none of them. -/
def Obligations.CommandsAreHeldWhileBusy : Prop :=
  ∀ (s : State), s.phase ≠ .idle →
    (∀ j : Instr, inDomain j = true → inFlight s ≠ some j → exec j s = .next s) ∧
    (∀ t, step s = .next t → s.port <+: t.port ∧
      ∃ events, t.trace = s.trace ++ events ∧ ∀ r, Event.accept r ∉ events)

/-! ## The step, illegal codes, reset -/

/-- 10_state.md R25: in IDLE the record at the port is decoded and its command runs, the record taken from the port, before
any input is taken, a reset among them (that order is the model's choice, log 26); one whose length operand is above the configured bound is refused (log 19: the model's choice, and never so with the values of
00_scope.md R9); in flight, the step runs the command in the latches, with one free input where the state lists none
(log 2). -/
def Obligations.StepRunsTheDecodedCommand : Prop :=
  ∀ (s : State) (i : Instr),
    (s.phase = .idle → ∀ r rest, s.port = r :: rest → decode r = .ok i →
      (i.withinBounds s.params = true → step s = exec i { s with port := rest }) ∧
      (i.withinBounds s.params = false → step s = .refused .lengthBound)) ∧
    (i.wellFormed = true → i.withinBounds Config.params = true) ∧
    (s.phase ≠ .idle → inFlight s = some i → step s = exec i (topUp s))

/-- 60_exceptions.md R204, 30_encoding.md R98: a record whose code is not in R89's table is accepted, its fields are
latched, and it responds STATUS_ILLEGAL with no transport event. That the waiting record is taken before any listed input,
a reset among them, is the model's choice (log 26), and so are the list of inputs (log 2), the list of waiting records
(log 9) and the pending mark (log 14). -/
def Obligations.UnassignedCodeIsIllegal : Prop :=
  ∀ (s : State) (op len : Byte) (f : Fields) (rest : List (List Byte)), s.phase = .idle →
    op ∉ [0x01, 0x02, 0x03, 0x04, 0x05, 0x10, 0x11, 0x12, 0x13, 0x14, (0x15 : Byte)] →
    s.port = [op, f.addr, f.reg, f.val, f.pos, f.wid, len] :: rest →
    step s = .next { s with
      port := rest
      request := none
      ops := ⟨some op, some f.addr, some f.reg, some f.val, some f.pos, some f.wid, some len⟩
      buf := ⟨none, s.buf.rx⟩
      rsp := some ⟨.stIllegal, none, none, none⟩
      rspPending := true
      trace := s.trace ++ [.accept [op, f.addr, f.reg, f.val, f.pos, f.wid, len],
        .response ⟨.stIllegal, none, none, none⟩] }

/-- What the host must not present (60_exceptions.md R220) is refused by name (log 11): fewer than seven bytes, a data field
that is not LEN bytes long, or a data field where R90 gives none. -/
def Obligations.MalformedRecordIsRefused : Prop :=
  ∀ (s : State) (r : List Byte) (rest : List (List Byte)), s.phase = .idle → s.port = r :: rest →
    (step s = .refused .malformedRecord ↔
      (r.length < 7 ∨
        (r.head? ∈ [some 0x01, some 0x05, some (0x11 : Byte)] ∧ r.length ≠ 7 + (r.getD 6 0).toNat) ∨
        (r.head? ∉ [some 0x01, some 0x05, some (0x11 : Byte)] ∧ 7 < r.length)))

/-- 10_state.md R32: what reset leaves; the parameters hold their configured values. -/
def Obligations.ResetStateAsTheSpecSays : Prop :=
  holdsResetValues State.reset ∧ State.reset.params = Config.params ∧
  (∀ (sent : Nat) (s : State), holdsResetValues (resetState sent s) ∧ (resetState sent s).params = s.params)

/-- 70_reset_and_hazards.md R231: a reset that comes while a command waits abandons it with no response; any part of an
outstanding frame may have been delivered; answers that come late change nothing. -/
def Obligations.ResetAbandonsTheCommand : Prop :=
  ∀ (i : Instr) (s : State) (sent : Nat) (rest : List Input), s.phase ≠ .idle → inFlight s = some i →
    inDomain i = true → s.inputs = .reset sent :: rest →
    exec i s = .next (afterReset sent rest s) ∧
    (∀ t : State, t.phase = .idle → t.port = [] → t.inputs = .late :: rest → step t = .next { t with inputs := rest })

/-- 70_reset_and_hazards.md R230: a reset that comes in IDLE, with no record at the port, gives the state of R32 too: no
latch, buffer or response field holds a value afterwards, whatever it held. That the host's records and the inputs to
come stay is the model's choice (log 9), and so is that a record waiting at the port is accepted first (log 26). -/
def Obligations.ResetInIdleGivesTheResetState : Prop :=
  ∀ (s : State) (sent : Nat) (rest : List Input), s.phase = .idle → s.port = [] → s.inputs = .reset sent :: rest →
    step s = .next (afterReset sent rest s) ∧ holdsResetValues (afterReset sent rest s) ∧
      (afterReset sent rest s).params = s.params

/-- 10_state.md R25, R27, 60_exceptions.md R220: a record that the host presents and its taking of the response are no event
of the command in flight; in IDLE they change the command port and the pending mark, nothing else. The model's choices: the list of inputs and of
waiting records (log 2, 9), the pending mark (log 14), and that `RSP` keeps its value when the host takes it (log 15). -/
def Obligations.HostInputsArePassedOn : Prop :=
  ∀ (s : State) (rest : List Input),
    (∀ r, s.inputs = .command r :: rest →
      (∀ i, s.phase ≠ .idle → inFlight s = some i → inDomain i = true →
        exec i s = exec i { s with port := s.port ++ [r], inputs := rest }) ∧
      (s.phase = .idle → s.port = [] → step s = .next { s with port := [r], inputs := rest })) ∧
    (s.inputs = .take :: rest →
      (∀ i, s.phase ≠ .idle → inFlight s = some i → inDomain i = true →
        exec i s = exec i { s with rspPending := false, inputs := rest }) ∧
      (s.phase = .idle → s.port = [] → step s = .next { s with rspPending := false, inputs := rest }))

/-- The response register is written by a response and by reset only. 10_state.md R27 says so of `RSP.STATUS`; that the whole
of `RSP` also stays when the host takes the response is the model's choice (log 15), and so is the pending mark, of which
it says that no response becomes pending meanwhile (log 14). -/
def Obligations.OnlyResponsesWriteRsp : Prop :=
  ∀ s t : State, step s = .next t →
    ∃ events, t.trace = s.trace ++ events ∧
      (responsesIn events = [] → (∀ d, Event.reset d ∉ events) →
        t.rsp = s.rsp ∧ (t.rspPending = true → s.rspPending = true))

/-- Where a state lists no input and the step needs one, the next input is the free value `Config.world`, whatever it is:
the step is that of the state which lists it (log 2: the model's choice). -/
def Obligations.FreeInputIsTheNextInput : Prop :=
  ∀ s : State, s.inputs = [] → (s.phase ≠ .idle ∨ s.port = []) →
    step s = step { s with inputs := [Config.world s.drawn], drawn := s.drawn + 1 }

/-- 30_encoding.md R93: the five codes, and that 5 to 7 are reserved: seeing one is a fault. -/
def Obligations.StatusCodesAsR93 : Prop :=
  Status.code .stOk = 0 ∧ Status.code .stFail = 1 ∧ Status.code .stNone = 2 ∧ Status.code .stIllegal = 3 ∧
  Status.code .stTimeout = 4 ∧
  (∀ st : Status, Status.ofCode st.code = .ok st) ∧
  (∀ c : BitVec 3, Status.ofCode c = .error .reservedStatus ↔ 5 ≤ c.toNat)

/-- 10_state.md R28, R31: a response field that holds no value is never read as a zero; one that holds a value is read as
it is. -/
def Obligations.MissingResponseFieldIsAFault : Prop :=
  ∀ s : State,
    (s.rsp = none → readStatus s = .error (.noValue .rsp)) ∧
    (∀ r, s.rsp = some r → readStatus s = .ok r.status.code) ∧
    (readValue s = .error (.noValue .rspValue) ↔ s.rsp.bind (·.value) = none) ∧
    (∀ v, readValue s = .ok v ↔ s.rsp.bind (·.value) = some v) ∧
    (readData s = .error (.noValue .rspData) ↔ s.rsp.bind (·.data) = none) ∧
    (∀ d, readData s = .ok d ↔ s.rsp.bind (·.data) = some d) ∧
    (readDlen s = .error (.noValue .rspDlen) ↔ s.rsp.bind (·.dlen) = none) ∧
    (∀ n, readDlen s = .ok n ↔ s.rsp.bind (·.dlen) = some n)

/-- 60_exceptions.md R221: where a command accepted from the empty port is the last of its sequence, the run has ended exactly
when the sequencer is back in IDLE; a command in flight that a reset abandons has made no response, so its run has not
ended (70_reset_and_hazards.md R231). -/
def Obligations.RunHasEndedWhenItsLastCommandResponded : Prop :=
  ∀ (i : Instr) (s t : State), s.port = [] → noCommand s.inputs = true → exec i s = .next t →
    (s.phase = .idle → noReset s.inputs = true → (t.ended = true ↔ t.phase = .idle)) ∧
    (s.phase = .idle → t.ended = true → ∃ r, responsesIn (t.trace.drop s.trace.length) = [r] ∧ t.rsp = some r) ∧
    (s.phase ≠ .idle → inFlight s = some i → s.Consistent → s.TraceInOrder →
      (∀ sent rest, s.inputs = .reset sent :: rest → t.ended = false))

/-! ## Invariants of every step -/

/-- The state after reset is consistent, its trace is in order and its frames are known. -/
def Obligations.ResetIsConsistent : Prop :=
  State.reset.Consistent ∧ State.reset.TraceInOrder ∧ State.reset.FramesKnown

/-- 10_state.md R24, R28, R32: every step keeps the state consistent: in IDLE no request is outstanding, in flight the
outstanding request is the one the spec gives the command in the latches at that step. -/
def Obligations.StepKeepsConsistent : Prop :=
  ∀ s t : State, s.Consistent → step s = .next t → t.Consistent

/-- 10_state.md R31: "No rule of this spec reads a latch before the rule of the same command writes it": in a consistent
state a step never faults, and it refuses only a record that is none, REG_WR_FIELD outside its domain, and a length above the
configured bound (log 19). -/
def Obligations.ConsistentStateNeverFaults : Prop :=
  ∀ s : State, s.Consistent →
    (∃ t, step s = .next t) ∨ step s = .refused .malformedRecord ∨ step s = .refused .fieldDomain ∨
      step s = .refused .lengthBound

/-- 20_memory.md R60, R61: every step keeps the port trace in order: one command at a time, each transport request answered,
in its shape, before the next is issued. -/
def Obligations.StepKeepsTheTraceInOrder : Prop :=
  ∀ s t : State, s.Consistent → s.TraceInOrder → step s = .next t → t.TraceInOrder

/-- 30_encoding.md R100: every step keeps it that only the frames of R81 to R86 have been sent. -/
def Obligations.StepSendsOnlyKnownFrames : Prop :=
  ∀ s t : State, s.Consistent → s.FramesKnown → step s = .next t → t.FramesKnown

/-- 10_state.md R29, 20_memory.md R57: no step writes a parameter, and no step drops or rewrites an event. The clause on
`drawn` is about the model's own field, the count of free inputs taken (log 2): the model's choice, and no rule's. -/
def Obligations.StepKeepsParametersAndTrace : Prop :=
  ∀ s t : State, step s = .next t → t.params = s.params ∧ s.trace <+: t.trace ∧ s.drawn ≤ t.drawn
end

