-- ==== Sys2Proof/Laws/State.lean ====
section
/-!
SUPPORT. Laws/State.lean: one lemma per field of State per update of Ops.lean and Poller.lean, true by rfl, so that no
proof unfolds a record update.
-/
namespace Sys2Proof.Machine

section
variable (op : Byte) (f : Fields) (len : Byte) (d : Option (List Byte)) (s : State)

@[simp] theorem latchRecord_phase : (latchRecord op f len d s).phase = s.phase := rfl
@[simp] theorem latchRecord_ops : (latchRecord op f len d s).ops = ⟨some op, some f.addr, some f.reg, some f.val, some f.pos, some f.wid, some len⟩ := rfl
@[simp] theorem latchRecord_work : (latchRecord op f len d s).work = s.work := rfl
@[simp] theorem latchRecord_buf : (latchRecord op f len d s).buf = ⟨d, s.buf.rx⟩ := rfl
@[simp] theorem latchRecord_rsp : (latchRecord op f len d s).rsp = s.rsp := rfl
@[simp] theorem latchRecord_rspPending : (latchRecord op f len d s).rspPending = s.rspPending := rfl
@[simp] theorem latchRecord_request : (latchRecord op f len d s).request = s.request := rfl
@[simp] theorem latchRecord_params : (latchRecord op f len d s).params = s.params := rfl
@[simp] theorem latchRecord_port : (latchRecord op f len d s).port = s.port := rfl
@[simp] theorem latchRecord_inputs : (latchRecord op f len d s).inputs = s.inputs := rfl
@[simp] theorem latchRecord_drawn : (latchRecord op f len d s).drawn = s.drawn := rfl
@[simp] theorem latchRecord_trace : (latchRecord op f len d s).trace = s.trace ++ [.accept (recordBytes op f len (d.getD []))] := rfl

end

section
variable (k : Label) (frame : List Byte) (s : State)

@[simp] theorem issueTx_phase : (issueTx k frame s).phase = .txWait k := rfl
@[simp] theorem issueTx_ops : (issueTx k frame s).ops = s.ops := rfl
@[simp] theorem issueTx_work : (issueTx k frame s).work = s.work := rfl
@[simp] theorem issueTx_buf : (issueTx k frame s).buf = s.buf := rfl
@[simp] theorem issueTx_rsp : (issueTx k frame s).rsp = s.rsp := rfl
@[simp] theorem issueTx_rspPending : (issueTx k frame s).rspPending = s.rspPending := rfl
@[simp] theorem issueTx_request : (issueTx k frame s).request = some (.tx frame) := rfl
@[simp] theorem issueTx_params : (issueTx k frame s).params = s.params := rfl
@[simp] theorem issueTx_port : (issueTx k frame s).port = s.port := rfl
@[simp] theorem issueTx_inputs : (issueTx k frame s).inputs = s.inputs := rfl
@[simp] theorem issueTx_drawn : (issueTx k frame s).drawn = s.drawn := rfl
@[simp] theorem issueTx_trace : (issueTx k frame s).trace = s.trace ++ [.tx frame] := rfl

end

section
variable (k : Label) (n : Nat) (s : State)

@[simp] theorem issueRx_phase : (issueRx k n s).phase = .rxWait k := rfl
@[simp] theorem issueRx_ops : (issueRx k n s).ops = s.ops := rfl
@[simp] theorem issueRx_work : (issueRx k n s).work = s.work := rfl
@[simp] theorem issueRx_buf : (issueRx k n s).buf = s.buf := rfl
@[simp] theorem issueRx_rsp : (issueRx k n s).rsp = s.rsp := rfl
@[simp] theorem issueRx_rspPending : (issueRx k n s).rspPending = s.rspPending := rfl
@[simp] theorem issueRx_request : (issueRx k n s).request = some (.rx n) := rfl
@[simp] theorem issueRx_params : (issueRx k n s).params = s.params := rfl
@[simp] theorem issueRx_port : (issueRx k n s).port = s.port := rfl
@[simp] theorem issueRx_inputs : (issueRx k n s).inputs = s.inputs := rfl
@[simp] theorem issueRx_drawn : (issueRx k n s).drawn = s.drawn := rfl
@[simp] theorem issueRx_trace : (issueRx k n s).trace = s.trace ++ [.rx n] := rfl

end

section
variable (st : Status) (v : Option Word32) (d : Option (List Byte)) (s : State)

@[simp] theorem respond_phase : (respond st v d s).phase = .idle := rfl
@[simp] theorem respond_ops : (respond st v d s).ops = s.ops := rfl
@[simp] theorem respond_work : (respond st v d s).work = s.work := rfl
@[simp] theorem respond_buf : (respond st v d s).buf = s.buf := rfl
@[simp] theorem respond_rsp : (respond st v d s).rsp = some (mkResponse st v d) := rfl
@[simp] theorem respond_rspPending : (respond st v d s).rspPending = true := rfl
@[simp] theorem respond_request : (respond st v d s).request = none := rfl
@[simp] theorem respond_params : (respond st v d s).params = s.params := rfl
@[simp] theorem respond_port : (respond st v d s).port = s.port := rfl
@[simp] theorem respond_inputs : (respond st v d s).inputs = s.inputs := rfl
@[simp] theorem respond_drawn : (respond st v d s).drawn = s.drawn := rfl
@[simp] theorem respond_trace : (respond st v d s).trace = s.trace ++ [.response (mkResponse st v d)] := rfl

end

section
variable (v : Byte) (s : State)

@[simp] theorem setStat_phase : (setStat v s).phase = s.phase := rfl
@[simp] theorem setStat_ops : (setStat v s).ops = s.ops := rfl
@[simp] theorem setStat_work : (setStat v s).work = ⟨some v, s.work.polls, s.work.old, s.work.mask, s.work.new⟩ := rfl
@[simp] theorem setStat_buf : (setStat v s).buf = s.buf := rfl
@[simp] theorem setStat_rsp : (setStat v s).rsp = s.rsp := rfl
@[simp] theorem setStat_rspPending : (setStat v s).rspPending = s.rspPending := rfl
@[simp] theorem setStat_request : (setStat v s).request = s.request := rfl
@[simp] theorem setStat_params : (setStat v s).params = s.params := rfl
@[simp] theorem setStat_port : (setStat v s).port = s.port := rfl
@[simp] theorem setStat_inputs : (setStat v s).inputs = s.inputs := rfl
@[simp] theorem setStat_drawn : (setStat v s).drawn = s.drawn := rfl
@[simp] theorem setStat_trace : (setStat v s).trace = s.trace := rfl

end

section
variable (n : Nat) (s : State)

@[simp] theorem setPolls_phase : (setPolls n s).phase = s.phase := rfl
@[simp] theorem setPolls_ops : (setPolls n s).ops = s.ops := rfl
@[simp] theorem setPolls_work : (setPolls n s).work = ⟨s.work.stat, some n, s.work.old, s.work.mask, s.work.new⟩ := rfl
@[simp] theorem setPolls_buf : (setPolls n s).buf = s.buf := rfl
@[simp] theorem setPolls_rsp : (setPolls n s).rsp = s.rsp := rfl
@[simp] theorem setPolls_rspPending : (setPolls n s).rspPending = s.rspPending := rfl
@[simp] theorem setPolls_request : (setPolls n s).request = s.request := rfl
@[simp] theorem setPolls_params : (setPolls n s).params = s.params := rfl
@[simp] theorem setPolls_port : (setPolls n s).port = s.port := rfl
@[simp] theorem setPolls_inputs : (setPolls n s).inputs = s.inputs := rfl
@[simp] theorem setPolls_drawn : (setPolls n s).drawn = s.drawn := rfl
@[simp] theorem setPolls_trace : (setPolls n s).trace = s.trace := rfl

end

section
variable (bytes : List Byte) (s : State)

@[simp] theorem setRxbuf_phase : (setRxbuf bytes s).phase = s.phase := rfl
@[simp] theorem setRxbuf_ops : (setRxbuf bytes s).ops = s.ops := rfl
@[simp] theorem setRxbuf_work : (setRxbuf bytes s).work = s.work := rfl
@[simp] theorem setRxbuf_buf : (setRxbuf bytes s).buf = ⟨s.buf.tx, some bytes⟩ := rfl
@[simp] theorem setRxbuf_rsp : (setRxbuf bytes s).rsp = s.rsp := rfl
@[simp] theorem setRxbuf_rspPending : (setRxbuf bytes s).rspPending = s.rspPending := rfl
@[simp] theorem setRxbuf_request : (setRxbuf bytes s).request = s.request := rfl
@[simp] theorem setRxbuf_params : (setRxbuf bytes s).params = s.params := rfl
@[simp] theorem setRxbuf_port : (setRxbuf bytes s).port = s.port := rfl
@[simp] theorem setRxbuf_inputs : (setRxbuf bytes s).inputs = s.inputs := rfl
@[simp] theorem setRxbuf_drawn : (setRxbuf bytes s).drawn = s.drawn := rfl
@[simp] theorem setRxbuf_trace : (setRxbuf bytes s).trace = s.trace := rfl

end

section
variable (old mask new : Byte) (s : State)

@[simp] theorem setField_phase : (setField old mask new s).phase = s.phase := rfl
@[simp] theorem setField_ops : (setField old mask new s).ops = s.ops := rfl
@[simp] theorem setField_work : (setField old mask new s).work = ⟨s.work.stat, s.work.polls, some old, some mask, some new⟩ := rfl
@[simp] theorem setField_buf : (setField old mask new s).buf = s.buf := rfl
@[simp] theorem setField_rsp : (setField old mask new s).rsp = s.rsp := rfl
@[simp] theorem setField_rspPending : (setField old mask new s).rspPending = s.rspPending := rfl
@[simp] theorem setField_request : (setField old mask new s).request = s.request := rfl
@[simp] theorem setField_params : (setField old mask new s).params = s.params := rfl
@[simp] theorem setField_port : (setField old mask new s).port = s.port := rfl
@[simp] theorem setField_inputs : (setField old mask new s).inputs = s.inputs := rfl
@[simp] theorem setField_drawn : (setField old mask new s).drawn = s.drawn := rfl
@[simp] theorem setField_trace : (setField old mask new s).trace = s.trace := rfl

end

section
variable (sent : Nat) (s : State)

@[simp] theorem resetState_phase : (resetState sent s).phase = .idle := rfl
@[simp] theorem resetState_ops : (resetState sent s).ops = .empty := rfl
@[simp] theorem resetState_work : (resetState sent s).work = .empty := rfl
@[simp] theorem resetState_buf : (resetState sent s).buf = ⟨none, none⟩ := rfl
@[simp] theorem resetState_rsp : (resetState sent s).rsp = none := rfl
@[simp] theorem resetState_rspPending : (resetState sent s).rspPending = false := rfl
@[simp] theorem resetState_request : (resetState sent s).request = none := rfl
@[simp] theorem resetState_params : (resetState sent s).params = s.params := rfl
@[simp] theorem resetState_port : (resetState sent s).port = s.port := rfl
@[simp] theorem resetState_inputs : (resetState sent s).inputs = s.inputs := rfl
@[simp] theorem resetState_drawn : (resetState sent s).drawn = s.drawn := rfl
@[simp] theorem resetState_trace : (resetState sent s).trace = s.trace ++ [.reset (deliveredPart s.request sent)] := rfl

end

section
variable (r : Request) (i : Input) (s : State)

@[simp] theorem takeAnswer_phase : (takeAnswer r i s).phase = s.phase := rfl
@[simp] theorem takeAnswer_ops : (takeAnswer r i s).ops = s.ops := rfl
@[simp] theorem takeAnswer_work : (takeAnswer r i s).work = s.work := rfl
@[simp] theorem takeAnswer_buf : (takeAnswer r i s).buf = s.buf := rfl
@[simp] theorem takeAnswer_rsp : (takeAnswer r i s).rsp = s.rsp := rfl
@[simp] theorem takeAnswer_rspPending : (takeAnswer r i s).rspPending = s.rspPending := rfl
@[simp] theorem takeAnswer_request : (takeAnswer r i s).request = none := rfl
@[simp] theorem takeAnswer_params : (takeAnswer r i s).params = s.params := rfl
@[simp] theorem takeAnswer_port : (takeAnswer r i s).port = s.port := rfl
@[simp] theorem takeAnswer_inputs : (takeAnswer r i s).inputs = s.inputs := rfl
@[simp] theorem takeAnswer_drawn : (takeAnswer r i s).drawn = s.drawn := rfl
@[simp] theorem takeAnswer_trace : (takeAnswer r i s).trace = s.trace ++ [answerEvent r i] := rfl

end

section
variable (site : Site) (s : State)

@[simp] theorem issuePoll_phase : (issuePoll site s).phase = .txWait (.pTx site) := rfl
@[simp] theorem issuePoll_ops : (issuePoll site s).ops = s.ops := rfl
@[simp] theorem issuePoll_work : (issuePoll site s).work = s.work := rfl
@[simp] theorem issuePoll_buf : (issuePoll site s).buf = s.buf := rfl
@[simp] theorem issuePoll_rsp : (issuePoll site s).rsp = s.rsp := rfl
@[simp] theorem issuePoll_rspPending : (issuePoll site s).rspPending = s.rspPending := rfl
@[simp] theorem issuePoll_request : (issuePoll site s).request = some (.tx (pollFrame s.params)) := rfl
@[simp] theorem issuePoll_params : (issuePoll site s).params = s.params := rfl
@[simp] theorem issuePoll_port : (issuePoll site s).port = s.port := rfl
@[simp] theorem issuePoll_inputs : (issuePoll site s).inputs = s.inputs := rfl
@[simp] theorem issuePoll_drawn : (issuePoll site s).drawn = s.drawn := rfl
@[simp] theorem issuePoll_trace : (issuePoll site s).trace = s.trace ++ [.tx (pollFrame s.params)] := rfl

end

section
variable (site : Site) (s : State)

@[simp] theorem startWait_phase : (startWait site s).phase = .txWait (.pTx site) := rfl
@[simp] theorem startWait_ops : (startWait site s).ops = s.ops := rfl
@[simp] theorem startWait_work : (startWait site s).work = ⟨s.work.stat, some 0, s.work.old, s.work.mask, s.work.new⟩ := rfl
@[simp] theorem startWait_buf : (startWait site s).buf = s.buf := rfl
@[simp] theorem startWait_rsp : (startWait site s).rsp = s.rsp := rfl
@[simp] theorem startWait_rspPending : (startWait site s).rspPending = s.rspPending := rfl
@[simp] theorem startWait_request : (startWait site s).request = some (.tx (pollFrame s.params)) := rfl
@[simp] theorem startWait_params : (startWait site s).params = s.params := rfl
@[simp] theorem startWait_port : (startWait site s).port = s.port := rfl
@[simp] theorem startWait_inputs : (startWait site s).inputs = s.inputs := rfl
@[simp] theorem startWait_drawn : (startWait site s).drawn = s.drawn := rfl
@[simp] theorem startWait_trace : (startWait site s).trace = s.trace ++ [.tx (pollFrame s.params)] := rfl

end

end Sys2Proof.Machine
end

