-- ==== Sys2Proof/Laws/Ops.lean ====
section
/-!
SUPPORT. Laws/Ops.lean: what sequencing, reading and driving can do, said once.
-/
namespace Sys2Proof.Machine

@[simp] theorem Out.andThen_next (s : State) (k : State → Out) : Out.andThen (.next s) k = k s := rfl
@[simp] theorem Out.andThen_fault (r : Fault) (k : State → Out) : Out.andThen (.fault r) k = .fault r := rfl
@[simp] theorem Out.andThen_refused (r : Refusal) (k : State → Out) : Out.andThen (.refused r) k = .refused r := rfl
@[simp] theorem readHeld_some {α : Type} (w : Holder) (a : α) (k : α → Out) : readHeld w (some a) k = k a := rfl

theorem Out.andThen_assoc (o : Out) (k l : State → Out) :
    (o.andThen k).andThen l = o.andThen (fun s => (k s).andThen l) := by
  cases o <;> rfl

@[simp] theorem drive_nil (h : Answer → State → Out) (s : State) : drive h [] s = .next { s with inputs := [] } := rfl

theorem drive_idle (h : Answer → State → Out) (is : List Input) (s : State) (hs : s.phase = .idle) :
    drive h is s = .next { s with inputs := is } := by
  cases is <;> simp [drive, hs]

theorem drive_cons (h : Answer → State → Out) (i : Input) (is : List Input) (s : State) (hs : s.phase ≠ .idle) :
    drive h (i :: is) s = (deliver h i s).andThen (drive h is) := by
  simp [drive, hs]


end Sys2Proof.Machine
end

