-- ==== Sys2Proof/Laws/Waits.lean ====
section
/-!
SUPPORT. Laws/Waits.lean: the whole of `WaitOK` (40_codec.md R111) as three lemmas: not-OK polls within the bound, the poll
that reads the sentinel, and the bound reached.
-/
namespace Sys2Proof.Machine

/-- The answer functions of a command hand a wait's answers to `pollAnswer`. -/
def HandlesWait (h : Answer → State → Out) (site : Site) (k : WaitResult → State → Out) : Prop :=
  ∀ a t, (t.phase = .txWait (.pTx site) ∨ t.phase = .rxWait (.pRx site)) → h a t = pollAnswer site k a t

def missed (ms : List Miss) (s : State) : State :=
  { s with
    work := ⟨missStat s.work.stat ms, s.work.polls.map (· + ms.length), s.work.old, s.work.mask, s.work.new⟩
    trace := s.trace ++ missEvents s.params ms }

theorem missed_nil (s : State) : missed [] s = s := by
  cases s with | mk ph ops work buf rsp pend req par port inp dr tr =>
  cases work with | mk a b c d e =>
  cases b <;> simp [missed, missStat, missEvents]

/-- `s` right after the last answer of a not-OK poll, before the wait decides whether to go on. -/
def missEnd (site : Site) (m : Miss) (s : State) : State :=
  { missed [m] s with
    phase := match m with
      | .txFail _ => .txWait (.pTx site)
      | _ => .rxWait (.pRx site)
    request := none }

theorem drive_miss (h : Answer → State → Out) (site : Site) (k : WaitResult → State → Out) (hh : HandlesWait h site k)
    (m : Miss) (rest : List Input) (s : State) (n : Nat) (hn : s.work.polls = some n) (hm : m.isMiss s.params = true) :
    drive h (m.inputs ++ rest) (issuePoll site s) =
      if pollsExhausted s.params (n + 1) then (k .timeout (missEnd site m s)).andThen (drive h rest)
      else drive h rest (issuePoll site (missed [m] s)) := by
  have hTx : ∀ a t, t.phase = .txWait (.pTx site) → h a t = pollAnswer site k a t := fun a t ht => hh a t (.inl ht)
  have hRx : ∀ a t, t.phase = .rxWait (.pRx site) → h a t = pollAnswer site k a t := fun a t ht => hh a t (.inr ht)
  cases m with
  | txFail sent =>
    simp only [Miss.inputs, List.cons_append, List.nil_append]
    rw [drive_cons _ _ _ _ (by simp)]
    simp only [deliver, issuePoll_request, answerTo]
    rw [hTx _ _ (by simp)]
    simp only [pollAnswer, pollMissed, takeAnswer_work, issuePoll_work, hn, readHeld_some, takeAnswer_params, issuePoll_params]
    by_cases hx : pollsExhausted s.params (n + 1) = true <;>
      simp [hx, missEnd, missed, missStat, missEvents, Miss.events, Miss.stat, setPolls, takeAnswer, issuePoll, issueTx, hn, answerEvent, deliveredPart]
  | rxFail =>
    simp only [Miss.inputs, List.cons_append, List.nil_append]
    rw [drive_cons _ _ _ _ (by simp)]
    simp only [deliver, issuePoll_request, answerTo]
    rw [hTx _ _ (by simp)]
    simp only [pollAnswer, takeAnswer_phase, issuePoll_phase, Out.andThen_next]
    rw [drive_cons _ _ _ _ (by simp)]
    simp only [deliver, issueRx_request, answerTo]
    rw [hRx _ _ (by simp)]
    simp only [pollAnswer, pollMissed, takeAnswer_work, issueRx_work, issuePoll_work, hn, readHeld_some, takeAnswer_params, issueRx_params, issuePoll_params]
    by_cases hx : pollsExhausted s.params (n + 1) = true <;>
      simp [hx, missEnd, missed, missStat, missEvents, Miss.events, Miss.stat, setPolls, takeAnswer, issuePoll, issueTx, issueRx, hn, answerEvent]
  | read b =>
    simp only [Miss.inputs, List.cons_append, List.nil_append]
    rw [drive_cons _ _ _ _ (by simp)]
    simp only [deliver, issuePoll_request, answerTo]
    rw [hTx _ _ (by simp)]
    simp only [pollAnswer, takeAnswer_phase, issuePoll_phase, Out.andThen_next]
    rw [drive_cons _ _ _ _ (by simp)]
    simp only [deliver, issueRx_request, answerTo, List.length_cons, List.length_nil, Nat.zero_add, if_true]
    rw [hRx _ _ (by simp)]
    have hb : statusIsOk s.params b = false := by simpa [Miss.isMiss, statusIsOk] using hm
    simp only [pollAnswer, takeAnswer_phase, issueRx_phase, takeAnswer_params, issueRx_params, issuePoll_params, hb, Bool.false_eq_true, if_false, pollMissed, setStat_work, takeAnswer_work, issueRx_work, issuePoll_work, hn, readHeld_some, setStat_params]
    by_cases hx : pollsExhausted s.params (n + 1) = true <;>
      simp [hx, missEnd, missed, missStat, missEvents, Miss.events, Miss.stat, setPolls, setStat, takeAnswer, issuePoll, issueTx, issueRx, hn, answerEvent]

theorem missed_append (ms ms' : List Miss) (s : State) : missed ms' (missed ms s) = missed (ms ++ ms') s := by
  simp [missed, missStat, missEvents, List.append_assoc, Option.map_map, Function.comp_def, Nat.add_assoc]

/-- While the bound is not reached, not-OK polls leave the command at the start of its next poll. -/
theorem drive_misses (h : Answer → State → Out) (site : Site) (k : WaitResult → State → Out) (hh : HandlesWait h site k)
    (ms : List Miss) (rest : List Input) (s : State) (n : Nat) (hn : s.work.polls = some n)
    (hm : allMiss s.params ms = true) (hb : withinBound s.params (n + ms.length) = true) :
    drive h (missInputs ms ++ rest) (issuePoll site s) = drive h rest (issuePoll site (missed ms s)) := by
  induction ms generalizing s n with
  | nil => simp [missInputs, missed_nil]
  | cons m ms ih =>
    have hm' : m.isMiss s.params = true ∧ allMiss s.params ms = true := by simpa [allMiss] using hm
    have hx : pollsExhausted s.params (n + 1) = false := by
      unfold pollsExhausted; unfold withinBound at hb
      cases hp : s.params.maxPolls with
      | none => rfl
      | some m => simp [hp] at hb ⊢; omega
    have := ih (missed [m] s) (n + 1) (by simp [missed, hn]) hm'.2 (by
      have : n + 1 + ms.length = n + (m :: ms).length := by simp; omega
      rw [this]; exact hb)
    rw [missInputs, List.flatMap_cons, List.append_assoc, drive_miss h site k hh m _ s n hn hm'.1, if_neg (by simp [hx]),
      ← missInputs, this, missed_append]
    rfl

theorem drive_ok (h : Answer → State → Out) (site : Site) (k : WaitResult → State → Out) (hh : HandlesWait h site k)
    (rest : List Input) (s : State) :
    drive h (.txOk :: .rxOk [s.params.okSentinel] :: rest) (issuePoll site s) =
      (k .ok { s with
        phase := .rxWait (.pRx site), request := none
        work := ⟨some s.params.okSentinel, s.work.polls, s.work.old, s.work.mask, s.work.new⟩
        trace := s.trace ++ [.tx (pollFrame s.params), .txOk, .rx 1, .rxOk [s.params.okSentinel]] }).andThen (drive h rest) := by
  rw [drive_cons _ _ _ _ (by simp)]
  simp only [deliver, issuePoll_request, answerTo]
  rw [hh _ _ (by simp)]
  simp only [pollAnswer, takeAnswer_phase, issuePoll_phase, Out.andThen_next]
  rw [drive_cons _ _ _ _ (by simp)]
  simp only [deliver, issueRx_request, answerTo, List.length_cons, List.length_nil, Nat.zero_add, if_true]
  rw [hh _ _ (by simp)]
  simp [pollAnswer, statusIsOk, setStat, takeAnswer, issueRx, issuePoll, issueTx, answerEvent]

/-- When `MAX_POLLS` is as many as the not-OK polls, the wait gives up right after the last of them. -/
theorem drive_timeout (h : Answer → State → Out) (site : Site) (k : WaitResult → State → Out) (hh : HandlesWait h site k)
    (ms : List Miss) (rest : List Input) (s : State) (hn : s.work.polls = some 0) (hm : allMiss s.params ms = true)
    (hp : s.params.maxPolls = some ms.length) (h0 : 0 < ms.length) :
    ∃ ph, drive h (missInputs ms ++ rest) (issuePoll site s) =
      (k .timeout { missed ms s with phase := ph, request := none }).andThen (drive h rest) := by
  obtain ⟨init, m, rfl⟩ : ∃ init m, ms = init ++ [m] :=
    ⟨ms.dropLast, ms.getLast (List.ne_nil_of_length_pos h0), (List.dropLast_append_getLast _).symm⟩
  have hm' : allMiss s.params init = true ∧ m.isMiss s.params = true := by simpa [allMiss] using hm
  have hl : (init ++ [m]).length = init.length + 1 := by simp
  have hin : missInputs (init ++ [m]) ++ rest = missInputs init ++ (m.inputs ++ rest) := by
    simp [missInputs, List.append_assoc]
  rw [hin, drive_misses h site k hh init _ s 0 hn hm'.1 (by simp [withinBound, hp])]
  rw [drive_miss h site k hh m rest (missed init s) init.length (by simp [missed, hn]) hm'.2,
    if_pos (by simp [pollsExhausted, missed, hp])]
  exact ⟨(missEnd site m (missed init s)).phase, by rw [← missed_append]; rfl⟩

end Sys2Proof.Machine
end

