-- ==== Sys2Proof/Laws/Commands.lean ====
section
/-!
SUPPORT. Laws/Commands.lean: every command as a first step and an answer function, and which answer functions hand a wait
to the poller.
-/
namespace Sys2Proof.Machine

/-- The first step of each command. -/
def startOf : Instr → State → Out
  | .i2cWrite _ _ => i2cWriteStart
  | .i2cRead _ _ => i2cReadStart
  | .brgRdReg _ _ => brgRdRegStart
  | .brgWrReg _ _ => brgWrRegStart
  | .brgWrBulk _ _ => brgWrBulkStart
  | .regWrByte _ _ => regWrByteStart
  | .regWrBytes _ _ => regWrBytesStart
  | .regRdByte _ _ | .regRd16 _ _ | .regRd24be _ _ | .regWrField _ _ => selectStart

/-- The answer function of each command. -/
def answerOf : Instr → Answer → State → Out
  | .i2cWrite _ _ => i2cWriteAnswer
  | .i2cRead _ _ => i2cReadAnswer
  | .brgRdReg _ _ => brgRdRegAnswer
  | .brgWrReg _ _ => brgWrRegAnswer
  | .brgWrBulk _ _ => brgWrBulkAnswer
  | .regWrByte _ _ => regWrByteAnswer
  | .regWrBytes _ _ => regWrBytesAnswer
  | .regRdByte _ _ => regRdByteAnswer
  | .regRd16 _ _ => regRd16Answer
  | .regRd24be _ _ => regRd24beAnswer
  | .regWrField _ _ => regWrFieldAnswer

theorem exec_eq_runCommand (i : Instr) (s : State) (h : inDomain i = true) :
    exec i s = runCommand i (startOf i) (answerOf i) s := by
  cases i with
  | regWrField f len =>
    have h' : fieldDomain f.pos f.wid = true := h
    simp [exec, execRegWrField, h', startOf, answerOf]
  | _ => rfl

theorem exec_outside_domain (i : Instr) (s : State) (h : inDomain i = false) : exec i s = .refused .fieldDomain := by
  cases i with
  | regWrField f len =>
    have h' : fieldDomain f.pos f.wid = false := h
    simp [exec, execRegWrField, h']
  | _ => simp [inDomain] at h

/-- The label and the frame of each command's first request. -/
def firstLabel : Instr → Label
  | .i2cWrite _ _ => .wTx
  | .i2cRead _ _ => .rTx
  | .brgRdReg _ _ => .bTx
  | .brgWrReg _ _ => .bwTx
  | .brgWrBulk _ _ => .bbTx
  | .regWrByte _ _ => .wbTx
  | .regWrBytes _ _ => .wsTx
  | .regRdByte _ _ | .regRd16 _ _ | .regRd24be _ _ | .regWrField _ _ => .sTx

def firstFrame (p : Params) : Instr → List Byte
  | .i2cWrite f d | .regWrBytes f d => encIW p f.addr d
  | .i2cRead f n => encIR p f.addr n
  | .brgRdReg f _ => encRR p f.reg
  | .brgWrReg f _ => encRW p f.reg f.val
  | .brgWrBulk _ d => encRB p d
  | .regWrByte f _ => encIW p f.addr [f.reg, f.val]
  | .regRdByte f _ | .regRd16 f _ | .regRd24be f _ | .regWrField f _ => encIW p f.addr [f.reg]

/-- Acceptance writes the latches that the first step reads, so the first request always goes out. -/
theorem startOf_accept (i : Instr) (s : State) :
    startOf i (accept i s) = .next (issueTx (firstLabel i) (firstFrame s.params i) (accept i s)) := by
  cases i <;> rfl

theorem exec_idle (i : Instr) (s : State) (hd : inDomain i = true) (hs : s.phase = .idle) :
    exec i s = drive (answerOf i) s.inputs (issueTx (firstLabel i) (firstFrame s.params i) (accept i s)) := by
  rw [exec_eq_runCommand i s hd, runCommand, if_pos hs, startOf_accept]
  rfl

theorem exec_inFlight (i : Instr) (s : State) (hd : inDomain i = true) (hs : s.phase ≠ .idle) (hf : inFlight s = some i) :
    exec i s = drive (answerOf i) s.inputs s := by
  rw [exec_eq_runCommand i s hd, runCommand, if_neg hs, if_pos hf]

theorem exec_held (i : Instr) (s : State) (hd : inDomain i = true) (hs : s.phase ≠ .idle) (hf : inFlight s ≠ some i) :
    exec i s = .next s := by
  rw [exec_eq_runCommand i s hd, runCommand, if_neg hs, if_neg hf]

/-! ## Waits -/

theorem writeAnswer_handlesWait (own : Label) (site : Site) (hown : own ≠ .pTx site) :
    HandlesWait (writeAnswer own site) site writeDone := by
  intro a t ht
  have h1 : t.phase ≠ .txWait own := by
    rcases ht with ht | ht <;> rw [ht] <;> simp
    exact fun h => hown h.symm
  unfold writeAnswer
  rw [if_neg h1, if_pos ht]

theorem i2cWrite_handlesWait : HandlesWait i2cWriteAnswer .w writeDone := writeAnswer_handlesWait .wTx .w (by decide)

theorem regWrByte_handlesWait : HandlesWait regWrByteAnswer .wb writeDone := writeAnswer_handlesWait .wbTx .wb (by decide)

theorem regWrBytes_handlesWait : HandlesWait regWrBytesAnswer .ws writeDone := writeAnswer_handlesWait .wsTx .ws (by decide)

theorem selectAnswer_handlesWait (n : Nat) (k : SelectResult → State → Out) :
    HandlesWait (selectAnswer n k) .s (selectWaited n k) := by
  intro a t ht
  rcases ht with ht | ht <;> simp [selectAnswer, ht]

theorem regWrField_handlesSelectWait : HandlesWait regWrFieldAnswer .s (selectWaited 1 fieldAfterRead) := by
  intro a t ht
  rcases ht with ht | ht <;> simp [regWrFieldAnswer, selectAnswer, ht]

theorem regWrField_handlesBackWait : HandlesWait regWrFieldAnswer .f fieldDone := by
  intro a t ht
  rcases ht with ht | ht <;> simp [regWrFieldAnswer, ht]

end Sys2Proof.Machine
end

