-- ==== Sys2Proof/Laws/Answers.lean ====
section
/-!
SUPPORT. Laws/Answers.lean: everything a command can do with a transport answer, said once (`answerOf_advance`).
-/
namespace Sys2Proof.Machine

/-- What a command may change of the work latches and `L.RXBUF` on the way from `s`. -/
structure Touches (i : Instr) (s : State) (w : WorkLatches) (rx : Option (List Byte)) : Prop where
  noPoll : polls i = false → w = s.work
  field : writesField i = false → w.old = s.work.old ∧ w.mask = s.work.mask ∧ w.new = s.work.new
  noData : readsData i = false → rx = s.buf.rx
  bound : rx = s.buf.rx ∨ ∃ bytes, rx = some bytes ∧ bytes.length ≤ 255

/-- Where a command may stand after it has taken an answer in `s`: at its next request, or at its response. -/
inductive Advance (i : Instr) (s : State) : State → Prop
  | tx (k : Label) (frame : List Byte) (w : WorkLatches) (rx : Option (List Byte))
      (req : requestAt s.params w.new i (.txWait k) = some (.tx frame))
      (poll : (Phase.txWait k).isPoll = true → w.polls.isSome = true) (touch : Touches i s w rx) :
      Advance i s (issueTx k frame { s with work := w, buf := ⟨s.buf.tx, rx⟩ })
  | rx (k : Label) (n : Nat) (w : WorkLatches) (rx : Option (List Byte))
      (req : requestAt s.params w.new i (.rxWait k) = some (.rx n))
      (poll : (Phase.rxWait k).isPoll = true → w.polls.isSome = true) (touch : Touches i s w rx) :
      Advance i s (issueRx k n { s with work := w, buf := ⟨s.buf.tx, rx⟩ })
  | done (st : Status) (v : Option Word32) (d : Option (List Byte)) (w : WorkLatches) (rx : Option (List Byte))
      (may : mayReport s.params i st = true) (wf : (mkResponse st v d).wf = true) (touch : Touches i s w rx) :
      Advance i s (respond st v d { s with work := w, buf := ⟨s.buf.tx, rx⟩ })

theorem Touches.refl (i : Instr) (s : State) : Touches i s s.work s.buf.rx :=
  ⟨fun _ => rfl, fun _ => ⟨rfl, rfl, rfl⟩, fun _ => rfl, .inl rfl⟩

theorem Touches.poll {i : Instr} {s : State} (hp : polls i = true) (st : Option Byte) (n : Option Nat) :
    Touches i s ⟨st, n, s.work.old, s.work.mask, s.work.new⟩ s.buf.rx :=
  ⟨fun h => by simp [hp] at h, fun _ => ⟨rfl, rfl, rfl⟩, fun _ => rfl, .inl rfl⟩

theorem Touches.data {i : Instr} {s : State} (hp : readsData i = true) (bytes : List Byte) (hl : bytes.length ≤ 255) :
    Touches i s s.work (some bytes) :=
  ⟨fun _ => rfl, fun _ => ⟨rfl, rfl, rfl⟩, fun h => by simp [hp] at h, .inr ⟨bytes, rfl, hl⟩⟩

theorem bare_wf (st : Status) : (mkResponse st none none).wf = true := by
  simp [mkResponse, Response.wf]

theorem Advance.bare (i : Instr) (s : State) (st : Status) (h : mayReport s.params i st = true) :
    Advance i s (respond st none none s) :=
  Advance.done (s := s) st none none s.work s.buf.rx h (bare_wf st) (Touches.refl i s)

theorem Advance.bare_poll {i : Instr} {s : State} (hp : polls i = true) (st : Status) (h : mayReport s.params i st = true)
    (x : Option Byte) (n : Option Nat) :
    Advance i s (respond st none none { s with work := ⟨x, n, s.work.old, s.work.mask, s.work.new⟩ }) :=
  Advance.done (s := s) st none none _ s.buf.rx h (bare_wf st) (Touches.poll hp x n)

/-- A wait's end, as its caller takes it, is an `Advance` of the caller. -/
def WaitGoesOn (i : Instr) (k : WaitResult → State → Out) (s : State) : Prop :=
  ∀ (w : WaitResult) (x : Option Byte) (n : Option Nat), (w = .timeout → s.params.maxPolls.isSome = true) →
    ∃ t, k w { s with work := ⟨x, n, s.work.old, s.work.mask, s.work.new⟩ } = .next t ∧ Advance i s t

theorem pollMissed_advance {i : Instr} {site : Site} {k : WaitResult → State → Out} {s : State} (hp : polls i = true)
    (hreq : requestAt s.params s.work.new i (.txWait (.pTx site)) = some (.tx (pollFrame s.params)))
    (hk : WaitGoesOn i k s) (hn : s.work.polls.isSome = true) (x : Option Byte) :
    ∃ t, pollMissed site k { s with work := ⟨x, s.work.polls, s.work.old, s.work.mask, s.work.new⟩ } = .next t ∧ Advance i s t := by
  obtain ⟨n, hn⟩ := Option.isSome_iff_exists.mp hn
  simp only [pollMissed, hn, readHeld_some]
  by_cases hx : pollsExhausted s.params (n + 1) = true
  · simp only [hx, if_true]
    refine hk .timeout x (some (n + 1)) fun _ => ?_
    unfold pollsExhausted at hx
    cases hm : s.params.maxPolls with
    | none => simp [hm] at hx
    | some m => rfl
  · simp only [hx]
    exact ⟨_, rfl, Advance.tx (s := s) (.pTx site) (pollFrame s.params) _ s.buf.rx hreq (fun _ => rfl) (Touches.poll hp x (some (n + 1)))⟩

theorem pollAnswer_advance {i : Instr} {site : Site} {k : WaitResult → State → Out} {s : State} (hp : polls i = true)
    (htx : requestAt s.params s.work.new i (.txWait (.pTx site)) = some (.tx (pollFrame s.params)))
    (hrx : requestAt s.params s.work.new i (.rxWait (.pRx site)) = some (.rx 1))
    (hk : WaitGoesOn i k s) (hn : s.work.polls.isSome = true) (a : Answer)
    (hs : s.phase = .txWait (.pTx site) ∨ (s.phase = .rxWait (.pRx site) ∧ ∀ bytes, a = .ok bytes → bytes.length = 1)) :
    ∃ t, pollAnswer site k a s = .next t ∧ Advance i s t := by
  cases a with
  | fail => exact pollMissed_advance hp htx hk hn s.work.stat
  | ok bytes =>
    rcases hs with hs | ⟨hs, hl⟩
    · simp only [pollAnswer, hs]
      exact ⟨_, rfl, Advance.rx (s := s) (.pRx site) 1 s.work s.buf.rx hrx (fun _ => hn) (Touches.refl i s)⟩
    · simp only [pollAnswer, hs]
      match bytes, hl bytes rfl with
      | [b], _ =>
        by_cases hb : statusIsOk s.params b = true
        · simp only [hb, if_true]
          exact hk .ok (some b) s.work.polls (fun h => by cases h)
        · simp only [hb]
          exact pollMissed_advance hp htx hk hn (some b)

theorem writeDone_goesOn (i : Instr) (s : State) (hp : polls i = true) (hok : mayReport s.params i .stOk = true)
    (hto : s.params.maxPolls.isSome = true → mayReport s.params i .stTimeout = true) : WaitGoesOn i writeDone s := by
  intro w x n hw
  cases w with
  | ok => exact ⟨_, rfl, Advance.bare_poll hp .stOk hok x n⟩
  | timeout => exact ⟨_, rfl, Advance.bare_poll hp .stTimeout (hto (hw rfl)) x n⟩

/-- What an answer function may be given: an answer of the shape the outstanding request asks for. -/
def Shaped (r : Request) (a : Answer) : Prop := ∀ n bytes, r = .rx n → a = .ok bytes → bytes.length = n

theorem startWait_advance {i : Instr} {s : State} (site : Site) (hp : polls i = true)
    (htx : requestAt s.params s.work.new i (.txWait (.pTx site)) = some (.tx (pollFrame s.params))) :
    Advance i s (startWait site s) :=
  Advance.tx (s := s) (.pTx site) (pollFrame s.params) _ s.buf.rx htx (fun _ => rfl) (Touches.poll hp s.work.stat (some 0))

theorem writeAnswer_advance (i : Instr) (own : Label) (site : Site) (frame : Params → List Byte) (s : State) (r : Request) (a : Answer)
    (hreq : ∀ p new ph, requestAt p new i ph = writeRequest p own site (frame p) ph) (hown : own ≠ .pTx site)
    (hp : polls i = true) (hmay : ∀ p st, mayReport p i st = (decide (st = .stOk) || decide (st = .stFail) || (decide (st = .stTimeout) && p.maxPolls.isSome)))
    (hr : requestAt s.params s.work.new i s.phase = some r) (hsh : Shaped r a)
    (hn : s.phase.isPoll = true → s.work.polls.isSome = true) :
    ∃ t, writeAnswer own site a s = .next t ∧ Advance i s t := by
  have htx : requestAt s.params s.work.new i (.txWait (.pTx site)) = some (.tx (pollFrame s.params)) := by
    rw [hreq]; simp [writeRequest, Ne.symm hown]
  have hrx : requestAt s.params s.work.new i (.rxWait (.pRx site)) = some (.rx 1) := by
    rw [hreq]; simp [writeRequest]
  have hk : WaitGoesOn i writeDone s := writeDone_goesOn i s hp (by simp [hmay]) (fun h => by simp [hmay, h])
  unfold writeAnswer
  by_cases h1 : s.phase = .txWait own
  · rw [if_pos h1]
    cases a with
    | fail => exact ⟨_, rfl, Advance.bare i s .stFail (by simp [hmay])⟩
    | ok bytes => exact ⟨_, rfl, startWait_advance site hp htx⟩
  · rw [if_neg h1]
    by_cases h2 : s.phase = .txWait (.pTx site)
    · rw [if_pos (.inl h2)]
      exact pollAnswer_advance hp htx hrx hk (hn (by rw [h2]; rfl)) a (.inl h2)
    · by_cases h3 : s.phase = .rxWait (.pRx site)
      · rw [if_pos (.inr h3)]
        rw [h3, hrx] at hr
        cases hr
        exact pollAnswer_advance hp htx hrx hk (hn (by rw [h3]; rfl)) a (.inr ⟨h3, fun bytes hb => hsh 1 bytes rfl hb⟩)
      · rw [hreq] at hr; simp [writeRequest, h1, h2, h3] at hr

/-- A select's end, as its caller takes it, is an `Advance` of the caller. -/
def SelectGoesOn (i : Instr) (n : Nat) (k : SelectResult → State → Out) (s : State) : Prop :=
  (∀ (w : SelectResult) (x : Option Byte) (m : Option Nat), (w = .fail ∨ (w = .timeout ∧ s.params.maxPolls.isSome = true)) →
    ∃ t, k w { s with work := ⟨x, m, s.work.old, s.work.mask, s.work.new⟩ } = .next t ∧ Advance i s t) ∧
  (∀ bytes, bytes.length = n → ∃ t, k (.ok bytes) (setRxbuf bytes s) = .next t ∧ Advance i s t)

theorem selectAnswer_advance (i : Instr) (n : Nat) (k : SelectResult → State → Out) (s : State) (r : Request) (a : Answer)
    (hreq : ∀ p new ph, ph ∈ [.txWait .sTx, .txWait (.pTx .s), .rxWait (.pRx .s), .txWait .sIr, .rxWait .sRx] → requestAt p new i ph = selectRequest p i.fields n ph)
    (hops : s.ops = latchesOf i) (hp : polls i = true) (hk : SelectGoesOn i n k s)
    (hin : s.phase ∈ [.txWait .sTx, .txWait (.pTx .s), .rxWait (.pRx .s), .txWait .sIr, .rxWait .sRx])
    (hr : requestAt s.params s.work.new i s.phase = some r) (hsh : Shaped r a)
    (hn : s.phase.isPoll = true → s.work.polls.isSome = true) :
    ∃ t, selectAnswer n k a s = .next t ∧ Advance i s t := by
  have htx : requestAt s.params s.work.new i (.txWait (.pTx .s)) = some (.tx (pollFrame s.params)) := by
    rw [hreq _ _ _ (by simp)]; rfl
  have hrx : requestAt s.params s.work.new i (.rxWait (.pRx .s)) = some (.rx 1) := by
    rw [hreq _ _ _ (by simp)]; rfl
  have hw : WaitGoesOn i (selectWaited n k) s := by
    intro w x m hto
    cases w with
    | timeout => exact hk.1 .timeout x m (.inr ⟨rfl, hto rfl⟩)
    | ok =>
      refine ⟨issueTx .sIr (encIR s.params i.fields.addr (BitVec.ofNat 8 n)) { s with work := ⟨x, m, s.work.old, s.work.mask, s.work.new⟩ }, ?_, ?_⟩
      · simp [selectWaited, hops, latchesOf]
      · exact Advance.tx (s := s) .sIr _ _ s.buf.rx (by rw [hreq _ _ _ (by simp)]; rfl) (fun h => by simp [Phase.isPoll] at h) (Touches.poll hp x m)
  have hfail : ∃ t, k .fail s = .next t ∧ Advance i s t := hk.1 .fail s.work.stat s.work.polls (.inl rfl)
  simp only [List.mem_cons, List.not_mem_nil, or_false] at hin
  rcases hin with h | h | h | h | h
  · simp only [selectAnswer, h]
    cases a with
    | fail => exact hfail
    | ok bytes => exact ⟨_, rfl, startWait_advance .s hp htx⟩
  · simp only [selectAnswer, h]
    exact pollAnswer_advance hp htx hrx hw (hn (by rw [h]; rfl)) a (.inl h)
  · simp only [selectAnswer, h]
    rw [h, hrx] at hr
    cases hr
    exact pollAnswer_advance hp htx hrx hw (hn (by rw [h]; rfl)) a (.inr ⟨h, fun bytes hb => hsh 1 bytes rfl hb⟩)
  · simp only [selectAnswer, h]
    cases a with
    | fail => exact hfail
    | ok bytes =>
      exact ⟨_, rfl, Advance.rx (s := s) .sRx n s.work s.buf.rx (by rw [hreq _ _ _ (by simp)]; rfl) (fun h => by simp [Phase.isPoll] at h) (Touches.refl i s)⟩
  · simp only [selectAnswer, h]
    have hr' : r = .rx n := by
      rw [h, hreq _ _ _ (by simp)] at hr
      exact (Option.some.inj hr).symm
    cases a with
    | fail => exact hfail
    | ok bytes => exact hk.2 bytes (hsh n bytes hr' rfl)

theorem data_wf (v : Option Word32) (bytes : List Byte) (hl : bytes.length ≤ 255) : (mkResponse .stOk v (some bytes)).wf = true := by
  simp [mkResponse, Response.wf, hl]

theorem readDone_goesOn (i : Instr) (n : Nat) (g : List Byte → Option Word32) (s : State)
    (hg : ∀ bytes : List Byte, bytes.length = n → (g bytes).isSome = true) (hn : n ≤ 255)
    (hp : polls i = true) (hd : readsData i = true)
    (hmay : ∀ p st, mayReport p i st = (decide (st = .stOk) || decide (st = .stFail) || (decide (st = .stTimeout) && p.maxPolls.isSome))) :
    SelectGoesOn i n (readDone g) s := by
  refine ⟨fun w x m hw => ?_, fun bytes hb => ?_⟩
  · rcases hw with rfl | ⟨rfl, hw⟩
    · exact ⟨_, rfl, Advance.bare_poll hp .stFail (by simp [hmay]) x m⟩
    · exact ⟨_, rfl, Advance.bare_poll hp .stTimeout (by simp [hmay, hw]) x m⟩
  · obtain ⟨v, hv⟩ := Option.isSome_iff_exists.mp (hg bytes hb)
    refine ⟨respond .stOk (some v) (some bytes) (setRxbuf bytes s), by simp [readDone, hv], ?_⟩
    exact Advance.done (s := s) .stOk (some v) (some bytes) s.work (some bytes) (by simp [hmay]) (data_wf _ _ (by omega)) (Touches.data hd bytes (by omega))

theorem selectRequest_some {p : Params} {f : Fields} {n : Nat} {ph : Phase} {r : Request} (h : selectRequest p f n ph = some r) :
    ph ∈ [.txWait .sTx, .txWait (.pTx .s), .rxWait (.pRx .s), .txWait .sIr, .rxWait .sRx] := by
  unfold selectRequest at h
  split at h <;> simp at h ⊢

theorem read_advance (i : Instr) (n : Nat) (g : List Byte → Option Word32) (s : State) (r : Request) (a : Answer)
    (hreq : ∀ p new ph, requestAt p new i ph = selectRequest p i.fields n ph)
    (hg : ∀ bytes : List Byte, bytes.length = n → (g bytes).isSome = true) (hn' : n ≤ 255)
    (hp : polls i = true) (hd : readsData i = true)
    (hmay : ∀ p st, mayReport p i st = (decide (st = .stOk) || decide (st = .stFail) || (decide (st = .stTimeout) && p.maxPolls.isSome)))
    (hops : s.ops = latchesOf i) (hr : requestAt s.params s.work.new i s.phase = some r) (hsh : Shaped r a)
    (hn : s.phase.isPoll = true → s.work.polls.isSome = true) :
    ∃ t, selectAnswer n (readDone g) a s = .next t ∧ Advance i s t := by
  refine selectAnswer_advance i n (readDone g) s r a (fun p new ph _ => hreq p new ph) hops hp (readDone_goesOn i n g s hg hn' hp hd hmay) ?_ hr hsh hn
  rw [hreq] at hr
  exact selectRequest_some hr

theorem field_advance (f : Fields) (len : Byte) (s : State) (r : Request) (a : Answer)
    (hops : s.ops = latchesOf (.regWrField f len)) (hr : requestAt s.params s.work.new (.regWrField f len) s.phase = some r)
    (hsh : Shaped r a) (hn : s.phase.isPoll = true → s.work.polls.isSome = true) :
    ∃ t, regWrFieldAnswer a s = .next t ∧ Advance (.regWrField f len) s t := by
  have hmay : mayReport s.params (.regWrField f len) .stNone = true := rfl
  have hp : polls (.regWrField f len) = true := rfl
  have hk : WaitGoesOn (.regWrField f len) fieldDone s :=
    fun w x n _ => ⟨_, rfl, Advance.bare_poll hp .stNone hmay x n⟩
  have hsel : SelectGoesOn (.regWrField f len) 1 fieldAfterRead s := by
    refine ⟨fun w x m hw => ?_, fun bytes hb => ?_⟩
    · rcases hw with rfl | ⟨rfl, _⟩
      · exact ⟨_, rfl, Advance.bare_poll hp .stNone hmay x m⟩
      · exact ⟨_, rfl, Advance.bare_poll hp .stNone hmay x m⟩
    · match bytes, hb with
      | [old], _ =>
        refine ⟨issueTx .fTx (encIW s.params f.addr [f.reg, fieldInsert old f.val f.pos f.wid])
          (setField old (fieldMask f.pos f.wid) (fieldInsert old f.val f.pos f.wid) (setRxbuf [old] s)), ?_, ?_⟩
        · simp [fieldAfterRead, hops, latchesOf, Instr.fields]
        · exact Advance.tx (s := s) .fTx _ ⟨s.work.stat, s.work.polls, some old, some _, some _⟩ (some [old]) rfl
            (fun h => by simp [Phase.isPoll] at h)
            ⟨fun h => by simp [polls] at h, fun h => by simp [writesField] at h, fun h => by simp [readsData] at h, .inr ⟨[old], rfl, by simp⟩⟩
  unfold regWrFieldAnswer
  split
  · cases a with
    | fail => exact ⟨_, rfl, Advance.bare _ s .stNone hmay⟩
    | ok bytes => exact ⟨_, rfl, startWait_advance .f hp rfl⟩
  · rename_i h
    exact pollAnswer_advance hp rfl rfl hk (hn (by rw [h]; rfl)) a (.inl h)
  · rename_i h
    rw [h] at hr
    cases hr
    exact pollAnswer_advance hp rfl rfl hk (hn (by rw [h]; rfl)) a (.inr ⟨h, fun bytes hb => hsh 1 bytes rfl hb⟩)
  · rename_i h1 h2 h3
    refine selectAnswer_advance _ 1 fieldAfterRead s r a (fun p new ph hph => ?_) hops hp hsel ?_ hr hsh hn
    · simp only [List.mem_cons, List.not_mem_nil, or_false] at hph
      rcases hph with rfl | rfl | rfl | rfl | rfl <;> rfl
    · simp only [requestAt] at hr
      exact selectRequest_some hr

/-- Everything a command can do with an answer of the right shape, at any of its steps. -/
theorem answerOf_advance (i : Instr) (s : State) (r : Request) (a : Answer) (hops : s.ops = latchesOf i)
    (hr : requestAt s.params s.work.new i s.phase = some r) (hsh : Shaped r a)
    (hn : s.phase.isPoll = true → s.work.polls.isSome = true) :
    ∃ t, answerOf i a s = .next t ∧ Advance i s t := by
  cases i with
  | i2cWrite f d => exact writeAnswer_advance _ _ _ _ s r a (fun _ _ _ => rfl) (by decide) rfl (fun _ _ => rfl) hr hsh hn
  | regWrByte f len => exact writeAnswer_advance _ _ _ _ s r a (fun _ _ _ => rfl) (by decide) rfl (fun _ _ => rfl) hr hsh hn
  | regWrBytes f d => exact writeAnswer_advance _ _ _ _ s r a (fun _ _ _ => rfl) (by decide) rfl (fun _ _ => rfl) hr hsh hn
  | regRdByte f len => 
    exact read_advance _ 1 _ s r a (fun _ _ _ => rfl) (fun b hb => by match b, hb with | [x], _ => rfl) (by decide) rfl rfl (fun _ _ => rfl) hops hr hsh hn
  | regRd16 f len =>
    exact read_advance _ 2 _ s r a (fun _ _ _ => rfl) (fun b hb => by match b, hb with | [x, y], _ => rfl) (by decide) rfl rfl (fun _ _ => rfl) hops hr hsh hn
  | regRd24be f len =>
    exact read_advance _ 3 _ s r a (fun _ _ _ => rfl) (fun b hb => by match b, hb with | [x, y, z], _ => rfl) (by decide) rfl rfl (fun _ _ => rfl) hops hr hsh hn
  | regWrField f len => exact field_advance f len s r a hops hr hsh hn
  | i2cRead f len =>
    simp only [requestAt] at hr
    split at hr
    · rename_i h
      simp only [answerOf, i2cReadAnswer, h]
      cases a with
      | fail => exact ⟨_, rfl, Advance.bare _ s .stFail rfl⟩
      | ok bytes =>
        refine ⟨issueRx .rRx len.toNat s, by simp [hops, latchesOf, Instr.lenByte], ?_⟩
        exact Advance.rx (s := s) .rRx _ s.work s.buf.rx rfl (fun h => by simp [Phase.isPoll] at h) (Touches.refl _ s)
    · rename_i h
      simp only [answerOf, i2cReadAnswer, h]
      cases a with
      | fail => exact ⟨_, rfl, Advance.bare _ s .stFail rfl⟩
      | ok bytes =>
        have hl : bytes.length ≤ 255 := by rw [hsh _ bytes (Option.some.inj hr).symm rfl]; have := len.isLt; omega
        exact ⟨_, rfl, Advance.done (s := s) .stOk none (some bytes) s.work (some bytes) rfl (data_wf _ _ hl) (Touches.data rfl bytes hl)⟩
    · cases hr
  | brgRdReg f len =>
    simp only [requestAt] at hr
    split at hr
    · rename_i h
      simp only [answerOf, brgRdRegAnswer, h]
      cases a with
      | fail => exact ⟨_, rfl, Advance.bare _ s .stFail rfl⟩
      | ok bytes =>
        exact ⟨_, rfl, Advance.rx (s := s) .bRx _ s.work s.buf.rx rfl (fun h => by simp [Phase.isPoll] at h) (Touches.refl _ s)⟩
    · rename_i h
      simp only [answerOf, brgRdRegAnswer, h]
      cases a with
      | fail => exact ⟨_, rfl, Advance.bare _ s .stFail rfl⟩
      | ok bytes =>
        have hl := hsh _ bytes (Option.some.inj hr).symm rfl
        match bytes, hl with
        | [b], _ => exact ⟨_, rfl, Advance.done (s := s) .stOk (some _) (some [b]) s.work (some [b]) rfl (data_wf _ _ (by simp)) (Touches.data rfl [b] (by simp))⟩
    · cases hr
  | brgWrReg f len =>
    simp only [requestAt] at hr
    split at hr
    · rename_i h
      exact ⟨_, by simp only [answerOf, brgWrRegAnswer, forgetAnswer, h, if_true], Advance.bare _ s .stNone rfl⟩
    · cases hr
  | brgWrBulk f d =>
    simp only [requestAt] at hr
    split at hr
    · rename_i h
      exact ⟨_, by simp only [answerOf, brgWrBulkAnswer, forgetAnswer, h, if_true], Advance.bare _ s .stNone rfl⟩
    · cases hr

end Sys2Proof.Machine
end

