-- ==== Sys2Proof/Laws/Decode.lean ====
section
/-!
SUPPORT. Laws/Decode.lean: when the record decoder accepts, and what the sequencer is in the middle of.
-/
namespace Sys2Proof

theorem ofNat8_toNat_length (d : List Byte) (len : Byte) (h : d.length = len.toNat) : BitVec.ofNat 8 d.length = len := by
  rw [h]; simp

theorem decodeShort_ok {i j : Instr} {data : List Byte} (h : decodeShort i data = .ok j) : j = i ∧ data = [] := by
  cases data with
  | nil => simp [decodeShort] at h; exact ⟨h.symm, rfl⟩
  | cons b rest => simp [decodeShort] at h

theorem decodeLong_ok {i j : Instr} {len : Byte} {data : List Byte} (h : decodeLong i len data = .ok j) :
    j = i ∧ data.length = len.toNat := by
  unfold decodeLong at h
  split at h
  · exact ⟨(Except.ok.inj h).symm, ‹_›⟩
  · cases h

theorem of_ite_ok {c : Prop} [Decidable c] {a b : Except DecodeError Instr} {j : Instr}
    (h : (if c then a else b) = .ok j) : (c ∧ a = .ok j) ∨ (¬c ∧ b = .ok j) := by
  by_cases hc : c
  · exact .inl ⟨hc, by rwa [if_pos hc] at h⟩
  · exact .inr ⟨hc, by rwa [if_neg hc] at h⟩

/-- A record decodes to `i` exactly when its parts are those of `i` and `i` is well-formed (R90, R101). -/
theorem decodeOp_ok_iff (op : Byte) (f : Fields) (len : Byte) (data : List Byte) (i : Instr) :
    decodeOp op f len data = .ok i ↔
      op = i.opcode ∧ f = i.fields ∧ len = i.lenByte ∧ data = i.data?.getD [] ∧ i.wellFormed = true := by
  constructor
  · intro h
    have hlen : ∀ (d : List Byte), d.length = len.toNat → d.length ≤ 255 := fun d hd => by have := len.isLt; omega
    unfold decodeOp at h
    rcases of_ite_ok h with ⟨ho, h⟩ | ⟨_, h⟩
    · obtain ⟨rfl, hd⟩ := decodeLong_ok h
      exact ⟨ho, rfl, (ofNat8_toNat_length _ _ hd).symm, rfl, decide_eq_true (hlen _ hd)⟩
    rcases of_ite_ok h with ⟨ho, h⟩ | ⟨_, h⟩
    · obtain ⟨rfl, rfl⟩ := decodeShort_ok h
      exact ⟨ho, rfl, rfl, rfl, rfl⟩
    rcases of_ite_ok h with ⟨ho, h⟩ | ⟨_, h⟩
    · obtain ⟨rfl, rfl⟩ := decodeShort_ok h
      exact ⟨ho, rfl, rfl, rfl, rfl⟩
    rcases of_ite_ok h with ⟨ho, h⟩ | ⟨_, h⟩
    · obtain ⟨rfl, rfl⟩ := decodeShort_ok h
      exact ⟨ho, rfl, rfl, rfl, rfl⟩
    rcases of_ite_ok h with ⟨ho, h⟩ | ⟨_, h⟩
    · obtain ⟨rfl, hd⟩ := decodeLong_ok h
      exact ⟨ho, rfl, (ofNat8_toNat_length _ _ hd).symm, rfl, decide_eq_true (hlen _ hd)⟩
    rcases of_ite_ok h with ⟨ho, h⟩ | ⟨_, h⟩
    · obtain ⟨rfl, rfl⟩ := decodeShort_ok h
      exact ⟨ho, rfl, rfl, rfl, rfl⟩
    rcases of_ite_ok h with ⟨ho, h⟩ | ⟨_, h⟩
    · obtain ⟨rfl, hd⟩ := decodeLong_ok h
      exact ⟨ho, rfl, (ofNat8_toNat_length _ _ hd).symm, rfl, decide_eq_true (hlen _ hd)⟩
    rcases of_ite_ok h with ⟨ho, h⟩ | ⟨_, h⟩
    · obtain ⟨rfl, rfl⟩ := decodeShort_ok h
      exact ⟨ho, rfl, rfl, rfl, rfl⟩
    rcases of_ite_ok h with ⟨ho, h⟩ | ⟨_, h⟩
    · obtain ⟨rfl, rfl⟩ := decodeShort_ok h
      exact ⟨ho, rfl, rfl, rfl, rfl⟩
    rcases of_ite_ok h with ⟨ho, h⟩ | ⟨_, h⟩
    · obtain ⟨rfl, rfl⟩ := decodeShort_ok h
      exact ⟨ho, rfl, rfl, rfl, rfl⟩
    rcases of_ite_ok h with ⟨ho, h⟩ | ⟨_, h⟩
    · obtain ⟨rfl, rfl⟩ := decodeShort_ok h
      exact ⟨ho, rfl, rfl, rfl, rfl⟩
    cases data <;> cases h
  · rintro ⟨rfl, rfl, rfl, rfl, hw⟩
    have hmod : ∀ d : List Byte, decide (d.length ≤ 255) = true → d.length = (BitVec.ofNat 8 d.length).toNat := by
      intro d hd
      have := of_decide_eq_true hd
      simp only [BitVec.toNat_ofNat]; omega
    cases i with
    | i2cWrite f d | brgWrBulk f d | regWrBytes f d =>
      have := hmod d hw
      simp [decodeOp, Instr.opcode, Instr.fields, Instr.lenByte, Instr.data?, decodeLong, -BitVec.toNat_ofNat, ← this]
    | _ => simp [decodeOp, Instr.opcode, Instr.fields, Instr.lenByte, Instr.data?, decodeShort]

namespace Machine

/-- A command is in flight exactly when the latches and `L.TXBUF` are those its acceptance writes. -/
theorem inFlight_iff (s : State) (i : Instr) :
    inFlight s = some i ↔ s.ops = latchesOf i ∧ s.buf.tx.getD [] = i.data?.getD [] ∧ i.wellFormed = true := by
  rcases h : s.ops with ⟨op, addr, reg, val, pos, wid, len⟩
  unfold inFlight
  rw [h]
  simp only [latchesOf, OperandLatches.mk.injEq]
  constructor
  · intro hi
    split at hi
    · split at hi
      · rename_i j hj
        cases hi
        obtain ⟨h1, h2, h3, h4, h5⟩ := (decodeOp_ok_iff _ _ _ _ _).mp hj
        exact ⟨⟨by rw [← h1], by rw [← h2], by rw [← h2], by rw [← h2], by rw [← h2], by rw [← h2], by rw [← h3]⟩, h4, h5⟩
      · cases hi
    · cases hi
  · rintro ⟨⟨rfl, rfl, rfl, rfl, rfl, rfl, rfl⟩, hd, hw⟩
    have : decodeOp i.opcode i.fields i.lenByte (s.buf.tx.getD []) = .ok i := (decodeOp_ok_iff _ _ _ _ _).mpr ⟨rfl, rfl, rfl, hd, hw⟩
    simp only []
    rw [show (⟨i.fields.addr, i.fields.reg, i.fields.val, i.fields.pos, i.fields.wid⟩ : Fields) = i.fields from rfl, this]

end Machine

end Sys2Proof
end

