-- ==== Sys2Proof/Laws/PerInstr.lean ====
section
/-!
SUPPORT. Laws/PerInstr.lean: the shape of every command's record (30_encoding.md R90, R101), one lemma per constructor.
-/
namespace Sys2Proof.Laws.RecordShape

/-- The record begins with the command's code, is seven bytes and the data field long, and its bytes 1 to 5 are the fields. -/
def Statement (i : Instr) : Prop :=
  (encode i).head? = some i.opcode ∧ (encode i).length = 7 + (i.data?.getD []).length ∧
    (encode i).take 7 = [i.opcode, i.fields.addr, i.fields.reg, i.fields.val, i.fields.pos, i.fields.wid, i.lenByte]

theorem i2cWrite (f : Fields) (data : List Byte) : Statement (.i2cWrite f data) :=
  ⟨rfl, by simp [encode, recordBytes, Instr.data?]; omega, rfl⟩

theorem i2cRead (f : Fields) (len : Byte) : Statement (.i2cRead f len) :=
  ⟨rfl, rfl, rfl⟩

theorem brgRdReg (f : Fields) (len : Byte) : Statement (.brgRdReg f len) :=
  ⟨rfl, rfl, rfl⟩

theorem brgWrReg (f : Fields) (len : Byte) : Statement (.brgWrReg f len) :=
  ⟨rfl, rfl, rfl⟩

theorem brgWrBulk (f : Fields) (data : List Byte) : Statement (.brgWrBulk f data) :=
  ⟨rfl, by simp [encode, recordBytes, Instr.data?]; omega, rfl⟩

theorem regWrByte (f : Fields) (len : Byte) : Statement (.regWrByte f len) :=
  ⟨rfl, rfl, rfl⟩

theorem regWrBytes (f : Fields) (data : List Byte) : Statement (.regWrBytes f data) :=
  ⟨rfl, by simp [encode, recordBytes, Instr.data?]; omega, rfl⟩

theorem regRdByte (f : Fields) (len : Byte) : Statement (.regRdByte f len) :=
  ⟨rfl, rfl, rfl⟩

theorem regRd16 (f : Fields) (len : Byte) : Statement (.regRd16 f len) :=
  ⟨rfl, rfl, rfl⟩

theorem regRd24be (f : Fields) (len : Byte) : Statement (.regRd24be f len) :=
  ⟨rfl, rfl, rfl⟩

theorem regWrField (f : Fields) (len : Byte) : Statement (.regWrField f len) :=
  ⟨rfl, rfl, rfl⟩

end Sys2Proof.Laws.RecordShape
end

