-- ==== Sys2Proof/Laws/Runs.lean ====
section
/-!
SUPPORT. Laws/Runs.lean: a command over the inputs, and a step: what one input does (`deliver_standing`), what all of them
keep (`drive_keeps`, `exec_keeps_idle`, `exec_keeps_busy`), and everything a step from a consistent state can be
(`step_cases`).
-/
namespace Sys2Proof.Machine

/-- Command `i` waits at one of its steps, for the request the spec gives it there. -/
structure Standing (i : Instr) (s : State) : Prop where
  busy : s.phase ≠ .idle
  ops : s.ops = latchesOf i
  req : ∃ r, requestAt s.params s.work.new i s.phase = some r ∧ s.request = some r
  polls : s.phase.isPoll = true → s.work.polls.isSome = true

/-- What one input makes of a state in which `i` waits. -/
inductive Delivered (i : Instr) (s : State) : Input → State → Prop
  | command (r : List Byte) : Delivered i s (.command r) { s with port := s.port ++ [r] }
  | take : Delivered i s .take { s with rspPending := false }
  | reset (sent : Nat) : Delivered i s (.reset sent) (resetState sent s)
  | nothing {x : Input} : Delivered i s x s
  | answer {x : Input} (r : Request) (a : Answer) {t : State} (req : s.request = some r) (ans : answerTo r x = some a)
      (adv : Advance i (takeAnswer r x s) t) : Delivered i s x t

theorem answerTo_shaped {r : Request} {x : Input} {a : Answer} (h : answerTo r x = some a) : Shaped r a := by
  rintro n bytes rfl rfl
  unfold answerTo at h
  split at h <;> simp_all
  obtain ⟨h1, h2⟩ := h
  exact h2 ▸ h1

theorem deliver_standing {i : Instr} {s : State} (hs : Standing i s) (x : Input) :
    ∃ t, deliver (answerOf i) x s = .next t ∧ Delivered i s x t := by
  obtain ⟨r, hreq, hr⟩ := hs.req
  have key : ∀ x, (match s.request with
      | none => Host.Outcome.next s
      | some r => match answerTo r x with
        | none => .next s
        | some a => answerOf i a (takeAnswer r x s)) = .next s ∨
      ∃ t, (match s.request with
      | none => Host.Outcome.next s
      | some r => match answerTo r x with
        | none => .next s
        | some a => answerOf i a (takeAnswer r x s)) = .next t ∧ Delivered i s x t := by
    intro x
    rw [hr]
    cases ha : answerTo r x with
    | none => exact .inl (by simp [ha])
    | some a =>
      obtain ⟨t, ht, hadv⟩ := answerOf_advance i (takeAnswer r x s) r a (by simpa using hs.ops) (by simpa using hreq) (answerTo_shaped ha) (by simpa using hs.polls)
      exact .inr ⟨t, by simpa [ha] using ht, .answer r a hr ha hadv⟩
  have fin : ∀ x, (deliver (answerOf i) x s = (match s.request with
      | none => Host.Outcome.next s
      | some r => match answerTo r x with
        | none => .next s
        | some a => answerOf i a (takeAnswer r x s))) → ∃ t, deliver (answerOf i) x s = .next t ∧ Delivered i s x t := by
    intro x hx
    rcases key x with h | ⟨t, h, hd⟩
    · exact ⟨s, hx.trans h, .nothing⟩
    · exact ⟨t, hx.trans h, hd⟩
  cases x with
  | command r => exact ⟨_, rfl, .command r⟩
  | take => exact ⟨_, rfl, .take⟩
  | reset sent => exact ⟨_, rfl, .reset sent⟩
  | silent => exact ⟨_, rfl, .nothing⟩
  | late => exact ⟨_, rfl, .nothing⟩
  | txOk => exact fin _ rfl
  | txFail n => exact fin _ rfl
  | rxOk b => exact fin _ rfl
  | rxFail => exact fin _ rfl

theorem Advance.standing {i : Instr} {s t : State} (h : Advance i s t) (hops : s.ops = latchesOf i) (ht : t.phase ≠ .idle) : Standing i t := by
  cases h with
  | tx k frame w rx req poll touch => exact ⟨ht, hops, ⟨_, req, rfl⟩, poll⟩
  | rx k n w rx req poll touch => exact ⟨ht, hops, ⟨_, req, rfl⟩, poll⟩
  | done => exact absurd rfl ht

theorem Delivered.standing {i : Instr} {s t : State} {x : Input} (hs : Standing i s) (h : Delivered i s x t) (ht : t.phase ≠ .idle) : Standing i t := by
  cases h with
  | command r => exact ⟨hs.busy, hs.ops, hs.req, hs.polls⟩
  | take => exact ⟨hs.busy, hs.ops, hs.req, hs.polls⟩
  | reset sent => exact absurd rfl ht
  | nothing => exact hs
  | answer r a req ans adv => exact adv.standing hs.ops ht

theorem lastCommandResponded_append (a b : List Event) :
    lastCommandResponded (a ++ b) = b.foldl Event.responded (lastCommandResponded a) := List.foldl_append

/-- A run over inputs leaves the last of them, unread. -/
theorem drive_inputs (h : Answer → State → Out) (is : List Input) (s t : State) (ht : drive h is s = .next t) :
    t.inputs <:+ is := by
  induction is generalizing s with
  | nil => cases ht; exact List.suffix_refl _
  | cons x rest ih =>
    by_cases hs : s.phase = .idle
    · rw [drive_idle _ _ _ hs] at ht; cases ht; exact List.suffix_refl _
    · rw [drive_cons _ _ _ _ hs] at ht
      cases hu : deliver h x s <;> rw [hu] at ht
      · exact (ih _ ht).trans (List.suffix_cons _ _)
      · cases ht
      · cases ht

/-- The induction over inputs, once: what every input keeps, the run keeps. -/
theorem drive_keeps (i : Instr) (P : State → Prop) (is : List Input)
    (hP : ∀ s x t, x ∈ is → Standing i s → P s → Delivered i s x t → P t)
    (hin : ∀ s l, P s → P { s with inputs := l }) :
    ∀ s, Standing i s → P s → ∃ t, drive (answerOf i) is s = .next t ∧ P t ∧ (t.phase = .idle ∨ Standing i t) := by
  induction is with
  | nil => exact fun s hs hp => ⟨_, rfl, hin s [] hp, .inr ⟨hs.busy, hs.ops, hs.req, hs.polls⟩⟩
  | cons x rest ih =>
    intro s hs hp
    obtain ⟨u, hu, hd⟩ := deliver_standing hs x
    have hpu := hP s x u (by simp) hs hp hd
    rw [drive_cons _ _ _ _ hs.busy, hu, Out.andThen_next]
    by_cases hi : u.phase = .idle
    · exact ⟨_, drive_idle _ _ _ hi, hin u rest hpu, .inl hi⟩
    · exact ih (fun s x t hx => hP s x t (by simp [hx])) u (hd.standing hs hi) hpu

/-- The first request of a command is the one the spec gives it. -/
theorem first_standing (i : Instr) (s : State) :
    Standing i (issueTx (firstLabel i) (firstFrame s.params i) (accept i s)) := by
  refine ⟨by simp, rfl, ⟨_, ?_, rfl⟩, ?_⟩
  · cases i <;> rfl
  · cases i <;> simp [firstLabel, Phase.isPoll]

theorem exec_keeps_idle (i : Instr) (s t : State) (P : State → Prop) (hs : s.phase = .idle) (he : exec i s = .next t)
    (h0 : P (issueTx (firstLabel i) (firstFrame s.params i) (accept i s)))
    (hP : ∀ u x v, x ∈ s.inputs → Standing i u → P u → Delivered i u x v → P v)
    (hin : ∀ u l, P u → P { u with inputs := l }) : P t ∧ (t.phase = .idle ∨ Standing i t) := by
  cases hd : inDomain i with
  | false => rw [exec_outside_domain i s hd] at he; cases he
  | true =>
    rw [exec_idle i s hd hs] at he
    obtain ⟨t', ht', hp⟩ := drive_keeps i P s.inputs hP hin _ (first_standing i s) h0
    rw [ht'] at he
    cases he
    exact hp

theorem exec_keeps_busy (i : Instr) (s t : State) (P : State → Prop) (hs : Standing i s) (hf : inFlight s = some i)
    (he : exec i s = .next t) (h0 : P s)
    (hP : ∀ u x v, x ∈ s.inputs → Standing i u → P u → Delivered i u x v → P v)
    (hin : ∀ u l, P u → P { u with inputs := l }) : P t ∧ (t.phase = .idle ∨ Standing i t) := by
  cases hd : inDomain i with
  | false => rw [exec_outside_domain i s hd] at he; cases he
  | true =>
    rw [exec_inFlight i s hd hs.busy hf] at he
    obtain ⟨t', ht', hp⟩ := drive_keeps i P s.inputs hP hin s hs h0
    rw [ht'] at he
    cases he
    exact hp

/-- Every command of the model completes or waits, from every idle state, whatever its latches hold or do not hold, and from
every state in which it waits: no fault, no refusal. -/
theorem exec_answers (i : Instr) (s : State) (hd : inDomain i = true) (hs : s.phase = .idle ∨ (Standing i s ∧ inFlight s = some i)) :
    ∃ t, exec i s = .next t := by
  rcases hs with hs | ⟨hs, hf⟩
  · rw [exec_idle i s hd hs]
    obtain ⟨t, ht, _⟩ := drive_keeps i (fun _ => True) s.inputs (fun _ _ _ _ _ _ _ => trivial) (fun _ _ _ => trivial) _ (first_standing i s) trivial
    exact ⟨t, ht⟩
  · rw [exec_inFlight i s hd hs.busy hf]
    obtain ⟨t, ht, _⟩ := drive_keeps i (fun _ => True) s.inputs (fun _ _ _ _ _ _ _ => trivial) (fun _ _ _ => trivial) _ hs trivial
    exact ⟨t, ht⟩

/-! ## Steps -/

theorem consistent_iff (s : State) : s.Consistent ↔ s.sequencerOk = true ∧ s.responseOk = true ∧ s.buffersOk = true := by
  simp [State.Consistent, and_assoc]

theorem sequencerOk_busy (s : State) (hs : s.phase ≠ .idle) :
    s.sequencerOk = true ↔
      ∃ i, inFlight s = some i ∧ inDomain i = true ∧ i.withinBounds s.params = true ∧ Standing i s := by
  unfold State.sequencerOk
  rw [if_neg hs]
  cases hf : inFlight s with
  | none => simp
  | some i =>
    have hops := ((inFlight_iff s i).mp hf).1
    simp only [Bool.and_eq_true, decide_eq_true_eq, Bool.or_eq_true, Bool.not_eq_true', Option.some.injEq, exists_eq_left']
    constructor
    · rintro ⟨⟨⟨⟨h1, hb⟩, h2⟩, h3⟩, h4⟩
      obtain ⟨r, hr⟩ := Option.isSome_iff_exists.mp h2
      refine ⟨h1, hb, hs, hops, ⟨r, by rw [h3, hr], hr⟩, fun h => ?_⟩
      rcases h4 with h4 | h4
      · rw [h4] at h; cases h
      · exact h4
    · rintro ⟨h1, hb, h2⟩
      obtain ⟨r, hr, hr'⟩ := h2.req
      refine ⟨⟨⟨⟨h1, hb⟩, by rw [hr']; rfl⟩, by rw [hr, hr']⟩, ?_⟩
      cases hp : s.phase.isPoll with
      | false => exact .inl rfl
      | true => exact .inr (h2.polls hp)

theorem noAnswer_delivered (x : Input) (s t : State) (h : deliver noAnswer x s = .next t) (hr : s.request = none) :
    (∃ r, t = { s with port := s.port ++ [r] }) ∨ t = { s with rspPending := false } ∨ (∃ n, t = resetState n s) ∨ t = s := by
  cases x with
  | command r => cases h; exact .inl ⟨r, rfl⟩
  | take => cases h; exact .inr (.inl rfl)
  | reset n => cases h; exact .inr (.inr (.inl ⟨n, rfl⟩))
  | silent => cases h; exact .inr (.inr (.inr rfl))
  | late => cases h; exact .inr (.inr (.inr rfl))
  | txOk | txFail _ | rxOk _ | rxFail =>
    simp only [deliver] at h
    rw [hr] at h
    cases h
    exact .inr (.inr (.inr rfl))

theorem noAnswer_next (x : Input) (s : State) (hr : s.request = none) : ∃ t, deliver noAnswer x s = .next t := by
  cases x <;> simp [deliver, hr]

/-- Everything a step from a consistent state can be: it takes an input, runs or refuses the command at the port, answers an
unassigned code, refuses what is no record, or goes on with the command in flight. -/
theorem step_cases (s : State) (hc : s.Consistent) :
    (s.phase = .idle ∧ s.port = [] ∧ ∃ x l n, n ≥ s.drawn ∧ step s = deliver noAnswer x { s with inputs := l, drawn := n } ∧ s.request = none) ∨
    (s.phase = .idle ∧ ∃ r rest i, s.port = r :: rest ∧ decode r = .ok i ∧ i.withinBounds s.params = true ∧
      step s = exec i { s with port := rest }) ∨
    (s.phase = .idle ∧ ∃ r rest i, s.port = r :: rest ∧ decode r = .ok i ∧ i.withinBounds s.params = false ∧
      step s = .refused .lengthBound) ∨
    (s.phase = .idle ∧ ∃ r rest op f len, s.port = r :: rest ∧ decode r = .error (.unassigned op f len) ∧ step s = .next (rejectUnassigned op f len { s with port := rest })) ∨
    (s.phase = .idle ∧ ∃ r rest, s.port = r :: rest ∧ decode r = .error .malformed ∧ step s = .refused .malformedRecord) ∨
    (∃ i, inFlight s = some i ∧ inDomain i = true ∧ i.withinBounds s.params = true ∧ Standing i s ∧
      step s = exec i (topUp s)) := by
  obtain ⟨hq, _, _⟩ := (consistent_iff s).mp hc
  by_cases hs : s.phase = .idle
  · have hreq : s.request = none := by simpa [State.sequencerOk, hs] using hq
    cases hp : s.port with
    | nil =>
      refine .inl ⟨hs, rfl, ?_⟩
      cases hin : s.inputs with
      | nil => exact ⟨Config.world s.drawn, [], s.drawn + 1, by omega, by simp [step, stepBcc, hs, stepIdle, hp, takeInput, hin], hreq⟩
      | cons x l => exact ⟨x, l, s.drawn, le_refl _, by simp [step, stepBcc, hs, stepIdle, hp, takeInput, hin], hreq⟩
    | cons r rest =>
      cases hd : decode r with
      | ok i =>
        cases hb : i.withinBounds s.params with
        | true => exact .inr (.inl ⟨hs, r, rest, i, rfl, hd, hb, by simp [step, stepBcc, hs, stepIdle, hp, hd, startCommand, hb]⟩)
        | false => exact .inr (.inr (.inl ⟨hs, r, rest, i, rfl, hd, hb, by simp [step, stepBcc, hs, stepIdle, hp, hd, startCommand, hb]⟩))
      | error e =>
        cases e with
        | unassigned op f len => exact .inr (.inr (.inr (.inl ⟨hs, r, rest, op, f, len, rfl, hd, by simp [step, stepBcc, hs, stepIdle, hp, hd]⟩)))
        | malformed => exact .inr (.inr (.inr (.inr (.inl ⟨hs, r, rest, rfl, hd, by simp [step, stepBcc, hs, stepIdle, hp, hd]⟩))))
  · obtain ⟨i, hf, hd, hb, hst⟩ := (sequencerOk_busy s hs).mp hq
    exact .inr (.inr (.inr (.inr (.inr ⟨i, hf, hd, hb, hst, by simp [step, stepBcc, hs, stepBusy, hf]⟩))))

theorem topUp_eq (s : State) : ∃ l n, s.drawn ≤ n ∧ topUp s = { s with inputs := l, drawn := n } := by
  unfold topUp
  cases h : s.inputs with
  | nil => exact ⟨[Config.world s.drawn], s.drawn + 1, by simp, rfl⟩
  | cons x l => exact ⟨s.inputs, s.drawn, le_refl _, rfl⟩

theorem standing_inputs {i : Instr} {s : State} (h : Standing i s) (l : List Input) (n : Nat) : Standing i { s with inputs := l, drawn := n } :=
  ⟨h.busy, h.ops, h.req, h.polls⟩

end Sys2Proof.Machine
end

