-- ==== Sys2Proof/Laws/Select.lean ====
section
/-!
SUPPORT. Laws/Select.lean: the whole of `SelectAndRead` (41_register_access.md R140), one lemma per way it can end, for
every command that runs it.
-/
namespace Sys2Proof.Machine

/-- The state at the start of the select write's wait. -/
def selBase (i : Instr) (f : Fields) (s : State) : State :=
  { accept i s with
        work := ⟨s.work.stat, some 0, s.work.old, s.work.mask, s.work.new⟩, phase := .txWait .sTx, request := none
        trace := (accept i s).trace ++ [Event.tx (encIW s.params f.addr [f.reg]), .txOk] }

/-- `i` runs `SelectAndRead(n)` and goes on with `k`. -/
structure IsSelect (i : Instr) (f : Fields) (n : Nat) (k : SelectResult → State → Out) : Prop where
  dom : inDomain i = true
  lbl : firstLabel i = .sTx
  frm : ∀ p, firstFrame p i = encIW p f.addr [f.reg]
  fld : i.fields = f
  wait : HandlesWait (answerOf i) .s (selectWaited n k)
  sTx : ∀ a t, t.phase = .txWait .sTx → answerOf i a t = selectAnswer n k a t
  sIr : ∀ a t, t.phase = .txWait .sIr → answerOf i a t = selectAnswer n k a t
  sRx : ∀ a t, t.phase = .rxWait .sRx → answerOf i a t = selectAnswer n k a t

/-- The select frame is answered OK: its wait begins. -/
theorem sel_start {i f n k} (h : IsSelect i f n k) (s : State) (hs : s.phase = .idle) (rest) (hi : s.inputs = .txOk :: rest) :
    exec i s = drive (answerOf i) rest (issuePoll .s (selBase i f s)) := by
  rw [exec_idle i s h.dom hs, h.lbl, h.frm, hi, drive_cons _ _ _ _ (by simp)]
  simp only [deliver, issueTx_request, answerTo]
  rw [h.sTx _ _ (by simp)]
  simp [selectAnswer, takeAnswer, issueTx, answerEvent, startWait, setPolls, accept, latchRecord, selBase]

/-- The select frame fails. -/
theorem sel_frame_fail {i f n k} (h : IsSelect i f n k) (s : State) (hs : s.phase = .idle) (j rest) (hi : s.inputs = .txFail j :: rest) :
    exec i s = (k .fail { accept i s with phase := .txWait .sTx, request := none, trace := (accept i s).trace ++ [Event.tx (encIW s.params f.addr [f.reg]), .txFail ((encIW s.params f.addr [f.reg]).take j)] }).andThen (drive (answerOf i) rest) := by
  rw [exec_idle i s h.dom hs, h.lbl, h.frm, hi, drive_cons _ _ _ _ (by simp)]
  simp only [deliver, issueTx_request, answerTo]
  rw [h.sTx _ _ (by simp)]
  simp [selectAnswer, takeAnswer, issueTx, answerEvent, accept, latchRecord, deliveredPart]

/-- The select write's wait runs out. -/
theorem sel_timeout {i f n k} (h : IsSelect i f n k) (s : State) (hs : s.phase = .idle) (ms rest)
    (hm : allMiss s.params ms = true) (hp : s.params.maxPolls = some ms.length) (h0 : 0 < ms.length)
    (hi : s.inputs = .txOk :: (missInputs ms ++ rest)) :
    ∃ ph, exec i s = (k .timeout { missed ms (selBase i f s) with phase := ph, request := none }).andThen (drive (answerOf i) rest) := by
  rw [sel_start h s hs _ hi]
  exact drive_timeout _ _ _ h.wait ms rest _ rfl hm hp h0

/-- The select write's poll never reads the sentinel. -/
theorem sel_hang {i f n k} (h : IsSelect i f n k) (s : State) (hs : s.phase = .idle) (ms)
    (hm : allMiss s.params ms = true) (hb : withinBound s.params ms.length = true)
    (hi : s.inputs = .txOk :: missInputs ms) :
    exec i s = .next { issuePoll .s (missed ms (selBase i f s)) with inputs := [] } := by
  rw [sel_start h s hs _ hi, ← List.append_nil (missInputs ms), drive_misses _ _ _ h.wait ms _ (selBase i f s) 0 rfl hm (by simpa [selBase, accept, latchRecord] using hb)]
  rfl

/-- The state after the wait, with the read frame out. -/
def irState (i : Instr) (f : Fields) (n : Nat) (ms : List Miss) (s : State) : State :=
  issueTx .sIr (encIR s.params f.addr (BitVec.ofNat 8 n)) { accept i s with
    work := ⟨some s.params.okSentinel, some ms.length, s.work.old, s.work.mask, s.work.new⟩
    trace := (accept i s).trace ++ ([Event.tx (encIW s.params f.addr [f.reg]), .txOk] ++ waitEvents s.params ms) }

/-- The wait ends OK: the read frame is out. -/
theorem sel_waited {i f n k} (h : IsSelect i f n k) (s : State) (hs : s.phase = .idle) (ms rest)
    (hm : allMiss s.params ms = true) (hb : withinBound s.params ms.length = true)
    (hi : s.inputs = .txOk :: (waitInputs s.params ms ++ rest)) :
    exec i s = drive (answerOf i) rest (irState i f n ms s) := by
  rw [sel_start h s hs _ hi, waitInputs, List.append_assoc, drive_misses _ _ _ h.wait ms _ (selBase i f s) 0 rfl hm (by simpa [selBase, accept, latchRecord] using hb)]
  refine (drive_ok _ _ _ h.wait rest (missed ms (selBase i f s))).trans ?_
  have ha : (accept i s).ops.addr = some f.addr := by rw [← h.fld]; rfl
  simp only [selectWaited, missed, selBase, ha, readHeld_some, Out.andThen_next]
  simp [irState, issueTx, waitEvents, encIW, forceWrite, accept, latchRecord]

/-- The read frame fails. -/
theorem sel_ir_fail {i f n k} (h : IsSelect i f n k) (s : State) (hs : s.phase = .idle) (ms j rest)
    (hm : allMiss s.params ms = true) (hb : withinBound s.params ms.length = true)
    (hi : s.inputs = .txOk :: (waitInputs s.params ms ++ (.txFail j :: rest))) :
    exec i s = (k .fail { irState i f n ms s with request := none, trace := (irState i f n ms s).trace ++ [.txFail ((encIR s.params f.addr (BitVec.ofNat 8 n)).take j)]}).andThen (drive (answerOf i) rest) := by
  rw [sel_waited h s hs ms _ hm hb hi, drive_cons _ _ _ _ (by simp [irState])]
  simp only [deliver, irState, issueTx_request, answerTo]
  rw [h.sIr _ _ (by simp)]
  simp [selectAnswer, takeAnswer, issueTx, answerEvent, deliveredPart]

/-- The `RxRead` fails. -/
theorem sel_rx_fail {i f n k} (h : IsSelect i f n k) (s : State) (hs : s.phase = .idle) (ms rest)
    (hm : allMiss s.params ms = true) (hb : withinBound s.params ms.length = true)
    (hi : s.inputs = .txOk :: (waitInputs s.params ms ++ (.txOk :: .rxFail :: rest))) :
    exec i s = (k .fail { irState i f n ms s with phase := .rxWait .sRx, request := none, trace := (irState i f n ms s).trace ++ [.txOk, .rx n, .rxFail]}).andThen (drive (answerOf i) rest) := by
  rw [sel_waited h s hs ms _ hm hb hi, drive_cons _ _ _ _ (by simp [irState])]
  simp only [deliver, irState, issueTx_request, answerTo]
  rw [h.sIr _ _ (by simp)]
  simp only [selectAnswer, takeAnswer_phase, issueTx_phase, Out.andThen_next]
  rw [drive_cons _ _ _ _ (by simp)]
  simp only [deliver, issueRx_request, answerTo]
  rw [h.sRx _ _ (by simp)]
  simp [selectAnswer, takeAnswer, issueTx, issueRx, answerEvent]

/-- The `RxRead` answers the bytes asked for. -/
theorem sel_rx_ok {i f n k} (h : IsSelect i f n k) (s : State) (hs : s.phase = .idle) (ms rest bytes)
    (hm : allMiss s.params ms = true) (hb : withinBound s.params ms.length = true) (hn : bytes.length = n)
    (hi : s.inputs = .txOk :: (waitInputs s.params ms ++ (.txOk :: .rxOk bytes :: rest))) :
    exec i s = (k (.ok bytes) { irState i f n ms s with phase := .rxWait .sRx, request := none, buf := ⟨i.data?, some bytes⟩, trace := (irState i f n ms s).trace ++ [.txOk, .rx n, .rxOk bytes]}).andThen (drive (answerOf i) rest) := by
  rw [sel_waited h s hs ms _ hm hb hi, drive_cons _ _ _ _ (by simp [irState])]
  simp only [deliver, irState, issueTx_request, answerTo]
  rw [h.sIr _ _ (by simp)]
  simp only [selectAnswer, takeAnswer_phase, issueTx_phase, Out.andThen_next]
  rw [drive_cons _ _ _ _ (by simp)]
  simp only [deliver, issueRx_request, answerTo, hn, if_true]
  rw [h.sRx _ _ (by simp)]
  simp [selectAnswer, takeAnswer, issueTx, issueRx, answerEvent, setRxbuf, accept, latchRecord]

theorem isSelect_read (i : Instr) (f : Fields) (n : Nat) (k) (hd : inDomain i = true) (hl : firstLabel i = .sTx)
   (hf : ∀ p, firstFrame p i = encIW p f.addr [f.reg]) (hfl : i.fields = f)
   (ha : answerOf i = selectAnswer n k) : IsSelect i f n k :=
  ⟨hd, hl, hf, hfl, ha ▸ selectAnswer_handlesWait n k, fun _ _ _ => by rw [ha], fun _ _ _ => by rw [ha], fun _ _ _ => by rw [ha]⟩

theorem isSelect_field (f : Fields) (len : Byte) (hd : fieldDomain f.pos f.wid = true) :
    IsSelect (.regWrField f len) f 1 fieldAfterRead :=
  ⟨hd, rfl, fun _ => rfl, rfl, regWrField_handlesSelectWait,
   fun _ _ h => by simp [answerOf, regWrFieldAnswer, h], fun _ _ h => by simp [answerOf, regWrFieldAnswer, h],
   fun _ _ h => by simp [answerOf, regWrFieldAnswer, h]⟩

end Sys2Proof.Machine
end

