-- ==== Sys2Proof/Laws/Writes.lean ====
section
/-!
SUPPORT. Laws/Writes.lean: how a command that sends one IW frame and then waits (40_codec.md R112, 41_register_access.md R141,
R142) comes to its wait.
-/
namespace Sys2Proof.Machine

/-- `i` sends `EncIW(a8, d)` at step `own` and then waits. -/
structure IsWrite (i : Instr) (own : Label) (site : Site) (a8 : Byte) (d : List Byte) : Prop where
  dom : inDomain i = true
  lbl : firstLabel i = own
  frm : ∀ p, firstFrame p i = encIW p a8 d
  ans : answerOf i = writeAnswer own site
  own : own ≠ .pTx site

/-- The state at the start of the wait. -/
def writeBase (i : Instr) (own : Label) (a8 : Byte) (d : List Byte) (s : State) : State :=
  { accept i s with
    work := ⟨s.work.stat, some 0, s.work.old, s.work.mask, s.work.new⟩
    phase := .txWait own
    request := none
    trace := (accept i s).trace ++ [Event.tx (encIW s.params a8 d), .txOk] }

theorem write_start {i own site a8 d} (h : IsWrite i own site a8 d) (s : State) (hs : s.phase = .idle) (rest)
    (hi : s.inputs = .txOk :: rest) :
    exec i s = drive (answerOf i) rest (issuePoll site (writeBase i own a8 d s)) := by
  rw [exec_idle i s h.dom hs, h.lbl, h.frm, hi, h.ans, drive_cons _ _ _ _ (by simp)]
  simp [deliver, answerTo, writeAnswer, takeAnswer, issueTx, answerEvent, startWait, setPolls, accept, latchRecord, writeBase]

theorem write_handlesWait {i own site a8 d} (h : IsWrite i own site a8 d) : HandlesWait (answerOf i) site writeDone :=
  h.ans ▸ writeAnswer_handlesWait own site h.own

theorem isWrite_i2cWrite (f : Fields) (d : List Byte) : IsWrite (.i2cWrite f d) .wTx .w f.addr d :=
  ⟨rfl, rfl, fun _ => rfl, rfl, by decide⟩

theorem isWrite_regWrByte (f : Fields) (len : Byte) : IsWrite (.regWrByte f len) .wbTx .wb f.addr [f.reg, f.val] :=
  ⟨rfl, rfl, fun _ => rfl, rfl, by decide⟩

theorem isWrite_regWrBytes (f : Fields) (d : List Byte) : IsWrite (.regWrBytes f d) .wsTx .ws f.addr d :=
  ⟨rfl, rfl, fun _ => rfl, rfl, by decide⟩

end Sys2Proof.Machine
end

