-- ==== Sys2Proof/Tests/Slice0.lean ====
section
/-!
SUPPORT. Tests/Slice0.lean: the model's own tests, with the expected results taken from spec/95_test_vectors.md (its vector's
name stands before each), and the witnesses of the obligations' hypotheses.
-/
namespace Sys2Proof.Tests

open Sys2Proof Sys2Proof.Machine

/-! ## Helpers -/

/-- The parameters of the vectors: OK_SENTINEL 0xF0 is their example value. -/
def params (maxPolls : Option Nat) : Params :=
  { statusRegAddr := 0x0A, okSentinel := 0xF0, maxLen := 255, maxBulkLen := 255, maxPolls := maxPolls
    mkS := 0x53, mkP := 0x50, mkR := 0x52, mkW := 0x57 }

def idle (maxPolls : Option Nat) (inputs : List Input) : State :=
  { State.reset with params := params maxPolls, inputs := inputs }

def atPort (maxPolls : Option Nat) (record : List Byte) (inputs : List Input) : State :=
  { idle maxPolls inputs with port := [record] }

/-- What the ports showed, and the response register. -/
def seen (o : Host.Outcome State Fault Refusal) : Option (List Event × Option Response) :=
  match o with
  | .next t => some (t.trace, t.rsp)
  | .fault _ => none
  | .refused _ => none

/-- The next state, or `State.reset`. -/
def got (o : Host.Outcome State Fault Refusal) : State :=
  match o with
  | .next t => t
  | .fault _ => State.reset
  | .refused _ => State.reset

def isRefused (o : Host.Outcome State Fault Refusal) (r : Refusal) : Bool :=
  match o with
  | .refused r' => decide (r' = r)
  | .next _ => false
  | .fault _ => false

def isNext (o : Host.Outcome State Fault Refusal) : Bool :=
  match o with
  | .next _ => true
  | .fault _ => false
  | .refused _ => false

/-- A whole command at the ports: acceptance, transport events, response. -/
def whole (record : List Byte) (events : List Event) (r : Response) : Option (List Event × Option Response) :=
  some (.accept record :: (events ++ [.response r]), some r)

/-- `POLL xx` of the vectors, before the answers `rest`; and its events, before the events `rest`. -/
def poll (b : Byte) (rest : List Input) : List Input := .txOk :: .rxOk [b] :: rest
def pollSeen (b : Byte) (rest : List Event) : List Event := .tx [0x52, 0x0A, 0x50] :: .txOk :: .rx 1 :: .rxOk [b] :: rest

/-- A frame that was sent, before the events `rest`. -/
def sent (frame : List Byte) (rest : List Event) : List Event := .tx frame :: .txOk :: rest

/-- `SEL(reg)` of the vectors for slave D0. -/
def select (rest : List Input) : List Input := .txOk :: poll 0xF0 rest
def selectSeen (reg : Byte) (rest : List Event) : List Event := sent [0x53, 0xD0, 0x01, reg, 0x50] (pollSeen 0xF0 rest)

def bare (st : Status) : Response := ⟨st, none, none, none⟩

/-! ## WellFormed: a data field of 256 bytes is refused, one of 255 is not -/

theorem test_wellFormed_i2cWrite (f : Fields) :
    (Instr.i2cWrite f (List.replicate 256 0)).wellFormed = false ∧
    (Instr.i2cWrite f (List.replicate 255 0)).wellFormed = true := by
  rw [Instr.wellFormed, Instr.wellFormed, List.length_replicate, List.length_replicate]; decide

theorem test_wellFormed_brgWrBulk (f : Fields) :
    (Instr.brgWrBulk f (List.replicate 256 0)).wellFormed = false ∧
    (Instr.brgWrBulk f (List.replicate 255 0)).wellFormed = true := by
  rw [Instr.wellFormed, Instr.wellFormed, List.length_replicate, List.length_replicate]; decide

theorem test_wellFormed_regWrBytes (f : Fields) :
    (Instr.regWrBytes f (List.replicate 256 0)).wellFormed = false ∧
    (Instr.regWrBytes f (List.replicate 255 0)).wellFormed = true := by
  rw [Instr.wellFormed, Instr.wellFormed, List.length_replicate, List.length_replicate]; decide

/-- A configuration of smaller length bounds: at most 2 bytes, at most 1 byte of bulk data. -/
def narrow : Params := { params none with maxLen := 2, maxBulkLen := 1 }

-- R9, R85: the bound itself is within it, one more is not
theorem test_withinBounds (f : Fields) :
    (Instr.i2cWrite f [1, 2]).withinBounds narrow = true ∧ (Instr.i2cWrite f [1, 2, 3]).withinBounds narrow = false ∧
    (Instr.i2cRead f 2).withinBounds narrow = true ∧ (Instr.i2cRead f 3).withinBounds narrow = false ∧
    (Instr.regWrBytes f [1, 2]).withinBounds narrow = true ∧ (Instr.regWrBytes f [1, 2, 3]).withinBounds narrow = false ∧
    (Instr.brgWrBulk f [1]).withinBounds narrow = true ∧ (Instr.brgWrBulk f [1, 2]).withinBounds narrow = false ∧
    (Instr.i2cRead f 255).withinBounds (params none) = true := ⟨rfl, rfl, rfl, rfl, rfl, rfl, rfl, rfl, rfl⟩

/-! ## Decoding: one record per row of R89, byte by byte from R90 -/

-- V1
theorem test_decode_i2cWrite :
    decode [0x01, 0xD1, 0, 0, 0, 0, 0x02, 0x6B, 0x00] = .ok (.i2cWrite ⟨0xD1, 0, 0, 0, 0⟩ [0x6B, 0x00]) := rfl
-- V7
theorem test_decode_i2cRead : decode [0x02, 0xD0, 0, 0, 0, 0, 0x02] = .ok (.i2cRead ⟨0xD0, 0, 0, 0, 0⟩ 0x02) := rfl
-- V12
theorem test_decode_brgRdReg : decode [0x03, 0, 0x0A, 0, 0, 0, 0] = .ok (.brgRdReg ⟨0, 0x0A, 0, 0, 0⟩ 0) := rfl
-- V16
theorem test_decode_brgWrReg : decode [0x04, 0, 0x02, 0x5A, 0, 0, 0] = .ok (.brgWrReg ⟨0, 0x02, 0x5A, 0, 0⟩ 0) := rfl
-- V18
theorem test_decode_brgWrBulk : decode [0x05, 0, 0, 0, 0, 0, 0x04, 0x02, 0x5A, 0x03, 0x00]
    = .ok (.brgWrBulk ⟨0, 0, 0, 0, 0⟩ [0x02, 0x5A, 0x03, 0x00]) := rfl
-- V37
theorem test_decode_regWrByte :
    decode [0x10, 0xD0, 0x50, 0x53, 0, 0, 0] = .ok (.regWrByte ⟨0xD0, 0x50, 0x53, 0, 0⟩ 0) := rfl
-- V38
theorem test_decode_regWrBytes : decode [0x11, 0xD0, 0, 0, 0, 0, 0x03, 0x19, 0x07, 0x00]
    = .ok (.regWrBytes ⟨0xD0, 0, 0, 0, 0⟩ [0x19, 0x07, 0x00]) := rfl
-- V21
theorem test_decode_regRdByte : decode [0x12, 0xD0, 0x75, 0, 0, 0, 0] = .ok (.regRdByte ⟨0xD0, 0x75, 0, 0, 0⟩ 0) := rfl
-- V27
theorem test_decode_regRd16 : decode [0x13, 0xD0, 0x3B, 0, 0, 0, 0] = .ok (.regRd16 ⟨0xD0, 0x3B, 0, 0, 0⟩ 0) := rfl
-- V31
theorem test_decode_regRd24be : decode [0x14, 0xD0, 0x20, 0, 0, 0, 0] = .ok (.regRd24be ⟨0xD0, 0x20, 0, 0, 0⟩ 0) := rfl
-- V40: byte 3 is VAL, byte 4 POS, byte 5 WID
theorem test_decode_regWrField :
    decode [0x15, 0xD0, 0x1C, 0x02, 0x04, 0x03, 0] = .ok (.regWrField ⟨0xD0, 0x1C, 0x02, 0x04, 0x03⟩ 0) := rfl
-- R90, R101: a data field of another length than LEN, a data field where there is none, a short header
theorem test_decode_malformed :
    decode [0x01, 0xD0, 0, 0, 0, 0, 0x02, 0x6B] = .error .malformed ∧
    decode [0x02, 0xD0, 0, 0, 0, 0, 0x02, 0x6B] = .error .malformed ∧
    decode [0x02, 0xD0, 0, 0, 0, 0] = .error .malformed := ⟨rfl, rfl, rfl⟩
-- The opcode table's numbering: byte 0 is bits 7..0, and operand bytes that the table gives no bits are 0
theorem test_decodeTableWord :
    decodeTableWord 8 0x15 = some (.regWrField ⟨0, 0, 0, 0, 0⟩ 0) ∧
    decodeTableWord 56 0x0003041CD015 = some (.regWrField ⟨0xD0, 0x1C, 0x04, 0x03, 0⟩ 0) ∧
    decodeTableWord 8 0x06 = none := by decide

/-! ## Frames and the frame decoder -/

-- E1 to E4, E6 to E14
theorem test_frames :
    let p := params none
    encIW p 0xD0 [0x6B, 0x00] = [0x53, 0xD0, 0x02, 0x6B, 0x00, 0x50] ∧
    encIW p 0xD1 [0x6B, 0x00] = [0x53, 0xD0, 0x02, 0x6B, 0x00, 0x50] ∧
    encIW p 0x3C [] = [0x53, 0x3C, 0x00, 0x50] ∧
    encIW p 0xA0 [0x50, 0x53] = [0x53, 0xA0, 0x02, 0x50, 0x53, 0x50] ∧
    encIR p 0xD0 0x02 = [0x53, 0xD1, 0x02, 0x50] ∧ encIR p 0xD1 0x00 = [0x53, 0xD1, 0x00, 0x50] ∧
    encIR p 0x00 0xFF = [0x53, 0x01, 0xFF, 0x50] ∧ pollFrame p = [0x52, 0x0A, 0x50] ∧
    encRR p 0x50 = [0x52, 0x50, 0x50] ∧ encRW p 0x02 0x5A = [0x57, 0x02, 0x5A, 0x50] ∧
    encRB p [0x02, 0x5A] = [0x57, 0x02, 0x5A, 0x50] ∧ encRB p [] = [0x57, 0x50] := by decide

-- DF1 to DF7
theorem test_decodeFrame_valid :
    let p := params none
    decodeFrame p [0x53, 0xD0, 0x02, 0x6B, 0x00, 0x50] = some (.iw 0xD0 [0x6B, 0x00]) ∧
    decodeFrame p [0x53, 0xD0, 0x00, 0x50] = some (.iw 0xD0 []) ∧
    decodeFrame p [0x53, 0xD0, 0x01, 0x50, 0x50] = some (.iw 0xD0 [0x50]) ∧
    decodeFrame p [0x53, 0xD1, 0x02, 0x50] = some (.ir 0xD1 0x02) ∧
    decodeFrame p [0x52, 0x0A, 0x50] = some (.rr 0x0A) ∧
    decodeFrame p [0x57, 0x02, 0x5A, 0x50] = some (.rb [0x02, 0x5A]) ∧
    decodeFrame p [0x57, 0x50] = some (.rb []) := by decide

-- R95 with MK_S = MK_R: the 'S' case needs four bytes, so a frame of three falls through to the RR case (log 27)
theorem test_decodeFrame_equalMarkers :
    let p := { params none with mkS := 0x52 }
    decodeFrame p [0x52, 0x0A, 0x50] = some (.rr 0x0A) ∧ decodeFrame p [0x52, 0xD0, 0x00, 0x50] = some (.iw 0xD0 []) := by
  decide

-- DF8 to DF18
theorem test_decodeFrame_invalid :
    [[], [0x50], [0x57], [0x53, 0xD0, 0x03, 0x6B, 0x00, 0x50], [0x53, 0xD0, 0x02, 0x50], [0x53, 0xD1, 0x02, 0x00, 0x50],
      [0x52, 0x0A], [0x52, 0x0A, 0x50, 0x00], [0x57, 0x02, 0x5A], [0x53, 0xD0, 0x02, 0x6B, 0x00, 0x00],
      [0x41, 0x42, 0x50]].all (fun f => decodeFrame (params none) f = none) = true := by decide

/-! ## Field arithmetic -/

/-- One row: old, val, pos, wid; lsb, mask, cleared, NEW. -/
def fieldRow (old val pos wid : Byte) (lsb : Nat) (mask cleared new : Byte) : Bool :=
  decide (fieldLsb pos wid = lsb) && decide (fieldMask pos wid = mask) && decide (fieldCleared old pos wid = cleared)
    && decide (fieldInsert old val pos wid = new)

-- F1 to F17
theorem test_fields :
    (fieldRow 0xAF 0x02 4 3 2 0x1C 0xA3 0xAB && fieldRow 0xFF 0x00 7 8 0 0xFF 0x00 0x00
      && fieldRow 0x00 0xFF 7 8 0 0xFF 0x00 0xFF && fieldRow 0x5A 0xA5 7 8 0 0xFF 0x00 0xA5
      && fieldRow 0x12 0x07 3 0 4 0x00 0x12 0x12 && fieldRow 0x00 0xFF 0 0 1 0x00 0x00 0x00
      && fieldRow 0x00 0x01 0 1 0 0x01 0x00 0x01 && fieldRow 0xFF 0x00 0 1 0 0x01 0xFE 0xFE
      && fieldRow 0x00 0x01 7 1 7 0x80 0x00 0x80 && fieldRow 0xFF 0x00 6 1 6 0x40 0xBF 0xBF
      && fieldRow 0x00 0xFF 4 3 2 0x1C 0x00 0x1C && fieldRow 0x00 0x09 4 3 2 0x1C 0x00 0x04
      && fieldRow 0x00 0x03 4 2 3 0x18 0x00 0x18 && fieldRow 0xFF 0x01 4 2 3 0x18 0xE7 0xEF
      && fieldRow 0x00 0x01 4 3 2 0x1C 0x00 0x04 && fieldRow 0xE7 0x03 4 2 3 0x18 0xE7 0xFF
      && fieldRow 0x40 0x00 6 1 6 0x40 0x00 0x00) = true := by decide

-- the FieldDomain table
theorem test_fieldDomain :
    [(0, 0), (0, 1), (3, 4), (7, 0), (7, 8)].all (fun (x : Byte × Byte) => fieldDomain x.1 x.2) = true ∧
    [(0, 2), (3, 5), (7, 9), (8, 1), (0xFF, 0)].all (fun (x : Byte × Byte) => !fieldDomain x.1 x.2) = true := by decide

/-! ## The commands, at most two tests each -/

-- V1: bit 0 of the address is forced
theorem test_i2cWrite_ok :
    seen (step (atPort none [0x01, 0xD1, 0, 0, 0, 0, 0x02, 0x6B, 0x00] (.txOk :: poll 0xF0 []))) =
      whole [0x01, 0xD1, 0, 0, 0, 0, 0x02, 0x6B, 0x00]
        (sent [0x53, 0xD0, 0x02, 0x6B, 0x00, 0x50] (pollSeen 0xF0 [])) (bare .stOk) := by decide

-- V5: MAX_POLLS = 2
theorem test_i2cWrite_timeout :
    seen (step (atPort (some 2) [0x01, 0xD0, 0, 0, 0, 0, 0x02, 0x6B, 0x80] (.txOk :: poll 0x00 (poll 0x00 [])))) =
      whole [0x01, 0xD0, 0, 0, 0, 0, 0x02, 0x6B, 0x80]
        (sent [0x53, 0xD0, 0x02, 0x6B, 0x80, 0x50] (pollSeen 0x00 (pollSeen 0x00 []))) (bare .stTimeout) := by
  decide

-- V7
theorem test_i2cRead_ok :
    seen (step (atPort none [0x02, 0xD0, 0, 0, 0, 0, 0x02] [.txOk, .rxOk [0x12, 0x34]])) =
      whole [0x02, 0xD0, 0, 0, 0, 0, 0x02] [.tx [0x53, 0xD1, 0x02, 0x50], .txOk, .rx 2, .rxOk [0x12, 0x34]]
        ⟨.stOk, none, some [0x12, 0x34], some 2⟩ := by decide

-- V10: no bytes is not no value
theorem test_i2cRead_zero :
    seen (step (atPort none [0x02, 0xD1, 0, 0, 0, 0, 0x00] [.txOk, .rxOk []])) =
      whole [0x02, 0xD1, 0, 0, 0, 0, 0x00] [.tx [0x53, 0xD1, 0x00, 0x50], .txOk, .rx 0, .rxOk []]
        ⟨.stOk, none, some [], some 0⟩ := by decide

-- V13: one read, not retried
theorem test_brgRdReg_notOk :
    seen (step (atPort none [0x03, 0, 0x0A, 0, 0, 0, 0] [.txOk, .rxOk [0x00]])) =
      whole [0x03, 0, 0x0A, 0, 0, 0, 0] [.tx [0x52, 0x0A, 0x50], .txOk, .rx 1, .rxOk [0x00]]
        ⟨.stOk, some 0, some [0x00], some 1⟩ := by decide

-- V15
theorem test_brgRdReg_fail :
    seen (step (atPort none [0x03, 0, 0x02, 0, 0, 0, 0] [.txOk, .rxFail])) =
      whole [0x03, 0, 0x02, 0, 0, 0, 0] [.tx [0x52, 0x02, 0x50], .txOk, .rx 1, .rxFail] (bare .stFail) := by decide

-- V16
theorem test_brgWrReg_ok :
    seen (step (atPort none [0x04, 0, 0x02, 0x5A, 0, 0, 0] [.txOk])) =
      whole [0x04, 0, 0x02, 0x5A, 0, 0, 0] [.tx [0x57, 0x02, 0x5A, 0x50], .txOk] (bare .stNone) := by decide

-- V17
theorem test_brgWrReg_fail :
    seen (step (atPort none [0x04, 0, 0x02, 0x5A, 0, 0, 0] [.txFail 2])) =
      whole [0x04, 0, 0x02, 0x5A, 0, 0, 0] [.tx [0x57, 0x02, 0x5A, 0x50], .txFail [0x57, 0x02]] (bare .stNone) := by decide

-- V18
theorem test_brgWrBulk_ok :
    seen (step (atPort none [0x05, 0, 0, 0, 0, 0, 0x04, 0x02, 0x5A, 0x03, 0x00] [.txOk])) =
      whole [0x05, 0, 0, 0, 0, 0, 0x04, 0x02, 0x5A, 0x03, 0x00]
        [.tx [0x57, 0x02, 0x5A, 0x03, 0x00, 0x50], .txOk] (bare .stNone) := by decide

-- V19
theorem test_brgWrBulk_fail :
    seen (step (atPort none [0x05, 0, 0, 0, 0, 0, 0x00] [.txFail 0])) =
      whole [0x05, 0, 0, 0, 0, 0, 0x00] [.tx [0x57, 0x50], .txFail []] (bare .stNone) := by decide

-- V37: register and value equal to markers
theorem test_regWrByte_ok :
    seen (step (atPort none [0x10, 0xD0, 0x50, 0x53, 0, 0, 0] (.txOk :: poll 0xF0 []))) =
      whole [0x10, 0xD0, 0x50, 0x53, 0, 0, 0]
        (sent [0x53, 0xD0, 0x02, 0x50, 0x53, 0x50] (pollSeen 0xF0 [])) (bare .stOk) := by decide

-- V36
theorem test_regWrByte_fail :
    seen (step (atPort none [0x10, 0xD0, 0x1B, 0x00, 0, 0, 0] [.txFail 3])) =
      whole [0x10, 0xD0, 0x1B, 0x00, 0, 0, 0]
        [.tx [0x53, 0xD0, 0x02, 0x1B, 0x00, 0x50], .txFail [0x53, 0xD0, 0x02]] (bare .stFail) := by decide

-- V38 with the script of W3: a poll whose TxWrite fails has no RX, and failed polls are retried
theorem test_regWrBytes_retries :
    seen (step (atPort none [0x11, 0xD0, 0, 0, 0, 0, 0x03, 0x19, 0x07, 0x00]
        (.txOk :: .txFail 1 :: .txOk :: .rxFail :: poll 0xF0 []))) =
      whole [0x11, 0xD0, 0, 0, 0, 0, 0x03, 0x19, 0x07, 0x00]
        (sent [0x53, 0xD0, 0x03, 0x19, 0x07, 0x00, 0x50] (.tx [0x52, 0x0A, 0x50] :: .txFail [0x52] ::
          sent [0x52, 0x0A, 0x50] (.rx 1 :: .rxFail :: pollSeen 0xF0 []))) (bare .stOk) := by decide

-- V39 with the script of W4: all 8 bits of the status are compared; L.POLLS and L.STAT as in W4
theorem test_regWrBytes_polls :
    (got (step (atPort none [0x11, 0xD0, 0, 0, 0, 0, 0x00]
      (.txOk :: poll 0xF1 (poll 0x70 (poll 0xF0 [])))))).work = ⟨some 0xF0, some 2, none, none, none⟩ := by decide

-- V26: no masking
theorem test_regRdByte_ok :
    seen (step (atPort none [0x12, 0xD1, 0x75, 0, 0, 0, 0] (select [.txOk, .rxOk [0xF1]]))) =
      whole [0x12, 0xD1, 0x75, 0, 0, 0, 0]
        (selectSeen 0x75 [.tx [0x53, 0xD1, 0x01, 0x50], .txOk, .rx 1, .rxOk [0xF1]])
        ⟨.stOk, some 0x000000F1, some [0xF1], some 1⟩ := by decide

-- V25: MAX_POLLS = 1
theorem test_regRdByte_timeout :
    seen (step (atPort (some 1) [0x12, 0xD0, 0x75, 0, 0, 0, 0] (.txOk :: poll 0x00 []))) =
      whole [0x12, 0xD0, 0x75, 0, 0, 0, 0]
        (sent [0x53, 0xD0, 0x01, 0x75, 0x50] (pollSeen 0x00 [])) (bare .stTimeout) := by decide

-- V27
theorem test_regRd16_ok :
    seen (step (atPort none [0x13, 0xD0, 0x3B, 0, 0, 0, 0] (select [.txOk, .rxOk [0x12, 0x34]]))) =
      whole [0x13, 0xD0, 0x3B, 0, 0, 0, 0]
        (selectSeen 0x3B [.tx [0x53, 0xD1, 0x02, 0x50], .txOk, .rx 2, .rxOk [0x12, 0x34]])
        ⟨.stOk, some 0x00003412, some [0x12, 0x34], some 2⟩ := by decide

-- V30
theorem test_regRd16_fail :
    seen (step (atPort none [0x13, 0xD0, 0x3B, 0, 0, 0, 0] (select [.txOk, .rxFail]))) =
      whole [0x13, 0xD0, 0x3B, 0, 0, 0, 0]
        (selectSeen 0x3B [.tx [0x53, 0xD1, 0x02, 0x50], .txOk, .rx 2, .rxFail]) (bare .stFail) := by decide

-- V33
theorem test_regRd24be_ok :
    seen (step (atPort none [0x14, 0xD0, 0x20, 0, 0, 0, 0] (select [.txOk, .rxOk [0x80, 0x00, 0x01]]))) =
      whole [0x14, 0xD0, 0x20, 0, 0, 0, 0]
        (selectSeen 0x20 [.tx [0x53, 0xD1, 0x03, 0x50], .txOk, .rx 3, .rxOk [0x80, 0x00, 0x01]])
        ⟨.stOk, some 0x00800001, some [0x80, 0x00, 0x01], some 3⟩ := by decide

-- V34
theorem test_regRd24be_fail :
    seen (step (atPort none [0x14, 0xD0, 0x20, 0, 0, 0, 0] [.txFail 5])) =
      whole [0x14, 0xD0, 0x20, 0, 0, 0, 0]
        [.tx [0x53, 0xD0, 0x01, 0x20, 0x50], .txFail [0x53, 0xD0, 0x01, 0x20, 0x50]] (bare .stFail) := by decide

-- V40: L.OLD = AF, L.MASK = 1C, L.NEW = AB
theorem test_regWrField_ok :
    let o := step (atPort none [0x15, 0xD0, 0x1C, 0x02, 0x04, 0x03, 0]
      (select (.txOk :: .rxOk [0xAF] :: .txOk :: poll 0xF0 [])))
    seen o = whole [0x15, 0xD0, 0x1C, 0x02, 0x04, 0x03, 0]
        (selectSeen 0x1C (sent [0x53, 0xD1, 0x01, 0x50] (.rx 1 :: .rxOk [0xAF] ::
          sent [0x53, 0xD0, 0x02, 0x1C, 0xAB, 0x50] (pollSeen 0xF0 [])))) (bare .stNone) ∧
      (got o).work = ⟨some 0xF0, some 0, some 0xAF, some 0x1C, some 0xAB⟩ := by decide

-- V47, V48, V49
theorem test_regWrField_refused :
    isRefused (step (atPort none [0x15, 0xD0, 0x1C, 0x01, 0x03, 0x05, 0] [])) .fieldDomain = true ∧
    isRefused (step (atPort none [0x15, 0xD0, 0x1C, 0x01, 0x08, 0x01, 0] [])) .fieldDomain = true ∧
    isRefused (step (atPort none [0x15, 0xD0, 0x1C, 0x01, 0x07, 0x09, 0] [])) .fieldDomain = true := by decide

-- I1 to I5
theorem test_illegal :
    [[0x00, 0, 0, 0, 0, 0, 0], [0x06, 0xD0, 0, 0, 0, 0, 0], [0x0F, 0xD0, 0x1C, 0, 0, 0, 0],
      [0x16, 0xD0, 0x1C, 0, 0, 0, 0], [0xFF, 0xFF, 0xFF, 0xFF, 0xFF, 0xFF, 0xFF]].all
      (fun r => decide (seen (step (atPort none r [])) = whole r [] (bare .stIllegal))) = true := by decide

-- P5, step 1: reset while a poll's RxRead is outstanding; every latch holds no value, no response
theorem test_reset_inFlight :
    let t := got (step (atPort none [0x10, 0xD0, 0x6B, 0x80, 0, 0, 0] (.txOk :: poll 0x00 [.txOk, .reset 0])))
    t.phase = .idle ∧ t.ops = .empty ∧ t.work = .empty ∧ t.buf = ⟨none, none⟩ ∧ t.rsp = none ∧ t.request = none ∧
      responsesIn t.trace = [] := by decide

-- The first step after reset, with a table word placed: the command is accepted and its first frame is out
theorem test_withFetchWord :
    (got (step (State.reset.withFetchWord 8 0x02))).request = some (.tx [0x53, 0x01, 0x00, 0x50]) := by decide

/-! ## Witnesses: for each obligation with hypotheses, states and operands that meet them, clause by clause

A witness of several clauses is one conjunction per clause, with the boundary values of the clause's range. -/

def fW : Fields := ⟨0xD1, 0x1C, 0x02, 0x04, 0x03⟩

/-- I2C_WRITE waits for its frame's answer. -/
def busyFrame : State := got (exec (.i2cWrite fW [0x6B, 0x00]) (idle none []))

/-- I2C_WRITE waits at its second poll, after one not-OK poll. -/
def busyPoll : State := got (exec (.i2cWrite fW [0x6B, 0x00]) (idle none (.txOk :: poll 0x00 [])))

/-- I2C_READ waits for its bytes. -/
def busyRead : State := got (exec (.i2cRead fW 2) (idle none [.txOk]))

/-- The answers of a wait that ends OK after the not-OK polls `ms`, before the answers `rest`. -/
def waitThen (p : Params) (ms : List Miss) (rest : List Input) : List Input := waitInputs p ms ++ rest

def oneMiss : List Miss := [.read 0x00]
def threeMisses : List Miss := [.txFail 2, .rxFail, .read 0xF1]

theorem witness_DecodeIsTheInverseOfEncode :
    (Instr.i2cWrite fW [0x6B, 0x00]).wellFormed = true ∧
    encode (.i2cWrite fW [0x6B, 0x00]) = [0x01, 0xD1, 0x1C, 0x02, 0x04, 0x03, 0x02, 0x6B, 0x00] := by decide

theorem witness_EncodersGiveTheWireBytes :
    standardParams (params none) = true ∧ (List.replicate 255 (0 : Byte)).length ≤ 255 ∧ ([] : List Byte).length ≤ 255 ∧
    (List.replicate 255 (0 : Byte)).length ≤ (params none).maxBulkLen :=
  ⟨by decide, by rw [List.length_replicate], by decide, by rw [List.length_replicate]; decide⟩

theorem witness_FrameDecoderLaws :
    standardParams (params (some 1)) = true ∧ (List.replicate 255 (0 : Byte)).length ≤ 255 ∧
    (List.replicate 255 (0 : Byte)).length ≤ (params (some 1)).maxBulkLen ∧
    [0x53, 0xD0, (0x00 : Byte)].getLast? ≠ some 0x50 ∧
    ((0xD0 : Byte).getLsbD 0 = false ∧ [(0x50 : Byte)].length ≠ (0x01 : Byte).toNat + 1) ∧
    ((0xD1 : Byte).getLsbD 0 = true ∧ [0x00, (0x50 : Byte)].length ≠ 1) :=
  ⟨by decide, by rw [List.length_replicate], by rw [List.length_replicate]; decide, by decide, by decide,
    by decide⟩

theorem witness_DecodedFrameIsEncoded :
    standardParams (params none) = true ∧ decodeFrame (params none) [0x53, 0xD0, 0x00, 0x50] = some (.iw 0xD0 []) ∧
    decodeFrame (params none) [0x53, 0xD1, 0xFF, 0x50] = some (.ir 0xD1 0xFF) ∧
    decodeFrame (params none) [0x52, 0x50, 0x50] = some (.rr 0x50) ∧
    decodeFrame (params none) [0x57, 0x50] = some (.rb []) := by decide

theorem witness_FieldInsertBitByBit :
    fieldDomain 0 0 = true ∧ fieldDomain 0 1 = true ∧ fieldDomain 7 0 = true ∧ fieldDomain 7 8 = true ∧
    fieldDomain 4 3 = true := by decide

theorem witness_RegWrFieldRefusedExactlyOutsideDomain :
    (idle none []).phase = .idle ∧ (idle none []).inputs = [] ∧ (idle none [.reset 1]).phase = .idle ∧ fieldDomain 7 8 = true ∧ fieldDomain 7 9 = false ∧
    fieldDomain 8 1 = false ∧ fieldDomain 3 5 = false := by decide

/-- The five clauses of `WriteBehaves`, which I2cWriteBehaves, RegWrByteBehaves and RegWrBytesBehaves share; the bound is met
with no poll, with one poll and with MAX_POLLS - 1 polls. -/
theorem witness_WriteBehaves :
    (allMiss (params none) threeMisses = true ∧ withinBound (params none) threeMisses.length = true ∧
      (idle none (.txOk :: waitThen (params none) threeMisses [.take])).phase = .idle) ∧
    (allMiss (params (some 1)) [] = true ∧ withinBound (params (some 1)) 0 = true) ∧
    (allMiss (params (some 4)) threeMisses = true ∧ withinBound (params (some 4)) threeMisses.length = true) ∧
    (idle none [.txFail 0, .take]).inputs = .txFail 0 :: [.take] ∧
    (allMiss (params (some 1)) oneMiss = true ∧ (params (some 1)).maxPolls = some oneMiss.length ∧ 0 < oneMiss.length) ∧
    (allMiss (params (some 3)) threeMisses = true ∧ (params (some 3)).maxPolls = some threeMisses.length) ∧
    (idle none []).inputs = [] := by decide

theorem witness_I2cWriteBehaves : (List.replicate 255 (0 : Byte)).length ≤ 255 ∧
    (idle none (.txOk :: missInputs threeMisses)).inputs = .txOk :: missInputs threeMisses :=
  ⟨by rw [List.length_replicate], rfl⟩

/-- The conclusion of a clause, reached at its witness: three not-OK polls, then the sentinel. -/
theorem witness_I2cWriteBehaves_ok :
    let s := idle (some 4) (.txOk :: waitThen (params (some 4)) threeMisses [.take])
    exec (.i2cWrite fW [0x6B]) s = .next (finished (.i2cWrite fW [0x6B]) (polled (some 0xF0) 3 s.work) s.buf.rx
      (bareResponse .stOk)
      ([Event.tx [0x53, 0xD0, 0x01, 0x6B, 0x50], .txOk] ++ waitEvents (params (some 4)) threeMisses) [.take] s) := rfl

theorem witness_I2cReadBehaves :
    ([] : List Byte).length = (0 : Byte).toNat ∧ (List.replicate 255 (0 : Byte)).length = (255 : Byte).toNat ∧
    (idle none [.txOk, .rxOk [], .take]).inputs = .txOk :: .rxOk [] :: [.take] ∧
    (idle none [.txFail 4]).inputs = .txFail 4 :: [] ∧ (idle none [.txOk, .rxFail]).inputs = .txOk :: .rxFail :: [] ∧
    (idle none [.txOk]).inputs = [.txOk] ∧ (idle none []).phase = .idle :=
  ⟨rfl, by rw [List.length_replicate]; rfl, rfl, rfl, rfl, rfl, rfl⟩

theorem witness_BrgRdRegBehaves :
    (idle none [.txOk, .rxOk [0xFF]]).inputs = .txOk :: .rxOk [0xFF] :: [] ∧
    (idle none [.txFail 3]).inputs = .txFail 3 :: [] ∧ (idle none [.txOk, .rxFail]).inputs = .txOk :: .rxFail :: [] ∧
    (idle none []).inputs = [] ∧ (idle none []).phase = .idle := ⟨rfl, rfl, rfl, rfl, rfl⟩

/-- The three clauses of `ForgetBehaves`, which BrgWrRegBehaves and BrgWrBulkBehaves share. -/
theorem witness_ForgetBehaves :
    (idle none [.txOk, .take]).inputs = .txOk :: [.take] ∧ (idle none [.txFail 0]).inputs = .txFail 0 :: [] ∧
    (idle none []).inputs = [] ∧ (idle none []).phase = .idle ∧ (List.replicate 255 (0 : Byte)).length ≤ 255 ∧
    (Instr.brgWrReg fW 0).withinBounds (params none) = true ∧
    (Instr.brgWrBulk fW (List.replicate 255 0)).withinBounds (params none) = true :=
  ⟨rfl, rfl, rfl, rfl, by rw [List.length_replicate], rfl, by rw [Instr.withinBounds, List.length_replicate]; rfl⟩

/-- The clauses of `ReadSucceeds` and `ReadFails`, which the three register reads share. -/
theorem witness_ReadBehaves :
    let p := params (some 4)
    let s := fun (rest : List Input) => idle (some 4) (.txOk :: waitThen p threeMisses rest)
    (allMiss p threeMisses = true ∧ withinBound p threeMisses.length = true ∧ (s []).phase = .idle) ∧
    (s [.txOk, .rxOk [1, 2, 3], .take]).inputs =
      .txOk :: waitThen p threeMisses (.txOk :: .rxOk [1, 2, 3] :: [.take]) ∧
    (s [.txFail 4]).inputs = .txOk :: waitThen p threeMisses (.txFail 4 :: []) ∧
    (s [.txOk, .rxFail]).inputs = .txOk :: waitThen p threeMisses (.txOk :: .rxFail :: []) ∧
    (idle (some 4) [.txFail 5]).inputs = .txFail 5 :: [] ∧
    (allMiss (params (some 3)) threeMisses = true ∧ (params (some 3)).maxPolls = some threeMisses.length ∧
      0 < threeMisses.length) ∧
    (idle none (.txOk :: missInputs oneMiss)).inputs = .txOk :: missInputs oneMiss := by decide

/-- The conclusion of a success clause, reached at its witness. -/
theorem witness_RegRd24beBehaves_ok :
    let s := idle (some 4) (.txOk :: waitThen (params (some 4)) threeMisses [.txOk, .rxOk [0x12, 0x34, 0x56]])
    exec (.regRd24be fW 0) s = .next (finished (.regRd24be fW 0) (polled (some 0xF0) 3 s.work) (some [0x12, 0x34, 0x56])
      ⟨.stOk, some 0x00123456, some [0x12, 0x34, 0x56], some 3⟩
      (selectEvents (params (some 4)) fW threeMisses ++
        [Event.tx [0x53, 0xD1, 0x03, 0x50], .txOk, .rx 3, .rxOk [0x12, 0x34, 0x56]]) [] s) := rfl

/-- The hypotheses of RegWrFieldCompletes, RegWrFieldSwallowsAFailedRead and RegWrFieldDoesNotReportTheWriteBack: the waits
are those of `witness_ReadBehaves`. -/
theorem witness_RegWrField :
    let p := params (some 4)
    let back := fun (rest : List Input) =>
      idle (some 4) (.txOk :: waitThen p oneMiss (.txOk :: .rxOk [0xAF] :: rest))
    (fieldDomain fW.pos fW.wid = true ∧ allMiss p oneMiss = true ∧ withinBound p oneMiss.length = true ∧
      withinBound p threeMisses.length = true ∧ (back []).phase = .idle) ∧
    (back (.txOk :: waitThen p threeMisses [])).inputs =
      .txOk :: waitThen p oneMiss (.txOk :: .rxOk [0xAF] :: .txOk :: waitThen p threeMisses []) ∧
    (back [.txFail 0]).inputs = .txOk :: waitThen p oneMiss (.txOk :: .rxOk [0xAF] :: .txFail 0 :: []) ∧
    (back (.txOk :: missInputs oneMiss)).inputs =
      .txOk :: waitThen p oneMiss (.txOk :: .rxOk [0xAF] :: .txOk :: missInputs oneMiss) := by decide

/-- The write-back's wait runs out: MAX_POLLS is the number of its polls, and above that of the first wait. -/
theorem witness_RegWrFieldDoesNotReportTheWriteBack :
    let p := params (some 3)
    allMiss p oneMiss = true ∧ withinBound p oneMiss.length = true ∧ allMiss p threeMisses = true ∧
    p.maxPolls = some threeMisses.length ∧
    (got (exec (.regWrField fW 0) (idle (some 3)
      (.txOk :: waitThen p oneMiss (.txOk :: .rxOk [0xAF] :: .txOk :: missInputs threeMisses))))).rsp =
      some (bareResponse .stNone) := by decide

/-- A command that responds, one that waits, and one that a reset abandons. -/
theorem witness_ResponsesAsTheStatusTable :
    (noReset (.txOk :: poll 0xF0 []) = true ∧
      isNext (exec (.i2cWrite fW [0x6B]) (idle none (.txOk :: poll 0xF0 []))) = true ∧
      (got (exec (.i2cWrite fW [0x6B]) (idle none (.txOk :: poll 0xF0 [])))).phase = .idle) ∧
    (noReset [] = true ∧ busyFrame.phase = .txWait .wTx) ∧
    (noReset [.reset 2] = false ∧ (got (exec (.i2cWrite fW [0x6B]) (idle none [.reset 2]))).phase = .idle) := by decide

/-- REG_WR_FIELD and REG_RD_BYTE complete from an idle state with no reset among the inputs. -/
theorem witness_FrameOfTheCommands :
    (idle none [.txFail 1]).phase = .idle ∧ noReset [.txFail 1] = true ∧
    isNext (exec (.regWrField fW 0) (idle none [.txFail 1])) = true ∧
    isNext (exec (.regRdByte fW 0) (idle none [.txFail 1])) = true ∧
    isNext (exec (.i2cWrite fW []) (idle none [.txFail 1])) = true ∧
    isNext (exec (.brgRdReg fW 0) (idle none [.txFail 1])) = true ∧
    isNext (exec (.brgWrBulk fW []) (idle none [.txFail 1])) = true := by decide

/-- V20 beside V1: the ignored fields of the one record are FF, of the other 00. -/
theorem witness_IgnoredFieldsHaveNoEffect :
    eraseIgnored (.i2cWrite ⟨0xD0, 0xFF, 0xFF, 0xFF, 0xFF⟩ [0x6B, 0x00]) =
      eraseIgnored (.i2cWrite ⟨0xD0, 0, 0, 0, 0⟩ [0x6B, 0x00]) ∧
    isNext (exec (.i2cWrite ⟨0xD0, 0xFF, 0xFF, 0xFF, 0xFF⟩ [0x6B, 0x00]) (idle none (.txOk :: poll 0xF0 []))) = true ∧
    (idle none (.txOk :: poll 0xF0 [])).phase = .idle := by decide

theorem witness_EquivalentCommandsAgreeAtThePorts :
    isNext (exec (.regWrByte fW 7) (idle none (.txOk :: poll 0xF0 []))) = true ∧
    isNext (exec (.regWrBytes fW [1]) (idle none [.txFail 0])) = true ∧
    isNext (exec (.brgWrReg fW 7) (idle none [])) = true ∧ (idle none []).phase = .idle := by decide

/-- Both cases: the select write reports STATUS_OK, and it does not. -/
theorem witness_RegRdByteIsSelectThenRead :
    (let u := got (exec (.i2cWrite fW [fW.reg]) (idle none (select [.txOk, .rxOk [0x71]])));
      noReset (select [.txOk, .rxOk [0x71]]) = true ∧ u.phase = .idle ∧ u.rsp = some (bareResponse .stOk)) ∧
    (let u := got (exec (.i2cWrite fW [fW.reg]) (idle none [.txFail 0]));
      u.phase = .idle ∧ u.rsp = some (bareResponse .stFail)) := by decide

theorem witness_UnboundedPollingIsAHang :
    polls (.regWrField fW 0) = true ∧ inDomain (.regWrField fW 0) = true ∧ (params none).maxPolls = none ∧
    allMiss (params none) threeMisses = true ∧
    (idle none (.txOk :: missInputs threeMisses)).phase = .idle := by decide

theorem witness_SilentTransportChangesNothing :
    let s := { busyPoll with inputs := [.silent, .late, .silent] }
    s.phase = .txWait (.pTx .w) ∧ inFlight s = some (.i2cWrite fW [0x6B, 0x00]) ∧
    inDomain (.i2cWrite fW [0x6B, 0x00]) = true ∧ (s.inputs.all fun x => x = .silent || x = .late) = true := by decide

theorem witness_ResumingIsOneRun :
    (Instr.i2cWrite fW [0x6B, 0x00]).wellFormed = true ∧ (idle none []).phase = .idle ∧
    exec (.i2cWrite fW [0x6B, 0x00]) (idle none []) = .next busyFrame ∧ busyFrame.phase ≠ .idle := by
  refine ⟨by decide, rfl, rfl, by decide⟩

theorem witness_CommandsAreHeldWhileBusy :
    busyFrame.phase ≠ .idle ∧ inDomain (.i2cRead fW 2) = true ∧ inFlight busyFrame ≠ some (.i2cRead fW 2) ∧
    isNext (step { busyFrame with port := [[0x02]], inputs := [.txOk] }) = true := by decide

theorem witness_StepRunsTheDecodedCommand :
    (let s := atPort none [0x02, 0xD0, 0, 0, 0, 0, 0x02] [];
      s.phase = .idle ∧ s.port = [[0x02, 0xD0, 0, 0, 0, 0, 0x02]] ∧
      decode [0x02, 0xD0, 0, 0, 0, 0, 0x02] = .ok (.i2cRead ⟨0xD0, 0, 0, 0, 0⟩ 2) ∧
      (Instr.i2cRead ⟨0xD0, 0, 0, 0, 0⟩ 2).withinBounds s.params = true ∧
      (Instr.i2cRead ⟨0xD0, 0, 0, 0, 0⟩ 2).wellFormed = true) ∧
    ((Instr.brgWrBulk ⟨0, 0, 0, 0, 0⟩ [1, 2]).withinBounds narrow = false ∧
      decode [0x05, 0, 0, 0, 0, 0, 0x02, 1, 2] = .ok (.brgWrBulk ⟨0, 0, 0, 0, 0⟩ [1, 2])) ∧
    (busyRead.phase ≠ .idle ∧ inFlight busyRead = some (.i2cRead fW 2)) :=
  ⟨⟨rfl, rfl, rfl, rfl, rfl⟩, ⟨rfl, rfl⟩, by decide⟩

/-- The boundaries of the unassigned codes: 00, 06, 0F, 16, FF. -/
theorem witness_UnassignedCodeIsIllegal :
    ([0x00, 0x06, 0x0F, 0x16, 0xFF].all fun op =>
      decide (op ∉ [0x01, 0x02, 0x03, 0x04, 0x05, 0x10, 0x11, 0x12, 0x13, 0x14, (0x15 : Byte)])) = true ∧
    (atPort none [0x06, 0xD0, 0, 0, 0, 0, 0] []).port = [0x06, 0xD0, 0, 0, 0, 0, 0] :: [] ∧
    (atPort none [0x06, 0xD0, 0, 0, 0, 0, 0] []).phase = .idle := by decide

/-- Each reason once, and a record that is none of them. -/
theorem witness_MalformedRecordIsRefused :
    isRefused (step (atPort none [] [])) .malformedRecord = true ∧
    isRefused (step (atPort none [0x05, 0, 0, 0, 0, 0] [])) .malformedRecord = true ∧
    isRefused (step (atPort none [0x05, 0, 0, 0, 0, 0, 0x01] [])) .malformedRecord = true ∧
    isRefused (step (atPort none [0x06, 0, 0, 0, 0, 0, 0x01, 0x00] [])) .malformedRecord = true ∧
    isRefused (step (atPort none [0x05, 0, 0, 0, 0, 0, 0x01, 0x00] [])) .malformedRecord = false := by decide

theorem witness_ResetAbandonsTheCommand :
    (let s := { busyFrame with inputs := [.reset 3, .late] };
      s.phase ≠ .idle ∧ inFlight s = some (.i2cWrite fW [0x6B, 0x00]) ∧ s.inputs = .reset 3 :: [.late]) ∧
    (let t := idle none [.late, .take];
      t.phase = .idle ∧ t.port = [] ∧ t.inputs = .late :: [.take]) := by decide

/-- An idle state in which RSP, a latch and a buffer hold values: after BRG_RD_REG. -/
theorem witness_ResetInIdleGivesTheResetState :
    let s := { got (step (atPort none [0x03, 0, 0x0A, 0, 0, 0, 0] [.txOk, .rxOk [0x77]])) with inputs := [.reset 0, .take] }
    s.phase = .idle ∧ s.port = [] ∧ s.inputs = .reset 0 :: [.take] ∧ s.rspPending = true ∧
    s.rsp = some ⟨.stOk, some 0x77, some [0x77], some 1⟩ ∧ s.buf.rx = some [0x77] ∧ s.ops.op = some 0x03 ∧
    (got (step s)).rsp = none ∧ (got (step s)).ops.op = none := by decide

theorem witness_HostInputsArePassedOn :
    (busyFrame.phase ≠ .idle ∧ inFlight busyFrame = some (.i2cWrite fW [0x6B, 0x00])) ∧
    (idle none [.command [0x02]]).inputs = .command [0x02] :: [] ∧ (idle none [.take]).inputs = .take :: [] ∧
    (idle none [.take]).phase = .idle ∧ (idle none [.take]).port = [] := by decide

theorem witness_FreeInputIsTheNextInput :
    (busyFrame.inputs = [] ∧ busyFrame.phase ≠ .idle) ∧ (State.reset.inputs = [] ∧ State.reset.port = []) := by decide

theorem witness_MissingResponseFieldIsAFault :
    State.reset.rsp = none ∧
    (got (step (atPort none [0x06, 0, 0, 0, 0, 0, 0] []))).rsp = some (bareResponse .stIllegal) := by decide

/-- A step in which nothing responds and nothing resets. -/
theorem witness_OnlyResponsesWriteRsp :
    step { busyFrame with inputs := [.silent] } = .next { busyFrame with inputs := [] } ∧
    responsesIn [] = [] := ⟨rfl, rfl⟩

/-- States that meet the invariants and from which a step answers a next state: idle with a command, and busy at a frame, at a
poll and at a read. -/
theorem witness_StepKeepsConsistent :
    ((atPort none [0x02, 0xD0, 0, 0, 0, 0, 0x02] []).Consistent ∧ busyFrame.Consistent ∧ busyPoll.Consistent ∧
      busyRead.Consistent) ∧
    isNext (step (atPort none [0x02, 0xD0, 0, 0, 0, 0, 0x02] [])) = true ∧
    isNext (step { busyFrame with inputs := [.txOk] }) = true ∧
    isNext (step { busyPoll with inputs := [.txOk, .rxOk [0xF0]] }) = true ∧
    isNext (step { busyRead with inputs := [.rxOk [1, 2]] }) = true := by decide

/-- The four outcomes of ConsistentStateNeverFaults (a next state in `witness_StepKeepsConsistent`), each from a consistent state. -/
theorem witness_ConsistentStateNeverFaults :
    (atPort none [0x15, 0, 0, 0, 8, 1, 0] []).Consistent ∧
    isRefused (step (atPort none [0x15, 0, 0, 0, 8, 1, 0] [])) .fieldDomain = true ∧
    (atPort none [0x01] []).Consistent ∧ isRefused (step (atPort none [0x01] [])) .malformedRecord = true ∧
    { atPort none [0x05, 0, 0, 0, 0, 0, 0x02, 1, 2] [] with params := narrow }.Consistent ∧
    isRefused (step { atPort none [0x05, 0, 0, 0, 0, 0, 0x02, 1, 2] [] with params := narrow }) .lengthBound = true := by
  decide

/-- The last command responded, waits, and is abandoned by a reset in the same run; and one in flight that a later reset
abandons. -/
theorem witness_RunHasEndedWhenItsLastCommandResponded :
    (let s := idle none (.txOk :: poll 0xF0 [.take]);
      s.phase = .idle ∧ s.port = [] ∧ noCommand s.inputs = true ∧ noReset s.inputs = true ∧
      (got (exec (.i2cWrite fW [0x6B]) s)).ended = true) ∧
    (got (exec (.i2cWrite fW [0x6B]) (idle none []))).ended = false ∧
    (got (exec (.i2cWrite fW [0x6B]) (idle none [.reset 2]))).ended = false ∧
    (let s := { busyFrame with inputs := [.reset 3, .late] };
      s.port = [] ∧ noCommand s.inputs = true ∧ s.phase ≠ .idle ∧ inFlight s = some (.i2cWrite fW [0x6B, 0x00]) ∧
      s.Consistent ∧ s.TraceInOrder ∧ isNext (exec (.i2cWrite fW [0x6B, 0x00]) s) = true) := by decide

theorem witness_StepKeepsTheTraceInOrder :
    busyPoll.Consistent ∧ busyPoll.TraceInOrder ∧ busyRead.TraceInOrder ∧
    isNext (step { busyPoll with inputs := [.txOk] }) = true := by decide

theorem witness_StepSendsOnlyKnownFrames : busyFrame.Consistent ∧ busyFrame.FramesKnown := by
  refine ⟨by decide, fun frame h => ?_⟩
  have ht : busyFrame.trace = [.accept (encode (.i2cWrite fW [0x6B, 0x00])), .tx (encIW (params none) 0xD1 [0x6B, 0x00])] :=
    rfl
  rw [ht] at h
  simp only [List.mem_cons, reduceCtorEq, Event.tx.injEq, List.not_mem_nil, or_false, false_or] at h
  exact .inl ⟨0xD1, [0x6B, 0x00], by decide, h⟩

theorem witness_StepKeepsParametersAndTrace : isNext (step { busyFrame with inputs := [.txFail 1] }) = true := by decide

end Sys2Proof.Tests
end

section
/-!
PROOFS. The consistency invariant: every step keeps it (O43), no step from a consistent state faults (O44), and the
reset state has it (O42).
-/
namespace Sys2Proof.Machine

/-! ## Consistency of the parts of a state -/

/-- A record that decodes holds a well-formed command (R90, R101). -/
theorem wellFormed_of_decode {r : List Byte} {i : Instr} (h : decode r = .ok i) : i.wellFormed = true := by
  unfold decode at h
  split at h
  · obtain ⟨_, _, _, _, hw⟩ := (decodeOp_ok_iff _ _ _ _ _).mp h
    exact hw
  · cases h

theorem data_length_of_wellFormed {i : Instr} (h : i.wellFormed = true) : (i.data?.getD []).length ≤ 255 := by
  cases i with
  | i2cWrite f d | brgWrBulk f d | regWrBytes f d => exact of_decide_eq_true h
  | _ => exact Nat.zero_le _

theorem inDomain_of_exec_next {i : Instr} {s t : State} (h : exec i s = .next t) : inDomain i = true := by
  cases hd : inDomain i with
  | true => rfl
  | false => rw [exec_outside_domain i s hd] at h; cases h

theorem sequencerOk_idle {s : State} (hs : s.phase = .idle) : s.sequencerOk = true ↔ s.request = none := by
  simp [State.sequencerOk, hs]

theorem buffersOk_iff (s : State) :
    s.buffersOk = true ↔ (s.buf.tx.getD []).length ≤ 255 ∧ (s.buf.rx.getD []).length ≤ 255 := by
  simp [State.buffersOk]

/-- The parts of consistency that hold in IDLE as well as at every step of command `i`. -/
structure Sound (i : Instr) (s : State) : Prop where
  rsp : s.responseOk = true
  bufs : s.buffersOk = true
  quiet : s.phase = .idle → s.request = none
  current : s.phase ≠ .idle → inFlight s = some i
  bounds : i.withinBounds s.params = true

theorem Touches.buffersOk {i : Instr} {s : State} {w : WorkLatches} {rx : Option (List Byte)}
    (h : Touches i s w rx) (hs : s.buffersOk = true) :
    ({ s with work := w, buf := ⟨s.buf.tx, rx⟩ } : State).buffersOk = true := by
  obtain ⟨htx, hrx⟩ := (buffersOk_iff s).mp hs
  rcases h.bound with rfl | ⟨bytes, rfl, hl⟩
  · exact (buffersOk_iff _).mpr ⟨htx, hrx⟩
  · exact (buffersOk_iff _).mpr ⟨htx, hl⟩

/-- Taking an answer keeps the parts of consistency. -/
theorem Sound.advance {i : Instr} {s t : State} (h : Sound i s) (hs : s.phase ≠ .idle) (ha : Advance i s t) :
    Sound i t := by
  cases ha with
  | tx k frame w rx req poll touch =>
    exact ⟨h.rsp, touch.buffersOk h.bufs, nofun, fun _ => h.current hs, h.bounds⟩
  | rx k n w rx req poll touch =>
    exact ⟨h.rsp, touch.buffersOk h.bufs, nofun, fun _ => h.current hs, h.bounds⟩
  | done st v d w rx may wf touch =>
    exact ⟨wf, touch.buffersOk h.bufs, fun _ => rfl, fun hp => absurd rfl hp, h.bounds⟩

theorem responseOk_taken {s : State} (h : s.responseOk = true) :
    ({ s with rspPending := false } : State).responseOk = true := by
  unfold State.responseOk at h ⊢
  cases hr : s.rsp with
  | none => rfl
  | some r => simpa [hr] using h

/-- Every input keeps them. -/
theorem Sound.delivered {i : Instr} {s t : State} {x : Input} (h : Sound i s) (hs : Standing i s)
    (hd : Delivered i s x t) : Sound i t := by
  cases hd with
  | command r => exact ⟨h.rsp, h.bufs, h.quiet, h.current, h.bounds⟩
  | take => exact ⟨responseOk_taken h.rsp, h.bufs, h.quiet, h.current, h.bounds⟩
  | reset sent => exact ⟨rfl, rfl, fun _ => rfl, fun hp => absurd rfl hp, h.bounds⟩
  | nothing => exact h
  | answer r a req ans adv =>
    have h' : Sound i (takeAnswer r x s) := ⟨h.rsp, h.bufs, fun _ => rfl, h.current, h.bounds⟩
    exact h'.advance hs.busy adv

theorem Sound.inputs {i : Instr} {s : State} (h : Sound i s) (l : List Input) : Sound i { s with inputs := l } :=
  ⟨h.rsp, h.bufs, h.quiet, h.current, h.bounds⟩

/-- A command's first request goes out with the command in the latches. -/
theorem sound_first {i : Instr} {s : State} (hc : s.Consistent) (hw : i.wellFormed = true)
    (hb : i.withinBounds s.params = true) :
    Sound i (issueTx (firstLabel i) (firstFrame s.params i) (accept i s)) := by
  obtain ⟨_, hrsp, hbufs⟩ := (consistent_iff s).mp hc
  refine ⟨hrsp, (buffersOk_iff _).mpr ⟨data_length_of_wellFormed hw, ((buffersOk_iff s).mp hbufs).2⟩, nofun,
    fun _ => (inFlight_iff _ i).mpr ⟨rfl, rfl, hw⟩, hb⟩

theorem Sound.consistent {i : Instr} {s : State} (h : Sound i s) (hd : inDomain i = true)
    (hs : s.phase = .idle ∨ Standing i s) : s.Consistent := by
  refine (consistent_iff s).mpr ⟨?_, h.rsp, h.bufs⟩
  rcases hs with hs | hs
  · exact (sequencerOk_idle hs).mpr (h.quiet hs)
  · exact (sequencerOk_busy s hs.busy).mpr ⟨i, h.current hs.busy, hd, h.bounds, hs⟩

theorem exec_idle_consistent {i : Instr} {s t : State} (hc : s.Consistent) (hs : s.phase = .idle)
    (hw : i.wellFormed = true) (hb : i.withinBounds s.params = true) (he : exec i s = .next t) : t.Consistent := by
  obtain ⟨hsound, hst⟩ := exec_keeps_idle i s t (Sound i) hs he (sound_first hc hw hb)
    (fun _ _ _ _ hu h hd => h.delivered hu hd) (fun _ l h => h.inputs l)
  exact hsound.consistent (inDomain_of_exec_next he) hst

theorem exec_busy_consistent {i : Instr} {s t : State} (h : Sound i s) (hs : Standing i s) (he : exec i s = .next t) :
    t.Consistent := by
  obtain ⟨hsound, hst⟩ := exec_keeps_busy i s t (Sound i) hs (h.current hs.busy) he h
    (fun _ _ _ _ hu h hd => h.delivered hu hd) (fun _ l h => h.inputs l)
  exact hsound.consistent (inDomain_of_exec_next he) hst

/-- An unassigned code leaves a consistent state: IDLE, with a bare response (R98). -/
theorem rejectUnassigned_consistent {s : State} (op : Byte) (f : Fields) (len : Byte) (hc : s.Consistent) :
    (rejectUnassigned op f len s).Consistent := by
  obtain ⟨_, _, hbufs⟩ := (consistent_iff s).mp hc
  exact (consistent_iff _).mpr ⟨(sequencerOk_idle rfl).mpr rfl, bare_wf .stIllegal,
    (buffersOk_iff _).mpr ⟨Nat.zero_le _, ((buffersOk_iff s).mp hbufs).2⟩⟩

/-- In IDLE an input leaves a consistent state. -/
theorem noAnswer_consistent {s t : State} {x : Input} (hc : s.Consistent) (hs : s.phase = .idle)
    (h : deliver noAnswer x s = .next t) : t.Consistent := by
  obtain ⟨hq, hrsp, hbufs⟩ := (consistent_iff s).mp hc
  rcases noAnswer_delivered x s t h ((sequencerOk_idle hs).mp hq) with ⟨r, rfl⟩ | rfl | ⟨n, rfl⟩ | rfl
  · exact hc
  · exact (consistent_iff _).mpr ⟨hq, responseOk_taken hrsp, hbufs⟩
  · exact (consistent_iff _).mpr ⟨(sequencerOk_idle rfl).mpr rfl, rfl, rfl⟩
  · exact hc

/-- Settles O43: each thing a step from a consistent state can be (`step_cases`) leaves a consistent state; a command's
run does so because every input keeps `Sound`. -/
theorem stepKeepsConsistent : Obligations.StepKeepsConsistent := by
  intro s t hc ht
  rcases step_cases s hc with ⟨hs, _, x, l, n, _, he, _⟩ | ⟨hs, r, rest, i, _, hd, hb, he⟩ | ⟨_, r, rest, i, _, _, _, he⟩ |
    ⟨_, r, rest, op, f, len, _, _, he⟩ | ⟨_, r, rest, _, _, he⟩ | ⟨i, hf, _, hb, hst, he⟩ <;> rw [he] at ht
  · exact noAnswer_consistent (s := { s with inputs := l, drawn := n }) hc hs ht
  · exact exec_idle_consistent (s := { s with port := rest }) hc hs (wellFormed_of_decode hd) hb ht
  · cases ht
  · cases ht
    exact rejectUnassigned_consistent op f len (s := { s with port := rest }) hc
  · cases ht
  · obtain ⟨l, n, _, htop⟩ := topUp_eq s
    obtain ⟨_, hrsp, hbufs⟩ := (consistent_iff s).mp hc
    rw [htop] at ht
    have hsound : Sound i { s with inputs := l, drawn := n } :=
      ⟨hrsp, hbufs, fun h => absurd h hst.busy, fun _ => hf, hb⟩
    exact exec_busy_consistent hsound (standing_inputs hst l n) ht

theorem exec_idle_next_or_refused (i : Instr) {s : State} (hs : s.phase = .idle) :
    (∃ t, exec i s = .next t) ∨ exec i s = .refused .fieldDomain := by
  cases hd : inDomain i with
  | true => exact .inl (exec_answers i s hd (.inl hs))
  | false => exact .inr (exec_outside_domain i s hd)

/-- Settles O44: of the things a step from a consistent state can be, each answers or is one of the three refusals. -/
theorem consistentStateNeverFaults : Obligations.ConsistentStateNeverFaults := by
  intro s hc
  rcases step_cases s hc with ⟨_, _, x, l, n, _, he, hr⟩ | ⟨hs, r, rest, i, _, _, _, he⟩ | ⟨_, r, rest, i, _, _, _, he⟩ |
    ⟨_, r, rest, op, f, len, _, _, he⟩ | ⟨_, r, rest, _, _, he⟩ | ⟨i, hf, hd, _, hst, he⟩ <;> rw [he]
  · exact .inl (noAnswer_next x _ hr)
  · rcases exec_idle_next_or_refused i (s := { s with port := rest }) hs with h | h
    · exact .inl h
    · exact .inr (.inr (.inl h))
  · exact .inr (.inr (.inr rfl))
  · exact .inl ⟨_, rfl⟩
  · exact .inr (.inl rfl)
  · obtain ⟨l, n, _, htop⟩ := topUp_eq s
    rw [htop]
    exact .inl (exec_answers i _ hd (.inr ⟨standing_inputs hst l n, hf⟩))

/-- Settles O42: in the reset state each invariant computes, and its trace is empty. -/
theorem resetIsConsistent : Obligations.ResetIsConsistent :=
  ⟨rfl, rfl, nofun⟩

end Sys2Proof.Machine
end

section
/-!
PROOFS. The frame of the commands (O24).
-/
namespace Sys2Proof.Machine

/-! ## What a command leaves unchanged (10_state.md R21, R22, R26, R29) -/

theorem Touches.trans {i : Instr} {s u : State} {w : WorkLatches} {rx : Option (List Byte)}
    (h : Touches i s u.work u.buf.rx) (h' : Touches i u w rx) : Touches i s w rx where
  noPoll hp := (h'.noPoll hp).trans (h.noPoll hp)
  field hf := by
    obtain ⟨ho, hm, hn⟩ := h.field hf
    obtain ⟨ho', hm', hn'⟩ := h'.field hf
    exact ⟨ho'.trans ho, hm'.trans hm, hn'.trans hn⟩
  noData hd := (h'.noData hd).trans (h.noData hd)
  bound := by
    rcases h'.bound with rfl | hb
    · exact h.bound
    · exact .inr hb

/-- `t` as command `i`, accepted in `s`, may leave it while no reset comes. -/
structure Framed (i : Instr) (s t : State) : Prop where
  params : t.params = s.params
  drawn : t.drawn = s.drawn
  port : s.port <+: t.port
  trace : s.trace <+: t.trace
  ops : t.ops = latchesOf i
  txbuf : t.buf.tx = i.data?
  touch : Touches i s t.work t.buf.rx

theorem Framed.advance {i : Instr} {s u t : State} (h : Framed i s u) (ha : Advance i u t) : Framed i s t := by
  have htrace : ∀ e, s.trace <+: u.trace ++ [e] := fun e => h.trace.trans (List.prefix_append _ _)
  cases ha with
  | tx k frame w rx req poll touch =>
    exact ⟨h.params, h.drawn, h.port, htrace _, h.ops, h.txbuf, h.touch.trans touch⟩
  | rx k n w rx req poll touch =>
    exact ⟨h.params, h.drawn, h.port, htrace _, h.ops, h.txbuf, h.touch.trans touch⟩
  | done st v d w rx may wf touch =>
    exact ⟨h.params, h.drawn, h.port, htrace _, h.ops, h.txbuf, h.touch.trans touch⟩

theorem Framed.delivered {i : Instr} {s u t : State} {x : Input} (h : Framed i s u) (hx : ∀ n, x ≠ .reset n)
    (hd : Delivered i u x t) : Framed i s t := by
  cases hd with
  | command r =>
    exact ⟨h.params, h.drawn, h.port.trans (List.prefix_append _ _), h.trace, h.ops, h.txbuf, h.touch⟩
  | take => exact ⟨h.params, h.drawn, h.port, h.trace, h.ops, h.txbuf, h.touch⟩
  | reset sent => exact absurd rfl (hx sent)
  | nothing => exact h
  | answer r a req ans adv =>
    have h' : Framed i s (takeAnswer r x u) :=
      ⟨h.params, h.drawn, h.port, h.trace.trans (List.prefix_append _ _), h.ops, h.txbuf, h.touch⟩
    exact h'.advance adv

theorem Framed.inputs {i : Instr} {s u : State} (h : Framed i s u) (l : List Input) :
    Framed i s { u with inputs := l } :=
  ⟨h.params, h.drawn, h.port, h.trace, h.ops, h.txbuf, h.touch⟩

theorem framed_first (i : Instr) (s : State) :
    Framed i s (issueTx (firstLabel i) (firstFrame s.params i) (accept i s)) := by
  refine ⟨rfl, rfl, List.prefix_refl _, ?_, rfl, rfl, Touches.refl i s⟩
  exact (List.prefix_append _ _).trans (List.prefix_append _ _)

theorem ne_reset_of_noReset {inputs : List Input} (h : noReset inputs = true) {x : Input} (hx : x ∈ inputs) (n : Nat) :
    x ≠ .reset n := by
  rintro rfl
  exact Bool.false_ne_true (List.all_eq_true.mp h _ hx)

theorem exec_idle_framed {i : Instr} {s t : State} (hs : s.phase = .idle) (hn : noReset s.inputs = true)
    (he : exec i s = .next t) : Framed i s t :=
  (exec_keeps_idle i s t (Framed i s) hs he (framed_first i s)
    (fun _ _ _ hx _ h hd => h.delivered (ne_reset_of_noReset hn hx) hd) (fun _ l h => h.inputs l)).1

/-- Settles O24: the run of a command without a reset keeps `Framed`, whose clause on the work latches and `L.RXBUF` is
read off command by command. -/
theorem frameOfTheCommands : Obligations.FrameOfTheCommands := by
  intro i s t hs hn he
  obtain ⟨hparams, hdrawn, hport, htrace, hops, htx, htouch⟩ := exec_idle_framed hs hn he
  refine ⟨hparams, hdrawn, hport, htrace, hops, htx, ?_⟩
  cases i with
  | i2cWrite f d | regWrByte f len | regWrBytes f d =>
    obtain ⟨ho, hm, hnew⟩ := htouch.field rfl
    exact ⟨ho, hm, hnew, htouch.noData rfl⟩
  | i2cRead f len | brgRdReg f len => exact htouch.noPoll rfl
  | brgWrReg f len | brgWrBulk f d => exact ⟨htouch.noPoll rfl, htouch.noData rfl⟩
  | regRdByte f len | regRd16 f len | regRd24be f len => exact htouch.field rfl
  | regWrField f len => trivial

end Sys2Proof.Machine
end

section
/-!
PROOFS. What every answer function does from any state, consistent or not, said once (`answerOf_respects`).
-/
namespace Sys2Proof.Machine

/-! ## The answer functions from any state

They are built of a few named operations and read the phase, the operand and work latches and the parameters, nothing
else. So two states that agree there stay related by every relation that the operations keep. -/

/-- The operations that the answer functions are built of. -/
inductive Operation : (State → State) → Prop
  | issueTx (k : Label) (frame : List Byte) : Operation (issueTx k frame)
  | issueRx (k : Label) (n : Nat) : Operation (issueRx k n)
  | respond (st : Status) (v : Option Word32) (d : Option (List Byte)) : Operation (respond st v d)
  | setStat (v : Byte) : Operation (setStat v)
  | setPolls (n : Nat) : Operation (setPolls n)
  | setRxbuf (bytes : List Byte) : Operation (setRxbuf bytes)
  | setField (old mask new : Byte) : Operation (setField old mask new)

/-- `R` relates states that look alike to the answer functions, and the operations keep it. -/
structure Simulates (R : State → State → Prop) : Prop where
  phase {s t} : R s t → s.phase = t.phase
  ops {s t} : R s t → s.ops = t.ops
  work {s t} : R s t → s.work = t.work
  params {s t} : R s t → s.params = t.params
  step {s t f} : Operation f → R s t → R (f s) (f t)

/-- The same outcome, with related next states. -/
inductive OutRel (R : State → State → Prop) : Out → Out → Prop
  | next {s t : State} (h : R s t) : OutRel R (.next s) (.next t)
  | fault (r : Fault) : OutRel R (.fault r) (.fault r)
  | refused (r : Refusal) : OutRel R (.refused r) (.refused r)

/-- From related states `k` has related outcomes. -/
def Respects {α : Type} (R : State → State → Prop) (k : α → State → Out) : Prop :=
  ∀ a s t, R s t → OutRel R (k a s) (k a t)

theorem OutRel.readHeld {α : Type} {R : State → State → Prop} {what : Holder} {v : Option α} {k l : α → Out}
    (h : ∀ a, OutRel R (k a) (l a)) : OutRel R (readHeld what v k) (readHeld what v l) := by
  cases v with
  | none => exact .fault _
  | some a => exact h a

theorem OutRel.andThen_eq {R : State → State → Prop} {o o' : Out} {k : State → Out} (h : OutRel R o o')
    (hk : ∀ {s t}, R s t → k s = k t) : o.andThen k = o'.andThen k := by
  cases h with
  | next hst => exact hk hst
  | fault r | refused r => rfl

section
variable {R : State → State → Prop} (hR : Simulates R)
include hR

theorem Simulates.next {s t : State} {f : State → State} (hf : Operation f) (h : R s t) :
    OutRel R (.next (f s)) (.next (f t)) :=
  .next (hR.step hf h)

theorem Simulates.issuePoll {s t : State} (site : Site) (h : R s t) : R (issuePoll site s) (issuePoll site t) := by
  unfold Machine.issuePoll
  rw [hR.params h]
  exact hR.step (.issueTx _ _) h

theorem Simulates.startWait {s t : State} (site : Site) (h : R s t) :
    OutRel R (.next (startWait site s)) (.next (startWait site t)) :=
  .next (hR.issuePoll site (hR.step (.setPolls 0) h))

theorem pollMissed_respects {k : WaitResult → State → Out} (hk : Respects R k) (site : Site) {s t : State} (h : R s t) :
    OutRel R (pollMissed site k s) (pollMissed site k t) := by
  unfold pollMissed
  rw [hR.work h, hR.params h]
  refine OutRel.readHeld fun n => ?_
  have hn := hR.step (.setPolls (n + 1)) h
  split
  · exact hk _ _ _ hn
  · exact .next (hR.issuePoll site hn)

theorem pollAnswer_respects {k : WaitResult → State → Out} (hk : Respects R k) (site : Site) :
    Respects R (pollAnswer site k) := by
  intro a s t h
  cases a with
  | fail => exact pollMissed_respects hR hk site h
  | ok bytes =>
    unfold pollAnswer
    rw [hR.phase h, hR.params h]
    cases t.phase with
    | idle => exact .fault _
    | txWait _ => exact hR.next (.issueRx _ _) h
    | rxWait _ =>
      cases bytes with
      | nil => exact .fault _
      | cons b _ =>
        have hb := hR.step (.setStat b) h
        dsimp only
        split
        · exact hk _ _ _ hb
        · exact pollMissed_respects hR hk site hb

theorem selectWaited_respects {k : SelectResult → State → Out} (hk : Respects R k) (n : Nat) :
    Respects R (selectWaited n k) := by
  intro w s t h
  cases w with
  | timeout => exact hk _ _ _ h
  | ok =>
    unfold selectWaited
    rw [hR.ops h, hR.params h]
    exact OutRel.readHeld fun a => hR.next (.issueTx _ _) h

theorem selectAnswer_respects {k : SelectResult → State → Out} (hk : Respects R k) (n : Nat) :
    Respects R (selectAnswer n k) := by
  intro a s t h
  have hwait := pollAnswer_respects hR (selectWaited_respects hR hk n) .s a s t h
  unfold selectAnswer
  rw [hR.phase h]
  split
  · cases a with
    | fail => exact hk _ _ _ h
    | ok bytes => exact hR.startWait .s h
  · exact hwait
  · exact hwait
  · cases a with
    | fail => exact hk _ _ _ h
    | ok bytes => exact hR.next (.issueRx _ _) h
  · cases a with
    | fail => exact hk _ _ _ h
    | ok bytes => exact hk _ _ _ (hR.step (.setRxbuf bytes) h)
  · exact .fault _

theorem writeDone_respects : Respects R writeDone := by
  intro w s t h
  cases w with
  | ok | timeout => exact hR.next (.respond _ _ _) h

theorem writeAnswer_respects (own : Label) (site : Site) : Respects R (writeAnswer own site) := by
  intro a s t h
  unfold writeAnswer
  rw [hR.phase h]
  split
  · cases a with
    | fail => exact hR.next (.respond _ _ _) h
    | ok bytes => exact hR.startWait site h
  · split
    · exact pollAnswer_respects hR (writeDone_respects hR) site a s t h
    · exact .fault _

theorem forgetAnswer_respects (own : Label) {s t : State} (h : R s t) :
    OutRel R (forgetAnswer own s) (forgetAnswer own t) := by
  unfold forgetAnswer
  rw [hR.phase h]
  split
  · exact hR.next (.respond _ _ _) h
  · exact .fault _

theorem i2cReadAnswer_respects : Respects R i2cReadAnswer := by
  intro a s t h
  unfold i2cReadAnswer
  rw [hR.phase h, hR.ops h]
  split
  · cases a with
    | fail => exact hR.next (.respond _ _ _) h
    | ok bytes => exact OutRel.readHeld fun n => hR.next (.issueRx _ _) h
  · cases a with
    | fail => exact hR.next (.respond _ _ _) h
    | ok bytes => exact hR.next (.respond _ _ _) (hR.step (.setRxbuf bytes) h)
  · exact .fault _

theorem brgRdRegAnswer_respects : Respects R brgRdRegAnswer := by
  intro a s t h
  unfold brgRdRegAnswer
  rw [hR.phase h]
  split
  · cases a with
    | fail => exact hR.next (.respond _ _ _) h
    | ok bytes => exact hR.next (.issueRx _ _) h
  · cases a with
    | fail => exact hR.next (.respond _ _ _) h
    | ok bytes =>
      dsimp only
      split
      · exact hR.next (.respond _ _ _) (hR.step (.setRxbuf bytes) h)
      · exact .fault _
  · exact .fault _

theorem readDone_respects (assemble : List Byte → Option Word32) : Respects R (readDone assemble) := by
  intro x s t h
  cases x with
  | fail | timeout => exact hR.next (.respond _ _ _) h
  | ok bytes =>
    unfold readDone
    dsimp only
    split
    · exact hR.next (.respond _ _ _) h
    · exact .fault _

theorem fieldAfterRead_respects : Respects R fieldAfterRead := by
  intro x s t h
  cases x with
  | fail | timeout => exact hR.next (.respond _ _ _) h
  | ok bytes =>
    cases bytes with
    | nil => exact .fault _
    | cons old _ =>
      unfold fieldAfterRead
      rw [hR.ops h, hR.params h]
      exact OutRel.readHeld fun pos => OutRel.readHeld fun wid => OutRel.readHeld fun val =>
        OutRel.readHeld fun a => OutRel.readHeld fun r =>
          hR.next (.issueTx _ _) (hR.step (.setField old _ _) h)

theorem fieldDone_respects : Respects R fieldDone := fun _ _ _ h => hR.next (.respond _ _ _) h

theorem regWrFieldAnswer_respects : Respects R regWrFieldAnswer := by
  intro a s t h
  have hback := pollAnswer_respects hR (fieldDone_respects hR) .f a s t h
  unfold regWrFieldAnswer
  rw [hR.phase h]
  split
  · cases a with
    | fail => exact hR.next (.respond _ _ _) h
    | ok bytes => exact hR.startWait .f h
  · exact hback
  · exact hback
  · exact selectAnswer_respects hR (fieldAfterRead_respects hR) 1 a s t h

/-- Every command's answer function keeps every relation that the operations keep. -/
theorem answerOf_respects (i : Instr) : Respects R (answerOf i) := by
  cases i with
  | i2cWrite f d | regWrByte f len | regWrBytes f d => exact writeAnswer_respects hR _ _
  | i2cRead f len => exact i2cReadAnswer_respects hR
  | brgRdReg f len => exact brgRdRegAnswer_respects hR
  | brgWrReg f len | brgWrBulk f d => exact fun _ _ _ h => forgetAnswer_respects hR _ h
  | regRdByte f len | regRd16 f len | regRd24be f len => exact selectAnswer_respects hR (readDone_respects hR _) _
  | regWrField f len => exact regWrFieldAnswer_respects hR

end

end Sys2Proof.Machine
end

section
/-!
PROOFS. The inputs a state lists, and a run in pieces (O30).
-/
namespace Sys2Proof.Machine

/-! ## The list of inputs is read by the driver alone (log 2, log 4) -/

def State.withInputs (l : List Input) (s : State) : State := { s with inputs := l }

theorem Operation.withInputs {f : State → State} (hf : Operation f) (l : List Input) (s : State) :
    (f s).withInputs l = f (s.withInputs l) := by
  cases hf <;> rfl

/-- `s` and `t` agree in everything but the inputs they list. -/
def SameButInputs (s t : State) : Prop := s.withInputs [] = t.withInputs []

theorem SameButInputs.map {α : Type} {s t : State} (h : SameButInputs s t) (g : State → α) :
    g (s.withInputs []) = g (t.withInputs []) :=
  congrArg g h

theorem sameButInputs_simulates : Simulates SameButInputs where
  phase h := h.map State.phase
  ops h := h.map State.ops
  work h := h.map State.work
  params h := h.map State.params
  step {s t f} hf h := by
    unfold SameButInputs at h ⊢
    rw [hf.withInputs, hf.withInputs, h]

theorem deliver_sameButInputs {h : Answer → State → Out} (hh : Respects SameButInputs h) (x : Input) {s t : State}
    (hst : SameButInputs s t) : OutRel SameButInputs (deliver h x s) (deliver h x t) := by
  have hreq : s.request = t.request := hst.map State.request
  cases x with
  | silent | late => exact .next hst
  | command r => exact .next (hst.map (α := State) fun u => { u with port := u.port ++ [r] })
  | take => exact .next (hst.map (α := State) fun u => { u with rspPending := false })
  | reset sent => exact .next (hst.map (resetState sent))
  | txOk | txFail _ | rxOk _ | rxFail =>
    simp only [deliver, hreq]
    split
    · exact .next hst
    · split
      · exact .next hst
      · exact hh _ _ _ (hst.map (takeAnswer _ _))

/-- A run over given inputs does not depend on the inputs that the state lists. -/
theorem drive_sameButInputs {h : Answer → State → Out} (hh : Respects SameButInputs h) (is : List Input) {s t : State}
    (hst : SameButInputs s t) : drive h is s = drive h is t := by
  induction is generalizing s t with
  | nil => exact congrArg Host.Outcome.next hst
  | cons x rest ih =>
    have hphase : s.phase = t.phase := hst.map State.phase
    by_cases hs : s.phase = .idle
    · rw [drive_idle _ _ _ hs, drive_idle _ _ _ (hphase ▸ hs)]
      exact congrArg Host.Outcome.next (hst.map (State.withInputs (x :: rest)))
    · rw [drive_cons _ _ _ _ hs, drive_cons _ _ _ _ (hphase ▸ hs)]
      exact (deliver_sameButInputs hh x hst).andThen_eq fun huv => ih huv

/-- A run that comes to wait goes on from where it stands (R24). -/
theorem drive_append {h : Answer → State → Out} (hh : Respects SameButInputs h) {is : List Input} {s t : State}
    (hd : drive h is s = .next t) (ht : t.phase ≠ .idle) (later : List Input) :
    drive h (is ++ later) s = drive h later t := by
  induction is generalizing s with
  | nil =>
    cases hd
    exact drive_sameButInputs hh later rfl
  | cons x rest ih =>
    by_cases hs : s.phase = .idle
    · rw [drive_idle _ _ _ hs] at hd
      cases hd
      exact absurd hs ht
    · rw [drive_cons _ _ _ _ hs] at hd
      rw [List.cons_append, drive_cons _ _ _ _ hs]
      cases hu : deliver h x s with
      | next u => exact ih (by rwa [hu] at hd)
      | fault r | refused r => rw [hu] at hd; cases hd

theorem answerOf_sameButInputs (i : Instr) : Respects SameButInputs (answerOf i) :=
  answerOf_respects sameButInputs_simulates i

/-- Only acceptance and a reset write `L.TXBUF` (10_state.md R26). -/
theorem Delivered.txbuf {i : Instr} {s t : State} {x : Input} (hd : Delivered i s x t) (ht : t.phase ≠ .idle) :
    t.buf.tx = s.buf.tx := by
  cases hd with
  | reset sent => exact absurd rfl ht
  | answer r a req ans adv => cases adv <;> rfl
  | _ => rfl

/-- A command that comes to wait is the command in flight. -/
theorem exec_idle_inFlight {i : Instr} {s t : State} (hw : i.wellFormed = true) (hs : s.phase = .idle)
    (he : exec i s = .next t) (ht : t.phase ≠ .idle) : inFlight t = some i := by
  obtain ⟨htx, hst⟩ := exec_keeps_idle i s t (fun u => u.phase ≠ .idle → u.buf.tx = i.data?) hs he (fun _ => rfl)
    (fun _ _ _ _ hu h hd hv => (hd.txbuf hv).trans (h hu.busy)) (fun _ _ h => h)
  exact (inFlight_iff t i).mpr ⟨(hst.resolve_left ht).ops, by rw [htx ht], hw⟩

/-- Settles O30: a run over the inputs in two pieces is a run over them at once (`drive_append`). -/
theorem resumingIsOneRun : Obligations.ResumingIsOneRun := by
  intro i s t later hw hs he ht
  have hd := inDomain_of_exec_next he
  have hf : inFlight t = some i := exec_idle_inFlight hw hs he ht
  have hfirst : SameButInputs (issueTx (firstLabel i) (firstFrame s.params i) (accept i s))
      (issueTx (firstLabel i) (firstFrame s.params i) (accept i { s with inputs := s.inputs ++ later })) := rfl
  rw [exec_idle i s hd hs] at he
  rw [exec_inFlight i { t with inputs := later } hd ht hf, exec_idle i { s with inputs := s.inputs ++ later } hd hs]
  calc drive (answerOf i) later { t with inputs := later }
      = drive (answerOf i) later t := drive_sameButInputs (answerOf_sameButInputs i) later rfl
    _ = drive (answerOf i) (s.inputs ++ later) (issueTx (firstLabel i) (firstFrame s.params i) (accept i s)) :=
        (drive_append (answerOf_sameButInputs i) he ht later).symm
    _ = _ := drive_sameButInputs (answerOf_sameButInputs i) _ hfirst

end Sys2Proof.Machine
end

section
/-!
PROOFS. What a step records and keeps from any state (O31, O38, O47).
-/
namespace Sys2Proof.Machine

/-! ## Steps, from any state -/

theorem step_idle {s : State} (hs : s.phase = .idle) : step s = stepIdle s := if_pos hs

theorem step_busy {s : State} (hs : s.phase ≠ .idle) : step s = stepBusy s := if_neg hs

theorem step_idle_input {s : State} {x : Input} {rest : List Input} (hs : s.phase = .idle) (hp : s.port = [])
    (hi : s.inputs = x :: rest) : step s = deliver noAnswer x { s with inputs := rest } := by
  rw [step_idle hs]
  simp [stepIdle, hp, takeInput, hi]

theorem step_idle_command {s : State} {r : List Byte} {rest : List (List Byte)} {i : Instr} (hs : s.phase = .idle)
    (hp : s.port = r :: rest) (hd : decode r = .ok i) : step s = startCommand i { s with port := rest } := by
  rw [step_idle hs]
  simp [stepIdle, hp, hd]

theorem step_inFlight {s : State} {i : Instr} (hs : s.phase ≠ .idle) (hf : inFlight s = some i) :
    step s = exec i (topUp s) := by
  rw [step_busy hs]
  simp [stepBusy, hf]

theorem startCommand_next {i : Instr} {s t : State} (h : startCommand i s = .next t) : exec i s = .next t := by
  unfold startCommand at h
  split at h
  · exact h
  · cases h

theorem takeInput_next {s t : State} (h : takeInput s = .next t) :
    ∃ x l n, s.drawn ≤ n ∧ deliver noAnswer x { s with inputs := l, drawn := n } = .next t := by
  unfold takeInput at h
  split at h
  · exact ⟨_, _, s.drawn, Nat.le_refl _, h⟩
  · exact ⟨_, s.inputs, _, Nat.le_succ _, h⟩

theorem stepIdle_next {s t : State} (h : stepIdle s = .next t) :
    (∃ x l n, s.drawn ≤ n ∧ deliver noAnswer x { s with inputs := l, drawn := n } = .next t) ∨
    (∃ rest i, exec i { s with port := rest } = .next t) ∨
    (∃ rest op f len, t = rejectUnassigned op f len { s with port := rest }) := by
  unfold stepIdle at h
  split at h
  · exact .inl (takeInput_next h)
  · split at h
    · exact .inr (.inl ⟨_, _, startCommand_next h⟩)
    · cases h
      exact .inr (.inr ⟨_, _, _, _, rfl⟩)
    · cases h

theorem stepBusy_next {s t : State} (h : stepBusy s = .next t) : ∃ i, exec i (topUp s) = .next t := by
  unfold stepBusy at h
  split at h
  · exact ⟨_, h⟩
  · cases h

/-! ## What a step records -/

/-- `t` comes after `s` with `events` recorded in between. -/
structure Records (s t : State) (events : List Event) : Prop where
  params : t.params = s.params
  drawn : s.drawn ≤ t.drawn
  trace : t.trace = s.trace ++ events
  rsp : responsesIn events = [] → (∀ d, Event.reset d ∉ events) →
    t.rsp = s.rsp ∧ (t.rspPending = true → s.rspPending = true)

/-- And moreover no command is accepted: the records at the port are held. -/
structure Holds (s t : State) (events : List Event) : Prop extends Records s t events where
  port : s.port <+: t.port
  noAccept : ∀ r, Event.accept r ∉ events

theorem Records.trans {s t u : State} {e e' : List Event} (h : Records s t e) (h' : Records t u e') :
    Records s u (e ++ e') where
  params := h'.params.trans h.params
  drawn := h.drawn.trans h'.drawn
  trace := by rw [h'.trace, h.trace, List.append_assoc]
  rsp hr hn := by
    obtain ⟨hr1, hr2⟩ : responsesIn e = [] ∧ responsesIn e' = [] := by
      simpa only [responsesIn, List.filterMap_append, List.append_eq_nil_iff] using hr
    obtain ⟨hrsp, hpend⟩ := h.rsp hr1 fun d hd => hn d (List.mem_append_left _ hd)
    obtain ⟨hrsp', hpend'⟩ := h'.rsp hr2 fun d hd => hn d (List.mem_append_right _ hd)
    exact ⟨hrsp'.trans hrsp, fun hp => hpend (hpend' hp)⟩

theorem Holds.trans {s t u : State} {e e' : List Event} (h : Holds s t e) (h' : Holds t u e') : Holds s u (e ++ e') where
  toRecords := h.toRecords.trans h'.toRecords
  port := h.port.trans h'.port
  noAccept r hr := (List.mem_append.mp hr).elim (h.noAccept r) (h'.noAccept r)

/-- `t` may come after `s` while the records at the port are held. -/
def Continues (s t : State) : Prop := ∃ events, Holds s t events

theorem Continues.trans {s t u : State} : Continues s t → Continues t u → Continues s u
  | ⟨_, h⟩, ⟨_, h'⟩ => ⟨_, h.trans h'⟩

/-- A change outside the port, the response register and the trace. -/
theorem continues_unrecorded {s t : State} (params : t.params = s.params) (drawn : s.drawn ≤ t.drawn)
    (port : s.port <+: t.port) (trace : t.trace = s.trace) (rsp : t.rsp = s.rsp)
    (pending : t.rspPending = true → s.rspPending = true) : Continues s t :=
  ⟨[], ⟨params, drawn, trace.trans (List.append_nil _).symm, fun _ _ => ⟨rsp, pending⟩⟩, port, nofun⟩

/-- One event, no acceptance. -/
theorem continues_event {s t : State} {e : Event} (params : t.params = s.params) (drawn : t.drawn = s.drawn)
    (port : t.port = s.port) (trace : t.trace = s.trace ++ [e]) (he : ∀ r, Event.accept r ≠ e)
    (rsp : responsesIn [e] = [] → (∀ d, Event.reset d ≠ e) → t.rsp = s.rsp ∧ t.rspPending = s.rspPending) :
    Continues s t := by
  refine ⟨[e], ⟨params, drawn.ge, trace, fun h hn => ?_⟩, port ▸ List.prefix_refl _, fun r hr => ?_⟩
  · obtain ⟨hrsp, hpend⟩ := rsp h fun d hd => hn d (List.mem_singleton.mpr hd)
    exact ⟨hrsp, fun hp => hpend ▸ hp⟩
  · exact he r (List.mem_singleton.mp hr)

theorem Continues.refl (s : State) : Continues s s :=
  continues_unrecorded rfl (Nat.le_refl _) (List.prefix_refl _) rfl rfl id

theorem Operation.continues {f : State → State} (hf : Operation f) (s : State) : Continues s (f s) := by
  cases hf with
  | issueTx k frame => exact continues_event rfl rfl rfl rfl nofun fun _ _ => ⟨rfl, rfl⟩
  | issueRx k n => exact continues_event rfl rfl rfl rfl nofun fun _ _ => ⟨rfl, rfl⟩
  | respond st v d => exact continues_event rfl rfl rfl rfl nofun nofun
  | setStat v | setPolls n | setRxbuf bytes | setField old mask new =>
    exact continues_unrecorded rfl (Nat.le_refl _) (List.prefix_refl _) rfl rfl id

theorem continues_simulates (s₀ : State) : Simulates fun s t => s = t ∧ Continues s₀ s where
  phase h := congrArg State.phase h.1
  ops h := congrArg State.ops h.1
  work h := congrArg State.work h.1
  params h := congrArg State.params h.1
  step {s _ _} hf h := ⟨congrArg _ h.1, h.2.trans (hf.continues s)⟩

theorem answerOf_continues {i : Instr} {a : Answer} {s t : State} (h : answerOf i a s = .next t) : Continues s t := by
  have hrel := answerOf_respects (continues_simulates s) i a s s ⟨rfl, .refl s⟩
  rw [h] at hrel
  cases hrel with
  | next h => exact h.2

theorem takeAnswer_continues (r : Request) (x : Input) (s : State) : Continues s (takeAnswer r x s) :=
  continues_event rfl rfl rfl rfl (by cases x <;> nofun) fun _ _ => ⟨rfl, rfl⟩

theorem resetState_continues (sent : Nat) (s : State) : Continues s (resetState sent s) :=
  continues_event rfl rfl rfl rfl nofun fun _ h => absurd rfl (h _)

theorem deliver_continues {h : Answer → State → Out} (hh : ∀ a s t, h a s = .next t → Continues s t) {x : Input}
    {s t : State} (hd : deliver h x s = .next t) : Continues s t := by
  cases x with
  | silent | late => cases hd; exact .refl s
  | command r =>
    cases hd
    exact continues_unrecorded rfl (Nat.le_refl _) (List.prefix_append _ _) rfl rfl id
  | take =>
    cases hd
    exact continues_unrecorded rfl (Nat.le_refl _) (List.prefix_refl _) rfl rfl nofun
  | reset sent => cases hd; exact resetState_continues sent s
  | txOk | txFail _ | rxOk _ | rxFail =>
    simp only [deliver] at hd
    split at hd
    · cases hd; exact .refl s
    · split at hd
      · cases hd; exact .refl s
      · exact (takeAnswer_continues _ _ s).trans (hh _ _ _ hd)

theorem continues_inputs (s : State) (l : List Input) {n : Nat} (hn : s.drawn ≤ n) :
    Continues s { s with inputs := l, drawn := n } :=
  continues_unrecorded rfl hn (List.prefix_refl _) rfl rfl id

theorem drive_continues {i : Instr} {is : List Input} {s t : State} (hd : drive (answerOf i) is s = .next t) :
    Continues s t := by
  induction is generalizing s with
  | nil => cases hd; exact continues_inputs s _ (Nat.le_refl _)
  | cons x rest ih =>
    by_cases hs : s.phase = .idle
    · rw [drive_idle _ _ _ hs] at hd
      cases hd
      exact continues_inputs s _ (Nat.le_refl _)
    · rw [drive_cons _ _ _ _ hs] at hd
      cases hu : deliver (answerOf i) x s with
      | next u =>
        rw [hu] at hd
        exact (deliver_continues (fun _ _ _ => answerOf_continues) hu).trans (ih hd)
      | fault r | refused r => rw [hu] at hd; cases hd

theorem accept_records (i : Instr) (s : State) : Records s (accept i s) [.accept (encode i)] :=
  ⟨rfl, Nat.le_refl _, rfl, fun _ _ => ⟨rfl, id⟩⟩

theorem exec_idle_records {i : Instr} {s t : State} (hs : s.phase = .idle) (he : exec i s = .next t) :
    ∃ events, Records s t events := by
  rw [exec_idle i s (inDomain_of_exec_next he) hs] at he
  obtain ⟨e, h⟩ := ((Operation.issueTx _ _).continues (accept i s)).trans (drive_continues he)
  exact ⟨_, (accept_records i s).trans h.toRecords⟩

theorem exec_busy_continues {i : Instr} {s t : State} (hs : s.phase ≠ .idle) (he : exec i s = .next t) :
    Continues s t := by
  have hd := inDomain_of_exec_next he
  by_cases hf : inFlight s = some i
  · rw [exec_inFlight i s hd hs hf] at he
    exact drive_continues he
  · rw [exec_held i s hd hs hf] at he
    cases he
    exact .refl s

theorem exec_topUp_continues {i : Instr} {s t : State} (hs : s.phase ≠ .idle) (he : exec i (topUp s) = .next t) :
    Continues s t := by
  obtain ⟨l, n, hn, htop⟩ := topUp_eq s
  rw [htop] at he
  exact (continues_inputs s l hn).trans (exec_busy_continues (s := { s with inputs := l, drawn := n }) hs he)

theorem rejectUnassigned_records (op : Byte) (f : Fields) (len : Byte) (s : State) :
    ∃ events, Records s (rejectUnassigned op f len s) events := by
  have hlatch : Records s (latchRecord op f len none s) [.accept (recordBytes op f len [])] :=
    ⟨rfl, Nat.le_refl _, rfl, fun _ _ => ⟨rfl, id⟩⟩
  obtain ⟨e, h⟩ := (Operation.respond .stIllegal none none).continues (latchRecord op f len none s)
  exact ⟨_, hlatch.trans h.toRecords⟩

theorem noAnswer_continues {a : Answer} {s t : State} (h : noAnswer a s = .next t) : Continues s t := by
  cases h
  exact .refl s

/-- Taking the record from the port changes nothing that `Records` speaks of. -/
theorem Records.of_port {s t : State} {rest : List (List Byte)} :
    (∃ events, Records { s with port := rest } t events) → ∃ events, Records s t events
  | ⟨e, h⟩ => ⟨e, h.params, h.drawn, h.trace, h.rsp⟩

theorem step_busy_continues {s t : State} (hs : s.phase ≠ .idle) (h : step s = .next t) : Continues s t := by
  obtain ⟨i, he⟩ := stepBusy_next (step_busy hs ▸ h)
  exact exec_topUp_continues hs he

/-- Every step from every state. -/
theorem step_records {s t : State} (h : step s = .next t) : ∃ events, Records s t events := by
  by_cases hs : s.phase = .idle
  · rcases stepIdle_next (step_idle hs ▸ h) with ⟨x, l, n, hn, he⟩ | ⟨rest, i, he⟩ | ⟨rest, op, f, len, rfl⟩
    · obtain ⟨e, h⟩ := (continues_inputs s l hn).trans (deliver_continues (fun _ _ _ => noAnswer_continues) he)
      exact ⟨e, h.toRecords⟩
    · exact Records.of_port (exec_idle_records (s := { s with port := rest }) hs he)
    · exact Records.of_port (rejectUnassigned_records op f len { s with port := rest })
  · obtain ⟨e, h⟩ := step_busy_continues hs h
    exact ⟨e, h.toRecords⟩

/-- Settles O31: another command is held by `exec`, and a step in flight is a `Continues`. -/
theorem commandsAreHeldWhileBusy : Obligations.CommandsAreHeldWhileBusy := by
  refine fun s hs => ⟨fun j hd hf => exec_held j s hd hs hf, fun t ht => ?_⟩
  obtain ⟨e, h⟩ := step_busy_continues hs ht
  exact ⟨h.port, e, h.trace, h.noAccept⟩

/-- Settles O38: the events are those of `step_records`. -/
theorem onlyResponsesWriteRsp : Obligations.OnlyResponsesWriteRsp := by
  intro s t ht
  obtain ⟨e, h⟩ := step_records ht
  exact ⟨e, h.trace, h.rsp⟩

/-- Settles O47: every step is a `Records`. -/
theorem stepKeepsParametersAndTrace : Obligations.StepKeepsParametersAndTrace := by
  intro s t ht
  obtain ⟨e, h⟩ := step_records ht
  exact ⟨h.params, ⟨e, h.trace.symm⟩, h.drawn⟩

end Sys2Proof.Machine
end

section
/-!
PROOFS. One step, reset, the host's inputs and its reads of the response (O32, O35, O37, O41).
-/
namespace Sys2Proof.Machine

/-! ## One step, reset, the host's inputs and its reads -/

/-- R9's bounds admit every command that a record can hold. -/
theorem withinBounds_of_wellFormed {i : Instr} (h : i.wellFormed = true) : i.withinBounds Config.params = true := by
  cases i with
  | i2cRead f len => exact decide_eq_true (Nat.le_of_lt_succ len.isLt)
  | i2cWrite f d | brgWrBulk f d | regWrBytes f d => exact h
  | _ => rfl

/-- Settles O32, by the equations of a step at a record and of a step in flight. -/
theorem stepRunsTheDecodedCommand : Obligations.StepRunsTheDecodedCommand := by
  refine fun s i => ⟨fun hs r rest hp hd => ⟨fun hb => ?_, fun hb => ?_⟩, withinBounds_of_wellFormed, step_inFlight⟩
  · rw [step_idle_command hs hp hd]
    exact if_pos hb
  · rw [step_idle_command hs hp hd]
    exact if_neg (Bool.eq_false_iff.mp hb)

theorem holdsResetValues_resetState (sent : Nat) (s : State) : holdsResetValues (resetState sent s) := by
  simp [holdsResetValues, OperandLatches.empty, WorkLatches.empty]

/-- Settles O35: both states have R32's value in every field. -/
theorem resetStateAsTheSpecSays : Obligations.ResetStateAsTheSpecSays := by
  refine ⟨?_, rfl, fun sent s => ⟨holdsResetValues_resetState sent s, rfl⟩⟩
  simp [holdsResetValues, State.reset, OperandLatches.empty, WorkLatches.empty]

/-- An input that the driver takes without an answer leaves the command in flight to go on with the next ones. -/
theorem exec_passes_on {i : Instr} {s u : State} {x : Input} {rest : List Input} (hs : s.phase ≠ .idle)
    (hf : inFlight s = some i) (hd : inDomain i = true) (hi : s.inputs = x :: rest)
    (hx : deliver (answerOf i) x s = .next u) (hu : u.phase = s.phase) (hfu : inFlight u = inFlight s) :
    exec i s = exec i { u with inputs := rest } := by
  rw [exec_inFlight i s hd hs hf, hi, drive_cons _ _ _ _ hs, hx,
    exec_inFlight i { u with inputs := rest } hd (hu ▸ hs) (hfu.trans hf)]
  exact drive_sameButInputs (answerOf_sameButInputs i) rest rfl

/-- Settles O37: in flight by `exec_passes_on`, in IDLE by the equation of a step that takes an input. -/
theorem hostInputsArePassedOn : Obligations.HostInputsArePassedOn := by
  refine fun s rest => ⟨fun r hin => ⟨fun i hs hf hd => ?_, fun hs hp => ?_⟩,
    fun hin => ⟨fun i hs hf hd => ?_, fun hs hp => ?_⟩⟩
  · exact exec_passes_on hs hf hd hin rfl rfl rfl
  · rw [step_idle_input hs hp hin]
    simp [deliver, hp]
  · exact exec_passes_on hs hf hd hin rfl rfl rfl
  · exact step_idle_input hs hp hin

/-- What a read of something that may hold no value gives (10_state.md R31). -/
def heldOr {α : Type} (what : Holder) (v : Option α) : Except Fault α := v.elim (.error (.noValue what)) .ok

theorem heldOr_eq_ok_iff {α : Type} (what : Holder) (v : Option α) (a : α) : heldOr what v = .ok a ↔ v = some a := by
  cases v <;> simp [heldOr]

theorem heldOr_eq_error_iff {α : Type} (what : Holder) (v : Option α) :
    heldOr what v = .error (.noValue what) ↔ v = none := by
  cases v <;> simp [heldOr]

theorem readStatus_eq (s : State) : readStatus s = heldOr .rsp (s.rsp.map fun r => r.status.code) := by
  unfold readStatus
  cases s.rsp <;> rfl

theorem readValue_eq (s : State) : readValue s = heldOr .rspValue (s.rsp.bind (·.value)) := by
  unfold readValue
  cases s.rsp.bind (·.value) <;> rfl

theorem readData_eq (s : State) : readData s = heldOr .rspData (s.rsp.bind (·.data)) := by
  unfold readData
  cases s.rsp.bind (·.data) <;> rfl

theorem readDlen_eq (s : State) : readDlen s = heldOr .rspDlen (s.rsp.bind (·.dlen)) := by
  unfold readDlen
  cases s.rsp.bind (·.dlen) <;> rfl

/-- Settles O41: each read is `heldOr` of its field. -/
theorem missingResponseFieldIsAFault : Obligations.MissingResponseFieldIsAFault := by
  intro s
  rw [readStatus_eq, readValue_eq, readData_eq, readDlen_eq]
  refine ⟨fun h => ?_, fun r h => ?_, heldOr_eq_error_iff _ _, heldOr_eq_ok_iff _ _, heldOr_eq_error_iff _ _,
    heldOr_eq_ok_iff _ _, heldOr_eq_error_iff _ _, heldOr_eq_ok_iff _ _⟩
  · rw [h]; rfl
  · rw [h]; rfl

end Sys2Proof.Machine
end

section
/-!
PROOFS. The port trace: every step keeps it in order (O45).
-/
namespace Sys2Proof.Machine

/-! ## The trace automaton (20_memory.md R60, R61, 60_exceptions.md R215) -/

theorem scanFrom_append (c : Option Cursor) (a b : List Event) : scanFrom c (a ++ b) = scanFrom (scanFrom c a) b := by
  induction a generalizing c with
  | nil => rfl
  | cons e rest ih => exact ih _

/-- One more event keeps the order where the automaton goes with it from where the one state stands to where the other
does. -/
theorem State.TraceInOrder.event {s t : State} {e : Event} (h : s.TraceInOrder) (ht : t.trace = s.trace ++ [e])
    (hc : s.cursor.next e = some t.cursor) : t.TraceInOrder := by
  unfold State.TraceInOrder at h ⊢
  rw [ht, scanFrom_append, h]
  exact hc

theorem cursor_idle {s : State} (hs : s.phase = .idle) : s.cursor = .idle := by
  simp [State.cursor, hs]

/-- Where a command in flight stands, by its outstanding request. -/
def Cursor.ofRequest : Option Request → Cursor
  | some (.tx _) => .awaitTx
  | some (.rx n) => .awaitRx n
  | none => .running

theorem cursor_busy {s : State} (hs : s.phase ≠ .idle) : s.cursor = .ofRequest s.request := by
  unfold State.cursor
  cases hp : s.phase with
  | idle => exact absurd hp hs
  | txWait k | rxWait k =>
    cases s.request with
    | none => rfl
    | some r => cases r <;> rfl

/-- A reset may come at any moment (R231). -/
theorem Cursor.next_reset (c : Cursor) (d : List Byte) : c.next (.reset d) = some .idle := by
  cases c <;> rfl

/-! ## What keeps the order -/

theorem traceInOrder_reset {s : State} (h : s.TraceInOrder) (sent : Nat) : (resetState sent s).TraceInOrder :=
  h.event rfl (Cursor.next_reset _ _)

/-- An answer is recorded in the shape of the request that was outstanding (R215). -/
theorem traceInOrder_takeAnswer {s : State} {r : Request} {x : Input} {a : Answer} (h : s.TraceInOrder)
    (hs : s.phase ≠ .idle) (hr : s.request = some r) (ha : answerTo r x = some a) : (takeAnswer r x s).TraceInOrder := by
  refine h.event rfl ?_
  rw [cursor_busy hs, hr, cursor_busy (s := takeAnswer r x s) hs]
  cases r with
  | tx frame =>
    cases x with
    | txOk | txFail k => rfl
    | _ => cases ha
  | rx n =>
    cases x with
    | rxOk bytes =>
      have hl : bytes.length = n := by
        by_contra hl
        simp [answerTo, hl] at ha
      exact if_pos hl
    | rxFail => rfl
    | _ => cases ha

/-- With its last request answered, a command issues its next request or responds. -/
theorem Advance.traceInOrder {i : Instr} {s t : State} (ha : Advance i s t) (h : s.TraceInOrder) (hs : s.phase ≠ .idle)
    (hr : s.request = none) : t.TraceInOrder := by
  have hrun : s.cursor = .running := by rw [cursor_busy hs, hr]; rfl
  cases ha with
  | tx k frame w rx req poll touch => exact h.event (e := .tx frame) rfl (by rw [hrun]; rfl)
  | rx k n w rx req poll touch => exact h.event (e := .rx n) rfl (by rw [hrun]; rfl)
  | done st v d w rx may wf touch => exact h.event (e := .response (mkResponse st v d)) rfl (by rw [hrun]; rfl)

/-- Every input keeps the order while a command waits. -/
theorem Delivered.traceInOrder {i : Instr} {s t : State} {x : Input} (hd : Delivered i s x t) (hs : Standing i s)
    (h : s.TraceInOrder) : t.TraceInOrder := by
  cases hd with
  | command r | take | nothing => exact h
  | reset sent => exact traceInOrder_reset h sent
  | answer r a req ans adv => exact adv.traceInOrder (traceInOrder_takeAnswer h hs.busy req ans) hs.busy rfl

/-- In IDLE a record is accepted (R60). -/
theorem scan_latchRecord {s : State} (op : Byte) (f : Fields) (len : Byte) (d : Option (List Byte)) (h : s.TraceInOrder)
    (hs : s.phase = .idle) : scanFrom (some .idle) (latchRecord op f len d s).trace = some .running := by
  unfold State.TraceInOrder at h
  rw [latchRecord_trace, scanFrom_append, h, cursor_idle hs]
  rfl

/-- An accepted command sends its first frame. -/
theorem traceInOrder_first {s : State} (i : Instr) (h : s.TraceInOrder) (hs : s.phase = .idle) :
    (issueTx (firstLabel i) (firstFrame s.params i) (accept i s)).TraceInOrder := by
  unfold State.TraceInOrder
  rw [issueTx_trace, scanFrom_append, accept, scan_latchRecord _ _ _ _ h hs]
  rfl

/-- An unassigned code is answered at once (R98). -/
theorem traceInOrder_rejectUnassigned {s : State} (op : Byte) (f : Fields) (len : Byte) (h : s.TraceInOrder)
    (hs : s.phase = .idle) : (rejectUnassigned op f len s).TraceInOrder := by
  unfold State.TraceInOrder
  rw [rejectUnassigned, respond_trace, scanFrom_append, scan_latchRecord _ _ _ _ h hs]
  rfl

theorem noAnswer_traceInOrder {s t : State} {x : Input} (h : s.TraceInOrder) (hr : s.request = none)
    (hx : deliver noAnswer x s = .next t) : t.TraceInOrder := by
  rcases noAnswer_delivered x s t hx hr with ⟨r, rfl⟩ | rfl | ⟨n, rfl⟩ | rfl
  · exact h
  · exact h
  · exact traceInOrder_reset h n
  · exact h

theorem exec_idle_traceInOrder {i : Instr} {s t : State} (h : s.TraceInOrder) (hs : s.phase = .idle)
    (he : exec i s = .next t) : t.TraceInOrder :=
  (exec_keeps_idle i s t State.TraceInOrder hs he (traceInOrder_first i h hs)
    (fun _ _ _ _ hu h hd => hd.traceInOrder hu h) (fun _ _ h => h)).1

theorem exec_busy_traceInOrder {i : Instr} {s t : State} (h : s.TraceInOrder) (hs : Standing i s)
    (hf : inFlight s = some i) (he : exec i s = .next t) : t.TraceInOrder :=
  (exec_keeps_busy i s t State.TraceInOrder hs hf he h
    (fun _ _ _ _ hu h hd => hd.traceInOrder hu h) (fun _ _ h => h)).1

/-- Settles O45: each thing a step from a consistent state can be (`step_cases`) keeps the order; a command's run does so
because every input does. -/
theorem stepKeepsTheTraceInOrder : Obligations.StepKeepsTheTraceInOrder := by
  intro s t hc h ht
  rcases step_cases s hc with ⟨_, _, x, l, n, _, he, hr⟩ | ⟨hs, r, rest, i, _, _, _, he⟩ | ⟨_, r, rest, i, _, _, _, he⟩ |
    ⟨hs, r, rest, op, f, len, _, _, he⟩ | ⟨_, r, rest, _, _, he⟩ | ⟨i, hf, _, _, hst, he⟩ <;> rw [he] at ht
  · exact noAnswer_traceInOrder (s := { s with inputs := l, drawn := n }) h hr ht
  · exact exec_idle_traceInOrder (s := { s with port := rest }) h hs ht
  · cases ht
  · cases ht
    exact traceInOrder_rejectUnassigned op f len (s := { s with port := rest }) h hs
  · cases ht
  · obtain ⟨l, n, _, htop⟩ := topUp_eq s
    rw [htop] at ht
    exact exec_busy_traceInOrder (s := { s with inputs := l, drawn := n }) h (standing_inputs hst l n) hf ht

end Sys2Proof.Machine
end

section
/-!
PROOFS. The assembly of received bytes (O9).
-/
namespace Sys2Proof.Machine

theorem toNat_zext (b : Byte) : (b.setWidth 32).toNat = b.toNat :=
  BitVec.toNat_setWidth_of_le (by decide)

/-- A byte above `k` lower bits: the shift and the `or` of R51 are a product and a sum. -/
theorem toNat_byte_above (b : Byte) (low : Word32) {k : Nat} (hk : k ≤ 24) (hlow : low.toNat < 2 ^ k) :
    ((b.setWidth 32 <<< k) ||| low).toNat = b.toNat * 2 ^ k + low.toNat := by
  have hfit : b.toNat * 2 ^ k < 2 ^ 32 := calc
    b.toNat * 2 ^ k < 2 ^ 8 * 2 ^ k := Nat.mul_lt_mul_of_pos_right b.isLt (Nat.two_pow_pos k)
    _ = 2 ^ (8 + k) := (Nat.pow_add 2 8 k).symm
    _ ≤ 2 ^ 32 := Nat.pow_le_pow_right (by decide) (by omega)
  have hhigh : (b.setWidth 32 <<< k).toNat = b.toNat <<< k := by
    rw [BitVec.toNat_shiftLeft, toNat_zext, Nat.shiftLeft_eq, Nat.mod_eq_of_lt hfit]
  rw [BitVec.toNat_or, hhigh, ← Nat.shiftLeft_add_eq_or_of_lt hlow, Nat.shiftLeft_eq]

/-- Two bytes, `low` first in wire order (R51). -/
theorem toNat_two_bytes (high low : Byte) :
    ((high.setWidth 32 <<< 8) ||| low.setWidth 32 : Word32).toNat = high.toNat * 256 + low.toNat := by
  have hlow : (low.setWidth 32 : Word32).toNat < 2 ^ 8 := by
    rw [toNat_zext]
    exact low.isLt
  rw [toNat_byte_above high _ (by decide) hlow, toNat_zext]
  rfl

/-- Three bytes, `high` first in wire order (R51): a byte above the two others. -/
theorem toNat_three_bytes (high mid low : Byte) :
    ((high.setWidth 32 <<< 16) ||| (mid.setWidth 32 <<< 8) ||| low.setWidth 32 : Word32).toNat =
      high.toNat * 65536 + mid.toNat * 256 + low.toNat := by
  have hrest : ((mid.setWidth 32 <<< 8) ||| low.setWidth 32 : Word32).toNat < 2 ^ 16 := by
    have hmid := mid.isLt
    have hlow := low.isLt
    rw [toNat_two_bytes]
    omega
  rw [BitVec.or_assoc, toNat_byte_above high _ (by decide) hrest, toNat_two_bytes, ← Nat.add_assoc]
  rfl

/-- Settles O9: each assembly answers, with the number its lemma gives. -/
theorem assemblyOfReceivedBytes : Obligations.AssemblyOfReceivedBytes := fun b0 b1 b2 =>
  ⟨⟨_, rfl, toNat_zext b0⟩, ⟨_, rfl, toNat_two_bytes b1 b0⟩, ⟨_, rfl, toNat_three_bytes b0 b1 b2⟩⟩

end Sys2Proof.Machine
end

section
/-!
PROOFS. The command record and the status codes (O1, O2, O34, O40).
-/
namespace Sys2Proof

/-! ## The command record (30_encoding.md R89, R90, R101) -/

/-- Settles O1: both directions are `decodeOp_ok_iff` on the seven header bytes and the data field. -/
theorem decodeIsTheInverseOfEncode : Obligations.DecodeIsTheInverseOfEncode := by
  intro r i
  constructor
  · intro h
    unfold decode at h
    split at h
    · obtain ⟨rfl, hf, rfl, rfl, hw⟩ := (decodeOp_ok_iff _ _ _ _ i).mp h
      refine ⟨hw, ?_⟩
      rw [encode, ← hf]
      rfl
    · cases h
  · rintro ⟨hw, rfl⟩
    exact (decodeOp_ok_iff _ _ _ _ i).mpr ⟨rfl, rfl, rfl, rfl, hw⟩

theorem decode_encode {i : Instr} (hw : i.wellFormed = true) : decode (encode i) = .ok i :=
  (decodeIsTheInverseOfEncode _ i).mpr ⟨hw, rfl⟩

/-- Settles O2: each record is the encoding of its command. -/
theorem sampleRecordsDecode : Obligations.SampleRecordsDecode :=
  ⟨decode_encode (i := .i2cWrite ⟨0xD1, 0, 0, 0, 0⟩ [0x6B, 0x00]) rfl,
    decode_encode (i := .i2cRead ⟨0xD0, 0, 0, 0, 0⟩ 2) rfl,
    decode_encode (i := .brgWrReg ⟨0, 0x02, 0x5A, 0, 0⟩ 0) rfl,
    decode_encode (i := .regWrField ⟨0xD0, 0x1C, 0x02, 0x04, 0x03⟩ 0) rfl⟩

/-! ## What is no command record -/

/-- The codes whose record has a data field (R101). -/
def hasDataField (op : Byte) : Prop := op = 0x01 ∨ op = 0x05 ∨ op = 0x11

theorem decodeShort_malformed_iff (i : Instr) (data : List Byte) :
    decodeShort i data = .error .malformed ↔ data ≠ [] := by
  cases data <;> simp [decodeShort]

theorem decodeLong_malformed_iff (i : Instr) (len : Byte) (data : List Byte) :
    decodeLong i len data = .error .malformed ↔ data.length ≠ len.toNat := by
  simp [decodeLong]

theorem decodeOp_malformed_iff_of_data {op : Byte} (h : hasDataField op) (f : Fields) (len : Byte) (data : List Byte) :
    decodeOp op f len data = .error .malformed ↔ data.length ≠ len.toNat := by
  rcases h with rfl | rfl | rfl <;> exact decodeLong_malformed_iff _ _ _

/-- One line of R89's table for a code without a data field. -/
theorem ite_decodeShort_malformed_iff {c : Prop} [Decidable c] (i : Instr) {data : List Byte}
    {other : Except DecodeError Instr} (h : other = .error .malformed ↔ data ≠ []) :
    (if c then decodeShort i data else other) = .error .malformed ↔ data ≠ [] := by
  split
  · exact decodeShort_malformed_iff i data
  · exact h

theorem decodeOp_malformed_iff_of_noData {op : Byte} (h : ¬hasDataField op) (f : Fields) (len : Byte)
    (data : List Byte) : decodeOp op f len data = .error .malformed ↔ data ≠ [] := by
  obtain ⟨h1, h5, h11⟩ : op ≠ 0x01 ∧ op ≠ 0x05 ∧ op ≠ 0x11 := by simpa only [hasDataField, not_or] using h
  unfold decodeOp
  rw [if_neg h1, if_neg h5, if_neg h11]
  repeat refine ite_decodeShort_malformed_iff _ ?_
  cases data <;> simp

/-- The three ways to be no command record, by the record's length and code. -/
theorem decode_malformed_iff (r : List Byte) :
    decode r = .error .malformed ↔
      (r.length < 7 ∨
        (r.head? ∈ [some 0x01, some 0x05, some (0x11 : Byte)] ∧ r.length ≠ 7 + (r.getD 6 0).toNat) ∨
        (r.head? ∉ [some 0x01, some 0x05, some (0x11 : Byte)] ∧ 7 < r.length)) := by
  match r with
  | op :: a :: g :: v :: p :: w :: len :: data =>
    have hlen : (op :: a :: g :: v :: p :: w :: len :: data).length = 7 + data.length := by
      simp only [List.length_cons]; omega
    have hcode : (op :: a :: g :: v :: p :: w :: len :: data).head? ∈ [some 0x01, some 0x05, some (0x11 : Byte)] ↔
        hasDataField op := by
      simp [hasDataField]
    have hget : (op :: a :: g :: v :: p :: w :: len :: data).getD 6 0 = len := rfl
    rw [hlen, hcode, hget]
    show decodeOp op ⟨a, g, v, p, w⟩ len data = .error .malformed ↔ _
    by_cases h : hasDataField op
    · rw [decodeOp_malformed_iff_of_data h]
      simp [h]
    · rw [decodeOp_malformed_iff_of_noData h, ← List.length_pos_iff]
      simp [h]
  | [] | [_] | [_, _] | [_, _, _] | [_, _, _, _] | [_, _, _, _, _] | [_, _, _, _, _, _] => simp [decode]

end Sys2Proof

namespace Sys2Proof.Machine

theorem startCommand_ne_malformed (i : Instr) {s : State} (hs : s.phase = .idle) :
    startCommand i s ≠ .refused .malformedRecord := by
  unfold startCommand
  split
  · rcases exec_idle_next_or_refused i hs with ⟨t, h⟩ | h <;> rw [h] <;> nofun
  · nofun

theorem step_malformed_iff {s : State} {r : List Byte} {rest : List (List Byte)} (hs : s.phase = .idle)
    (hp : s.port = r :: rest) : step s = .refused .malformedRecord ↔ decode r = .error .malformed := by
  cases hd : decode r with
  | ok i =>
    rw [step_idle_command hs hp hd]
    exact iff_of_false (startCommand_ne_malformed i hs) nofun
  | error e =>
    rw [step_idle hs]
    cases e <;> simp [stepIdle, hp, hd]

/-- Settles O34: the step refuses exactly what the decoder calls malformed. -/
theorem malformedRecordIsRefused : Obligations.MalformedRecordIsRefused := fun _ r _ hs hp =>
  (step_malformed_iff hs hp).trans (decode_malformed_iff r)

/-! ## The status codes (30_encoding.md R93) -/

theorem ofCode_code (st : Status) : Status.ofCode st.code = .ok st := by
  cases st <;> rfl

theorem ofCode_reserved_iff (c : BitVec 3) : Status.ofCode c = .error .reservedStatus ↔ 5 ≤ c.toNat := by
  revert c
  decide

/-- Settles O40. -/
theorem statusCodesAsR93 : Obligations.StatusCodesAsR93 :=
  ⟨rfl, rfl, rfl, rfl, rfl, ofCode_code, ofCode_reserved_iff⟩

end Sys2Proof.Machine
end

section
/-!
PROOFS. The wire frames and the frame decoder (O3, O4, O5, O6).
-/
namespace Sys2Proof.Machine

/-! ## The encoders (30_encoding.md R81 to R87, R91) -/

/-- The marker values of R80 and the status register's address. -/
theorem standardParams_iff (p : Params) : standardParams p = true ↔
    p.mkS = 0x53 ∧ p.mkP = 0x50 ∧ p.mkR = 0x52 ∧ p.mkW = 0x57 ∧ p.statusRegAddr = 0x0A := by
  simp [standardParams, and_assoc]

/-- Settles O3: the encoders at R80's markers. -/
theorem encodersGiveTheWireBytes : Obligations.EncodersGiveTheWireBytes := by
  intro p hp
  obtain ⟨hS, hP, hR, hW, hA⟩ := (standardParams_iff p).mp hp
  refine ⟨fun a8 d _ => ?_, fun a8 n => ?_, fun r => ?_, fun r v => ?_, fun d _ => ?_, rfl, ?_, fun _ _ => rfl⟩
  · simp [encIW, forceWrite, hS, hP]
  · simp [encIR, forceRead, hS, hP]
  · simp [encRR, hR, hP]
  · simp [encRW, hW, hP]
  · simp [encRB, hW, hP]
  · simp [pollFrame, encRR, hR, hA, hP]

theorem getLsbD_forceWrite (a8 : Byte) (b : Nat) : (forceWrite a8).getLsbD b = (decide (b ≠ 0) && a8.getLsbD b) := by
  by_cases hb : b < 8
  · have hmask : ∀ b < 8, (0xFE : Byte).getLsbD b = decide (b ≠ 0) := by decide
    rw [forceWrite, BitVec.getLsbD_and, hmask b hb, Bool.and_comm]
  · simp [forceWrite, BitVec.getLsbD_of_ge _ _ (Nat.le_of_not_lt hb)]

theorem forceWrite_bit_zero (a8 : Byte) : (forceWrite a8).getLsbD 0 = false := getLsbD_forceWrite a8 0

theorem getLsbD_forceRead (a8 : Byte) (b : Nat) : (forceRead a8).getLsbD b = (decide (b = 0) || a8.getLsbD b) := by
  by_cases hb : b < 8
  · have hmask : ∀ b < 8, (0x01 : Byte).getLsbD b = decide (b = 0) := by decide
    rw [forceRead, BitVec.getLsbD_or, hmask b hb, Bool.or_comm]
  · have hb0 : b ≠ 0 := by omega
    simp [forceRead, BitVec.getLsbD_of_ge _ _ (Nat.le_of_not_lt hb), hb0]

theorem forceRead_bit_zero (a8 : Byte) : (forceRead a8).getLsbD 0 = true := getLsbD_forceRead a8 0

/-- Flipping bit 0 changes no other bit. -/
theorem getLsbD_flip (a8 : Byte) {b : Nat} (hb : b ≠ 0) : (a8 ^^^ 0x01).getLsbD b = a8.getLsbD b := by
  simp [BitVec.getLsbD_one, hb]

theorem forceWrite_flip (a8 : Byte) : forceWrite (a8 ^^^ 0x01) = forceWrite a8 := by
  refine BitVec.eq_of_getLsbD_eq fun b _ => ?_
  rw [getLsbD_forceWrite, getLsbD_forceWrite]
  by_cases hb : b = 0
  · simp [hb]
  · rw [getLsbD_flip a8 hb]

theorem forceRead_flip (a8 : Byte) : forceRead (a8 ^^^ 0x01) = forceRead a8 := by
  refine BitVec.eq_of_getLsbD_eq fun b _ => ?_
  rw [getLsbD_forceRead, getLsbD_forceRead]
  by_cases hb : b = 0
  · simp [hb]
  · rw [getLsbD_flip a8 hb]

/-- Settles O4: both frames carry the address through `forceWrite` or `forceRead` alone. -/
theorem addressBitIsForced : Obligations.AddressBitIsForced := by
  refine fun p a8 => ⟨fun d => ⟨rfl, ?_⟩, fun n => ⟨rfl, ?_⟩, forceWrite_bit_zero a8, forceRead_bit_zero a8,
    fun b hb => ?_⟩
  · rw [encIW, encIW, forceWrite_flip]
  · rw [encIR, encIR, forceRead_flip]
  · have hb0 : b ≠ 0 := by omega
    simp [getLsbD_forceWrite, getLsbD_forceRead, hb0]

theorem forceWrite_eq_self {a : Byte} (h : a.getLsbD 0 = false) : forceWrite a = a := by
  refine BitVec.eq_of_getLsbD_eq fun b _ => ?_
  rw [getLsbD_forceWrite]
  by_cases hb : b = 0
  · rw [hb, h]; rfl
  · simp [hb]

theorem forceRead_eq_self {a : Byte} (h : a.getLsbD 0 = true) : forceRead a = a := by
  refine BitVec.eq_of_getLsbD_eq fun b _ => ?_
  rw [getLsbD_forceRead]
  by_cases hb : b = 0
  · rw [hb, h]; rfl
  · simp [hb]

/-! ## The frame decoder (30_encoding.md R95, R96) -/

/-- A frame that begins with the start marker, also one too short for R95's line of it. -/
theorem decodeFrame_start {p : Params} (hp : standardParams p = true) (a n : Byte) (rest : List Byte) :
    decodeFrame p (p.mkS :: a :: n :: rest) = decodeStart p a n rest := by
  obtain ⟨hS, _, hR, hW, _⟩ := (standardParams_iff p).mp hp
  cases rest with
  | nil => simp [decodeFrame, decodeStart, hS, hR, hW]
  | cons b more => simp [decodeFrame]

/-- A frame that begins with the write marker, of any length. -/
theorem decodeFrame_bulk {p : Params} (hp : standardParams p = true) (rest : List Byte) :
    decodeFrame p (p.mkW :: rest) = decodeBulk p rest := by
  obtain ⟨hS, _, hR, hW, _⟩ := (standardParams_iff p).mp hp
  match rest with
  | [] | [_] | [_, _] | _ :: _ :: _ :: _ => simp [decodeFrame, hS, hR, hW]

theorem decodeStart_write (p : Params) (a8 n : Byte) {d : List Byte} (hd : d.length = n.toNat) :
    decodeStart p (forceWrite a8) n (d ++ [p.mkP]) = some (.iw (forceWrite a8) d) := by
  rw [decodeStart, if_pos ⟨forceWrite_bit_zero a8, by simp [hd], by simp⟩, List.dropLast_concat]

theorem decodeStart_read (p : Params) (a8 n : Byte) :
    decodeStart p (forceRead a8) n [p.mkP] = some (.ir (forceRead a8) n) := by
  rw [decodeStart, if_neg fun h => ?_, if_pos ⟨forceRead_bit_zero a8, rfl⟩]
  exact Bool.false_ne_true (h.1.symm.trans (forceRead_bit_zero a8))

theorem decodeBulk_append (p : Params) (d : List Byte) : decodeBulk p (d ++ [p.mkP]) = some (.rb d) := by
  simp [decodeBulk]

theorem toNat_ofNat_length {d : List Byte} (hd : d.length ≤ 255) : d.length = (BitVec.ofNat 8 d.length).toNat := by
  rw [BitVec.toNat_ofNat]
  omega

theorem decodeStart_some {p : Params} {a n : Byte} {rest : List Byte} {t : Frame}
    (h : decodeStart p a n rest = some t) :
    (∃ d, rest = d ++ [p.mkP] ∧ d.length = n.toNat ∧ a.getLsbD 0 = false ∧ t = .iw a d) ∨
      (rest = [p.mkP] ∧ a.getLsbD 0 = true ∧ t = .ir a n) := by
  unfold decodeStart at h
  split_ifs at h with hw hr
  · obtain ⟨ha, hl, hlast⟩ := hw
    cases h
    refine .inl ⟨_, (List.dropLast_append_getLast? _ hlast).symm, ?_, ha, rfl⟩
    rw [List.length_dropLast, hl, Nat.add_sub_cancel]
  · cases h
    exact .inr ⟨hr.2, hr.1, rfl⟩

theorem decodeBulk_some {p : Params} {rest : List Byte} {t : Frame} (h : decodeBulk p rest = some t) :
    ∃ d, rest = d ++ [p.mkP] ∧ t = .rb d := by
  unfold decodeBulk at h
  split_ifs at h with hlast
  cases h
  exact ⟨_, (List.dropLast_append_getLast? _ hlast).symm, rfl⟩

/-- Everything that decodes: the three lines of R95 that accept. -/
theorem decodeFrame_some {p : Params} {frame : List Byte} {t : Frame} (h : decodeFrame p frame = some t) :
    (∃ a n rest, frame = p.mkS :: a :: n :: rest ∧ decodeStart p a n rest = some t) ∨
      (∃ rest, frame = p.mkW :: rest ∧ decodeBulk p rest = some t) ∨
      (∃ r, frame = [p.mkR, r, p.mkP] ∧ t = .rr r) := by
  unfold decodeFrame at h
  split at h
  · split_ifs at h with hS hW
    · exact .inl ⟨_, _, _, by rw [hS], h⟩
    · exact .inr (.inl ⟨_, by rw [hW], h⟩)
  · split_ifs at h with hR hW
    · obtain ⟨rfl, rfl⟩ := hR
      cases h
      exact .inr (.inr ⟨_, rfl, rfl⟩)
    · exact .inr (.inl ⟨_, by rw [hW], h⟩)
  · split_ifs at h with hW
    exact .inr (.inl ⟨_, by rw [hW], h⟩)
  · cases h

theorem decodeFrame_ends {p : Params} {frame : List Byte} {t : Frame} (h : decodeFrame p frame = some t) :
    ∃ init, frame = init ++ [p.mkP] := by
  rcases decodeFrame_some h with ⟨a, n, rest, rfl, hstart⟩ | ⟨rest, rfl, hbulk⟩ | ⟨r, rfl, _⟩
  · rcases decodeStart_some hstart with ⟨d, rfl, _⟩ | ⟨rfl, _⟩
    · exact ⟨p.mkS :: a :: n :: d, rfl⟩
    · exact ⟨[p.mkS, a, n], rfl⟩
  · obtain ⟨d, rfl, _⟩ := decodeBulk_some hbulk
    exact ⟨p.mkW :: d, rfl⟩
  · exact ⟨[p.mkR, r], rfl⟩

/-- Settles O6: each accepting line of R95 accepts what its encoder builds. -/
theorem decodedFrameIsEncoded : Obligations.DecodedFrameIsEncoded := by
  intro p _ frame t h
  rcases decodeFrame_some h with ⟨a, n, rest, rfl, hstart⟩ | ⟨rest, rfl, hbulk⟩ | ⟨r, rfl, rfl⟩
  · rcases decodeStart_some hstart with ⟨d, rfl, hd, ha, rfl⟩ | ⟨rfl, ha, rfl⟩
    · have hl : d.length ≤ 255 := by have := n.isLt; omega
      refine ⟨?_, hl, ha⟩
      rw [encIW, forceWrite_eq_self ha, ofNat8_toNat_length d n hd]
      rfl
    · refine ⟨?_, ha⟩
      rw [encIR, forceRead_eq_self ha]
  · obtain ⟨d, rfl, rfl⟩ := decodeBulk_some hbulk
    rfl
  · rfl

/-- Settles O5: the laws by the decoder's equations for the two markers, and Invalid from the way every accepted frame
ends and from R95's tests of the length. -/
theorem frameDecoderLaws : Obligations.FrameDecoderLaws := by
  intro p hp
  obtain ⟨hS, hP, hR, hW, _⟩ := (standardParams_iff p).mp hp
  have hbulk : ∀ d, decodeFrame p (encRB p d) = some (.rb d) := fun d =>
    (decodeFrame_bulk hp _).trans (decodeBulk_append p d)
  refine ⟨fun a8 d hd => ?_, fun a8 n => ?_, fun r => ?_, fun d _ => hbulk d, fun r v => hbulk [r, v], rfl,
    fun frame hend => ?_, fun a n rest ha hl => ?_, fun a n rest ha hl => ?_⟩
  · exact (decodeFrame_start hp _ _ _).trans (decodeStart_write p a8 _ (toNat_ofNat_length hd))
  · exact (decodeFrame_start hp _ _ _).trans (decodeStart_read p a8 n)
  · simp [decodeFrame, encRR]
  · refine Option.eq_none_iff_forall_ne_some.mpr fun t ht => hend ?_
    obtain ⟨init, rfl⟩ := decodeFrame_ends ht
    rw [List.getLast?_concat, hP]
  · rw [← hS, decodeFrame_start hp]
    refine (if_neg fun h => hl h.2.1).trans (if_neg fun h => ?_)
    exact Bool.false_ne_true (ha.symm.trans h.1)
  · rw [← hS, decodeFrame_start hp]
    refine (if_neg fun h => ?_).trans (if_neg fun h => hl (by rw [h.2]; rfl))
    exact Bool.false_ne_true (h.1.symm.trans ha)

end Sys2Proof.Machine
end

section
/-!
PROOFS. The frames on the wire: every step sends only those of R81 to R86 (O46).
-/
namespace Sys2Proof.Machine

/-! ## The requests of the commands are known frames -/

theorem isBccFrame_iw (p : Params) (a8 : Byte) {d : List Byte} (hd : d.length ≤ 255) : isBccFrame p (encIW p a8 d) :=
  .inl ⟨a8, d, hd, rfl⟩

theorem isBccFrame_ir (p : Params) (a8 n : Byte) : isBccFrame p (encIR p a8 n) := .inr (.inl ⟨a8, n, rfl⟩)

theorem isBccFrame_rr (p : Params) (r : Byte) : isBccFrame p (encRR p r) := .inr (.inr (.inl ⟨r, rfl⟩))

theorem isBccFrame_rw (p : Params) (r v : Byte) : isBccFrame p (encRW p r v) := .inr (.inr (.inr (.inl ⟨r, v, rfl⟩)))

theorem isBccFrame_rb (p : Params) {d : List Byte} (hd : d.length ≤ p.maxBulkLen) : isBccFrame p (encRB p d) :=
  .inr (.inr (.inr (.inr ⟨d, hd, rfl⟩)))

/-- A request that sends a frame sends a known one. -/
def Request.IsKnown (p : Params) (r : Request) : Prop := ∀ frame, r = .tx frame → isBccFrame p frame

theorem isKnown_tx {p : Params} {frame : List Byte} (h : isBccFrame p frame) : Request.IsKnown p (.tx frame) := by
  rintro _ ⟨⟩
  exact h

theorem isKnown_poll (p : Params) : Request.IsKnown p (.tx (pollFrame p)) := isKnown_tx (isBccFrame_rr p _)

theorem isKnown_rx (p : Params) (n : Nat) : Request.IsKnown p (.rx n) := nofun

theorem writeRequest_isKnown {p : Params} {own : Label} {site : Site} {frame : List Byte} {ph : Phase} {r : Request}
    (hframe : isBccFrame p frame) (h : writeRequest p own site frame ph = some r) : r.IsKnown p := by
  unfold writeRequest at h
  split_ifs at h <;> cases h
  · exact isKnown_tx hframe
  · exact isKnown_poll p
  · exact isKnown_rx p 1

theorem selectRequest_isKnown {p : Params} {f : Fields} {n : Nat} {ph : Phase} {r : Request}
    (h : selectRequest p f n ph = some r) : r.IsKnown p := by
  unfold selectRequest at h
  split at h <;> cases h
  · exact isKnown_tx (isBccFrame_iw p _ (by simp))
  · exact isKnown_poll p
  · exact isKnown_rx p 1
  · exact isKnown_tx (isBccFrame_ir p _ _)
  · exact isKnown_rx p n

theorem requestAt_isKnown {p : Params} {new : Option Byte} {i : Instr} {ph : Phase} {r : Request}
    (hw : i.wellFormed = true) (hb : i.withinBounds p = true) (h : requestAt p new i ph = some r) : r.IsKnown p := by
  cases i with
  | i2cWrite f d | regWrBytes f d => exact writeRequest_isKnown (isBccFrame_iw p _ (of_decide_eq_true hw)) h
  | regWrByte f len => exact writeRequest_isKnown (isBccFrame_iw p _ (by simp)) h
  | regRdByte f len | regRd16 f len | regRd24be f len => exact selectRequest_isKnown h
  | i2cRead f len =>
    simp only [requestAt] at h
    split at h <;> cases h
    · exact isKnown_tx (isBccFrame_ir p _ _)
    · exact isKnown_rx p _
  | brgRdReg f len =>
    simp only [requestAt] at h
    split at h <;> cases h
    · exact isKnown_tx (isBccFrame_rr p _)
    · exact isKnown_rx p 1
  | brgWrReg f len =>
    simp only [requestAt] at h
    split_ifs at h
    cases h
    exact isKnown_tx (isBccFrame_rw p _ _)
  | brgWrBulk f d =>
    simp only [requestAt] at h
    split_ifs at h
    cases h
    exact isKnown_tx (isBccFrame_rb p (of_decide_eq_true hb))
  | regWrField f len =>
    simp only [requestAt] at h
    split at h
    · obtain ⟨v, _, rfl⟩ := Option.map_eq_some_iff.mp h
      exact isKnown_tx (isBccFrame_iw p _ (by simp))
    · cases h
      exact isKnown_poll p
    · cases h
      exact isKnown_rx p 1
    · exact selectRequest_isKnown h

/-! ## What keeps the frames known -/

/-- One more event: a frame only if it is a known one. -/
theorem State.FramesKnown.event {s t : State} {e : Event} (h : s.FramesKnown) (hp : t.params = s.params)
    (ht : t.trace = s.trace ++ [e]) (he : ∀ frame, e = .tx frame → isBccFrame s.params frame) : t.FramesKnown := by
  intro frame hf
  rw [ht, List.mem_append, List.mem_singleton] at hf
  rw [hp]
  exact hf.elim (h frame) fun hf => he frame hf.symm

theorem framesKnown_issueTx {s : State} (h : s.FramesKnown) (k : Label) {frame : List Byte}
    (hf : Request.IsKnown s.params (.tx frame)) : (issueTx k frame s).FramesKnown :=
  h.event rfl rfl fun g hg => hf g (congrArg Request.tx (Event.tx.inj hg))

theorem framesKnown_latchRecord {s : State} (h : s.FramesKnown) (op : Byte) (f : Fields) (len : Byte)
    (d : Option (List Byte)) : (latchRecord op f len d s).FramesKnown :=
  h.event rfl rfl nofun

theorem framesKnown_reset {s : State} (h : s.FramesKnown) (sent : Nat) : (resetState sent s).FramesKnown :=
  h.event rfl rfl nofun

theorem framesKnown_takeAnswer {s : State} (h : s.FramesKnown) (r : Request) (x : Input) :
    (takeAnswer r x s).FramesKnown :=
  h.event rfl rfl (by cases x <;> nofun)

/-- What a run of command `i` keeps: its bounds, and the frames known. -/
structure SendsKnown (i : Instr) (s : State) : Prop where
  wellFormed : i.wellFormed = true
  bounds : i.withinBounds s.params = true
  frames : s.FramesKnown

theorem SendsKnown.advance {i : Instr} {s t : State} (h : SendsKnown i s) (ha : Advance i s t) : SendsKnown i t := by
  refine ⟨h.wellFormed, ?_, ?_⟩
  · cases ha <;> exact h.bounds
  · cases ha with
    | tx k frame w rx req poll touch =>
      exact framesKnown_issueTx (s := { s with work := w, buf := ⟨s.buf.tx, rx⟩ }) h.frames k
        (requestAt_isKnown h.wellFormed h.bounds req)
    | rx k n w rx req poll touch => exact h.frames.event rfl rfl nofun
    | done st v d w rx may wf touch => exact h.frames.event rfl rfl nofun

theorem SendsKnown.delivered {i : Instr} {s t : State} {x : Input} (h : SendsKnown i s) (hd : Delivered i s x t) :
    SendsKnown i t := by
  cases hd with
  | command r | take => exact ⟨h.wellFormed, h.bounds, h.frames⟩
  | reset sent => exact ⟨h.wellFormed, h.bounds, framesKnown_reset h.frames sent⟩
  | nothing => exact h
  | answer r a req ans adv =>
    have h' : SendsKnown i (takeAnswer r x s) := ⟨h.wellFormed, h.bounds, framesKnown_takeAnswer h.frames r x⟩
    exact h'.advance adv

theorem SendsKnown.inputs {i : Instr} {s : State} (h : SendsKnown i s) (l : List Input) :
    SendsKnown i { s with inputs := l } :=
  ⟨h.wellFormed, h.bounds, h.frames⟩

/-- An accepted command's first frame is one of its requests. -/
theorem sendsKnown_first {i : Instr} {s : State} (hw : i.wellFormed = true) (hb : i.withinBounds s.params = true)
    (h : s.FramesKnown) : SendsKnown i (issueTx (firstLabel i) (firstFrame s.params i) (accept i s)) := by
  obtain ⟨r, hr, hr'⟩ := (first_standing i s).req
  cases hr'
  have haccept : (accept i s).FramesKnown := framesKnown_latchRecord h _ _ _ _
  exact ⟨hw, hb, framesKnown_issueTx haccept _ (requestAt_isKnown hw hb hr)⟩

theorem exec_idle_sendsKnown {i : Instr} {s t : State} (hs : s.phase = .idle) (hw : i.wellFormed = true)
    (hb : i.withinBounds s.params = true) (h : s.FramesKnown) (he : exec i s = .next t) : t.FramesKnown :=
  (exec_keeps_idle i s t (SendsKnown i) hs he (sendsKnown_first hw hb h) (fun _ _ _ _ _ h hd => h.delivered hd)
    (fun _ l h => h.inputs l)).1.frames

theorem exec_busy_sendsKnown {i : Instr} {s t : State} (hs : Standing i s) (hf : inFlight s = some i)
    (hb : i.withinBounds s.params = true) (h : s.FramesKnown) (he : exec i s = .next t) : t.FramesKnown := by
  obtain ⟨_, _, hw⟩ := (inFlight_iff s i).mp hf
  exact (exec_keeps_busy i s t (SendsKnown i) hs hf he ⟨hw, hb, h⟩ (fun _ _ _ _ _ h hd => h.delivered hd)
    (fun _ l h => h.inputs l)).1.frames

/-- In IDLE an input sends nothing. -/
theorem noAnswer_framesKnown {s t : State} {x : Input} (h : s.FramesKnown) (hr : s.request = none)
    (hx : deliver noAnswer x s = .next t) : t.FramesKnown := by
  rcases noAnswer_delivered x s t hx hr with ⟨r, rfl⟩ | rfl | ⟨n, rfl⟩ | rfl
  · exact h
  · exact h
  · exact framesKnown_reset h n
  · exact h

/-- An unassigned code sends nothing (R98). -/
theorem rejectUnassigned_framesKnown {s : State} (op : Byte) (f : Fields) (len : Byte) (h : s.FramesKnown) :
    (rejectUnassigned op f len s).FramesKnown :=
  (framesKnown_latchRecord h op f len none).event rfl rfl nofun

/-- Settles O46: of the things a step from a consistent state can be (`step_cases`), only a command's run sends frames,
and each is the request that the spec gives it at some step (`requestAt_isKnown`). -/
theorem stepSendsOnlyKnownFrames : Obligations.StepSendsOnlyKnownFrames := by
  intro s t hc h ht
  rcases step_cases s hc with ⟨_, _, x, l, n, _, he, hr⟩ | ⟨hs, r, rest, i, _, hd, hb, he⟩ | ⟨_, r, rest, i, _, _, _, he⟩ |
    ⟨_, r, rest, op, f, len, _, _, he⟩ | ⟨_, r, rest, _, _, he⟩ | ⟨i, hf, _, hb, hst, he⟩ <;> rw [he] at ht
  · exact noAnswer_framesKnown (s := { s with inputs := l, drawn := n }) h hr ht
  · exact exec_idle_sendsKnown (s := { s with port := rest }) hs (wellFormed_of_decode hd) hb h ht
  · cases ht
  · cases ht
    exact rejectUnassigned_framesKnown op f len (s := { s with port := rest }) h
  · cases ht
  · obtain ⟨l, n, _, htop⟩ := topUp_eq s
    rw [htop] at ht
    exact exec_busy_sendsKnown (s := { s with inputs := l, drawn := n }) (standing_inputs hst l n) hf hb h ht

end Sys2Proof.Machine
end

section
/-!
PROOFS. Commands that look alike at the ports: two runs over the same inputs, side by side (for O25, O26, O27).
-/
namespace Sys2Proof.Machine

/-! ## States that look alike but for what acceptance latches -/

/-- What acceptance latches and the sequencer reads (10_state.md R21, R26). -/
def State.accepted (s : State) : OperandLatches × Option (List Byte) := (s.ops, s.buf.tx)

/-- `s` with the phase, what acceptance latches, the inputs and the trace blanked. -/
def State.visible (s : State) : State :=
  { s with phase := .idle, ops := .empty, buf := ⟨none, s.buf.rx⟩, inputs := [], drawn := 0, trace := [] }

/-- `s` and `t` differ only in the phase, in what acceptance latched, where `O` relates them, in the inputs, and in that
the trace of one begins with `l` where that of the other begins with `l'`. -/
structure Alike (O : OperandLatches × Option (List Byte) → OperandLatches × Option (List Byte) → Prop)
    (l l' : List Event) (s t : State) : Prop where
  visible : s.visible = t.visible
  accepted : O s.accepted t.accepted
  trace : ∃ e, s.trace = l ++ e ∧ t.trace = l' ++ e

theorem Operation.visible {f : State → State} (hf : Operation f) (s : State) :
    (f s).visible = (f s.visible).visible := by
  cases hf <;> rfl

theorem Operation.accepted {f : State → State} (hf : Operation f) (s : State) : (f s).accepted = s.accepted := by
  cases hf <;> rfl

/-- The event of an operation does not depend on the state. -/
theorem Operation.trace {f : State → State} (hf : Operation f) : ∃ e, ∀ s, (f s).trace = s.trace ++ e := by
  cases hf with
  | issueTx k frame => exact ⟨[.tx frame], fun _ => rfl⟩
  | issueRx k n => exact ⟨[.rx n], fun _ => rfl⟩
  | respond st v d => exact ⟨[.response (mkResponse st v d)], fun _ => rfl⟩
  | setStat v | setPolls n | setRxbuf bytes | setField old mask new => exact ⟨[], fun s => (List.append_nil s.trace).symm⟩

section
variable {O : OperandLatches × Option (List Byte) → OperandLatches × Option (List Byte) → Prop}
  {l l' : List Event} {s t : State}

theorem Alike.map {α : Type} (h : Alike O l l' s t) (g : State → α) : g s.visible = g t.visible := congrArg g h.visible

theorem Alike.work (h : Alike O l l' s t) : s.work = t.work := h.map State.work
theorem Alike.params (h : Alike O l l' s t) : s.params = t.params := h.map State.params
theorem Alike.request (h : Alike O l l' s t) : s.request = t.request := h.map State.request
theorem Alike.rsp (h : Alike O l l' s t) : s.rsp = t.rsp := h.map State.rsp

theorem suffix_append {a b : List Event} (h : ∃ e, a = l ++ e ∧ b = l' ++ e) (e' : List Event) :
    ∃ e, a ++ e' = l ++ e ∧ b ++ e' = l' ++ e := by
  obtain ⟨e, rfl, rfl⟩ := h
  exact ⟨e ++ e', List.append_assoc _ _ _, List.append_assoc _ _ _⟩

theorem Alike.step {f : State → State} (hf : Operation f) (h : Alike O l l' s t) : Alike O l l' (f s) (f t) := by
  refine ⟨?_, ?_, ?_⟩
  · rw [hf.visible, h.visible, ← hf.visible]
  · rw [hf.accepted, hf.accepted]
    exact h.accepted
  · obtain ⟨e, he⟩ := hf.trace
    rw [he, he]
    exact suffix_append h.trace e

/-- The two may stand at different steps. -/
theorem Alike.at_phases (h : Alike O l l' s t) (ph ph' : Phase) :
    Alike O l l' { s with phase := ph } { t with phase := ph' } :=
  ⟨h.visible, h.accepted, h.trace⟩

theorem Alike.with_inputs (h : Alike O l l' s t) (is is' : List Input) :
    Alike O l l' { s with inputs := is } { t with inputs := is' } :=
  ⟨h.visible, h.accepted, h.trace⟩

theorem Alike.issueTx (h : Alike O l l' s t) (k k' : Label) (frame : List Byte) :
    Alike O l l' (issueTx k frame s) (issueTx k' frame t) :=
  (h.step (.issueTx k frame)).at_phases (.txWait k) (.txWait k')

theorem Alike.issueRx (h : Alike O l l' s t) (k k' : Label) (n : Nat) :
    Alike O l l' (issueRx k n s) (issueRx k' n t) :=
  (h.step (.issueRx k n)).at_phases (.rxWait k) (.rxWait k')

theorem Alike.issuePoll (h : Alike O l l' s t) (site site' : Site) :
    Alike O l l' (issuePoll site s) (issuePoll site' t) := by
  unfold Machine.issuePoll
  rw [h.params]
  exact h.issueTx _ _ _

theorem Alike.startWait (h : Alike O l l' s t) (site site' : Site) :
    Alike O l l' (startWait site s) (startWait site' t) :=
  (h.step (.setPolls 0)).issuePoll site site'

theorem Alike.command (h : Alike O l l' s t) (r : List Byte) :
    Alike O l l' { s with port := s.port ++ [r] } { t with port := t.port ++ [r] } :=
  ⟨h.map fun u => { u with port := u.port ++ [r] }, h.accepted, h.trace⟩

theorem Alike.take (h : Alike O l l' s t) : Alike O l l' { s with rspPending := false } { t with rspPending := false } :=
  ⟨h.map fun u => { u with rspPending := false }, h.accepted, h.trace⟩

theorem Alike.reset (h : Alike O l l' s t) (hO : O (.empty, none) (.empty, none)) (sent : Nat) :
    Alike O l l' (resetState sent s) (resetState sent t) := by
  refine ⟨h.map fun u => (resetState sent u).visible, hO, ?_⟩
  rw [resetState_trace, resetState_trace, h.request]
  exact suffix_append h.trace _

theorem Alike.takeAnswer (h : Alike O l l' s t) (r : Request) (x : Input) :
    Alike O l l' (takeAnswer r x s) (takeAnswer r x t) :=
  ⟨h.map fun u => { u with request := none }, h.accepted, suffix_append h.trace _⟩

/-- What the ports show of two states that look alike, after the one acceptance record of each (10_state.md R23). -/
theorem Alike.portsAgree {s₀ : State} {r r' : List Byte}
    (h : Alike O (s₀.trace ++ [Event.accept r]) (s₀.trace ++ [Event.accept r']) s t) (hph : s.phase = .idle ↔ t.phase = .idle)
    (hin : s.inputs = t.inputs) : PortsAgree s₀ s t := by
  obtain ⟨e, hs, ht⟩ := h.trace
  refine ⟨?_, h.rsp, h.map State.rspPending, h.request, hph, h.map State.port, hin⟩
  rw [hs, ht, List.drop_left' (by simp), List.drop_left' (by simp)]

end

/-! ## Two runs over the same inputs -/

/-- From states that `A` relates the two handlers have outcomes that `R` relates. -/
def Matches {α : Type} (A R : State → State → Prop) (k k' : α → State → Out) : Prop :=
  ∀ a s t, A s t → OutRel R (k a s) (k' a t)

theorem OutRel.of_next {R : State → State → Prop} {s : State} {o : Out} (h : OutRel R (.next s) o) :
    ∃ t, o = .next t ∧ R s t := by
  cases h with
  | next h => exact ⟨_, rfl, h⟩

/-- One input, given to both. -/
theorem deliver_outRel {R : State → State → Prop} {h h' : Answer → State → Out} {x : Input} {s t : State}
    (hrequest : s.request = t.request) (hst : R s t)
    (hcommand : ∀ r, R { s with port := s.port ++ [r] } { t with port := t.port ++ [r] })
    (htake : R { s with rspPending := false } { t with rspPending := false })
    (hreset : ∀ sent, x = .reset sent → R (resetState sent s) (resetState sent t))
    (hanswer : ∀ r a, s.request = some r → answerTo r x = some a →
      OutRel R (h a (takeAnswer r x s)) (h' a (takeAnswer r x t))) :
    OutRel R (deliver h x s) (deliver h' x t) := by
  cases x with
  | silent | late => exact .next hst
  | command r => exact .next (hcommand r)
  | take => exact .next htake
  | reset sent => exact .next (hreset sent rfl)
  | txOk | txFail _ | rxOk _ | rxFail =>
    simp only [deliver, ← hrequest]
    split
    · exact .next hst
    · split
      · exact .next hst
      · exact hanswer _ _ ‹_› ‹_›

/-- Where every input keeps `R`, the run of `h'` follows that of `h` as far as that one goes, and goes on from there with
the inputs that it has left. -/
theorem drive_follows {R : State → State → Prop} {h h' : Answer → State → Out} {is : List Input}
    (hbusy : ∀ {s t}, R s t → s.phase ≠ .idle → t.phase ≠ .idle)
    (hdeliver : ∀ {x s t}, x ∈ is → R s t → s.phase ≠ .idle → OutRel R (deliver h x s) (deliver h' x t))
    (hinputs : ∀ {s t} l, R s t → R { s with inputs := l } t) {s t u : State} (hst : R s t)
    (hu : drive h is s = .next u) :
    ∃ v, R u v ∧ drive h' is t = drive h' u.inputs v ∧ (u.phase = .idle ∨ u.inputs = []) := by
  induction is generalizing s t with
  | nil =>
    cases hu
    exact ⟨t, hinputs [] hst, rfl, .inr rfl⟩
  | cons x rest ih =>
    by_cases hs : s.phase = .idle
    · rw [drive_idle _ _ _ hs] at hu
      cases hu
      exact ⟨t, hinputs _ hst, rfl, .inl hs⟩
    · rw [drive_cons _ _ _ _ hs] at hu
      rw [drive_cons _ _ _ _ (hbusy hst hs)]
      have hd := hdeliver List.mem_cons_self hst hs
      cases hx : deliver h x s with
      | next s' =>
        rw [hx] at hd hu
        obtain ⟨t', ht', hst'⟩ := hd.of_next
        rw [ht']
        exact ih (fun hx => hdeliver (List.mem_cons_of_mem _ hx)) hst' hu
      | fault r | refused r => rw [hx] at hu; cases hu

/-- A run has no more to do in IDLE, or with no inputs left. -/
theorem drive_rest {h : Answer → State → Out} {is : List Input} {s : State} (hs : s.phase = .idle ∨ is = []) :
    drive h is s = .next { s with inputs := is } := by
  rcases hs with hs | rfl
  · exact drive_idle _ _ _ hs
  · rfl

/-! ## Runs that look alike throughout -/

section
variable {O : OperandLatches × Option (List Byte) → OperandLatches × Option (List Byte) → Prop}
  {l l' : List Event} {Φ : Phase → Phase → Prop}

/-- Alike, and at steps that `Φ` pairs. -/
structure Paired (O : OperandLatches × Option (List Byte) → OperandLatches × Option (List Byte) → Prop)
    (l l' : List Event) (Φ : Phase → Phase → Prop) (s t : State) : Prop where
  alike : Alike O l l' s t
  phase : Φ s.phase t.phase

/-- `Φ` pairs IDLE with IDLE, and with nothing else. -/
structure PairsIdle (Φ : Phase → Phase → Prop) : Prop where
  idle : Φ .idle .idle
  busy {p q : Phase} : Φ p q → (p = .idle ↔ q = .idle)

theorem deliver_paired {h h' : Answer → State → Out} {x : Input} {s t : State} (hΦ : PairsIdle Φ)
    (hO : (∃ sent, x = .reset sent) → O (.empty, none) (.empty, none))
    (hh : Matches (Paired O l l' Φ) (Paired O l l' Φ) h h') (hst : Paired O l l' Φ s t) :
    OutRel (Paired O l l' Φ) (deliver h x s) (deliver h' x t) :=
  deliver_outRel hst.alike.request hst (fun r => ⟨hst.alike.command r, hst.phase⟩) ⟨hst.alike.take, hst.phase⟩
    (fun sent hx => ⟨hst.alike.reset (hO ⟨sent, hx⟩) sent, hΦ.idle⟩)
    (fun r a _ _ => hh a _ _ ⟨hst.alike.takeAnswer r x, hst.phase⟩)

/-- The first requests of two commands whose first frame is the same. -/
theorem alike_first {i j : Instr} {s : State} (hframe : firstFrame s.params i = firstFrame s.params j)
    (hO : O (latchesOf i, i.data?) (latchesOf j, j.data?)) :
    Alike O (accept i s).trace (accept j s).trace
      (issueTx (firstLabel i) (firstFrame s.params i) (accept i s))
      (issueTx (firstLabel j) (firstFrame s.params j) (accept j s)) := by
  have haccept : Alike O (accept i s).trace (accept j s).trace (accept i s) (accept j s) :=
    ⟨rfl, hO, [], (List.append_nil _).symm, (List.append_nil _).symm⟩
  rw [hframe]
  exact haccept.issueTx _ _ _

/-- Two commands with the same first frame whose answer functions keep the pairing look alike from acceptance on. -/
theorem exec_paired {i j : Instr} {s t : State} (hΦ : PairsIdle Φ) (hdomain : inDomain j = true)
    (hframe : firstFrame s.params i = firstFrame s.params j) (hO : O (latchesOf i, i.data?) (latchesOf j, j.data?))
    (hO₀ : O (.empty, none) (.empty, none)) (hfirst : Φ (.txWait (firstLabel i)) (.txWait (firstLabel j)))
    (hh : ∀ {l l'}, Matches (Paired O l l' Φ) (Paired O l l' Φ) (answerOf i) (answerOf j)) (hs : s.phase = .idle)
    (he : exec i s = .next t) :
    ∃ u, exec j s = .next u ∧ Paired O (accept i s).trace (accept j s).trace Φ t u ∧
      PortsAgree s t u := by
  rw [exec_idle i s (inDomain_of_exec_next he) hs] at he
  obtain ⟨v, hv, hdrive, hend⟩ := drive_follows (fun h => mt (hΦ.busy h.phase).mpr)
    (fun _ h _ => deliver_paired hΦ (fun _ => hO₀) hh h) (fun l h => ⟨h.alike.with_inputs l _, h.phase⟩)
    ⟨alike_first hframe hO, hfirst⟩ he
  rw [exec_idle j s hdomain hs, hdrive, drive_rest (hend.imp_left (hΦ.busy hv.phase).mp)]
  have halike := hv.alike.with_inputs t.inputs t.inputs
  exact ⟨_, rfl, ⟨halike, hv.phase⟩, halike.portsAgree (hΦ.busy hv.phase) rfl⟩

end

/-! ## Waits that look alike (40_codec.md R111) -/

section
variable {O : OperandLatches × Option (List Byte) → OperandLatches × Option (List Byte) → Prop}
  {l l' : List Event} {R : State → State → Prop} {site site' : Site} {k k' : WaitResult → State → Out} {s t : State}

theorem pollMissed_outRel (hk : Matches (Alike O l l') R k k')
    (hpoll : ∀ {s t}, Alike O l l' s t → R (issuePoll site s) (issuePoll site' t)) (h : Alike O l l' s t) :
    OutRel R (pollMissed site k s) (pollMissed site' k' t) := by
  unfold pollMissed
  rw [h.work, h.params]
  refine OutRel.readHeld fun n => ?_
  have hn := h.step (.setPolls (n + 1))
  split
  · exact hk _ _ _ hn
  · exact .next (hpoll hn)

theorem pollAnswer_outRel (hk : Matches (Alike O l l') R k k')
    (hpoll : ∀ {s t}, Alike O l l' s t → R (issuePoll site s) (issuePoll site' t))
    (hread : ∀ {s t}, Alike O l l' s t → R (issueRx (.pRx site) 1 s) (issueRx (.pRx site') 1 t)) (a : Answer)
    (h : Alike O l l' s t)
    (hph : (s.phase = .txWait (.pTx site) ∧ t.phase = .txWait (.pTx site')) ∨
      (s.phase = .rxWait (.pRx site) ∧ t.phase = .rxWait (.pRx site'))) :
    OutRel R (pollAnswer site k a s) (pollAnswer site' k' a t) := by
  cases a with
  | fail => exact pollMissed_outRel hk hpoll h
  | ok bytes =>
    rcases hph with ⟨hs, ht⟩ | ⟨hs, ht⟩
    · simp only [pollAnswer, hs, ht]
      exact .next (hread h)
    · simp only [pollAnswer, hs, ht]
      cases bytes with
      | nil => exact .fault _
      | cons b _ =>
        have hb := h.step (.setStat b)
        dsimp only
        rw [h.params]
        split
        · exact hk _ _ _ hb
        · exact pollMissed_outRel hk hpoll hb

end

end Sys2Proof.Machine
end

section
/-!
PROOFS. Commands that differ in their labels alone, or in fields they ignore (O25, O26).
-/
namespace Sys2Proof.Machine

/-! ## A frame and its wait, under other labels (30_encoding.md R103) -/

/-- The steps of two commands that each send one IW frame and then wait. -/
inductive WritePhases (own own' : Label) (site site' : Site) : Phase → Phase → Prop
  | idle : WritePhases own own' site site' .idle .idle
  | frame : WritePhases own own' site site' (.txWait own) (.txWait own')
  | poll : WritePhases own own' site site' (.txWait (.pTx site)) (.txWait (.pTx site'))
  | read : WritePhases own own' site site' (.rxWait (.pRx site)) (.rxWait (.pRx site'))

/-- The steps of two commands that each send one frame and report nothing. -/
inductive ForgetPhases (own own' : Label) : Phase → Phase → Prop
  | idle : ForgetPhases own own' .idle .idle
  | frame : ForgetPhases own own' (.txWait own) (.txWait own')

theorem writePhases_pairsIdle (own own' : Label) (site site' : Site) : PairsIdle (WritePhases own own' site site') :=
  ⟨.idle, fun h => by cases h <;> simp⟩

theorem forgetPhases_pairsIdle (own own' : Label) : PairsIdle (ForgetPhases own own') :=
  ⟨.idle, fun h => by cases h <;> simp⟩

/-- What `WritePhases` says of two states. -/
theorem writePhases_cases {own own' : Label} {site site' : Site} {p q : Phase} (h : WritePhases own own' site site' p q) :
    (p = .idle ∧ q = .idle) ∨ (p = .txWait own ∧ q = .txWait own') ∨
      ((p = .txWait (.pTx site) ∧ q = .txWait (.pTx site')) ∨ (p = .rxWait (.pRx site) ∧ q = .rxWait (.pRx site'))) := by
  cases h <;> simp

theorem forgetPhases_cases {own own' : Label} {p q : Phase} (h : ForgetPhases own own' p q) :
    (p = .idle ∧ q = .idle) ∨ (p = .txWait own ∧ q = .txWait own') := by
  cases h <;> simp

section
variable {O : OperandLatches × Option (List Byte) → OperandLatches × Option (List Byte) → Prop} {l l' : List Event}

theorem writeDone_paired {Φ : Phase → Phase → Prop} (hΦ : PairsIdle Φ) :
    Matches (Alike O l l') (Paired O l l' Φ) writeDone writeDone := by
  intro w s t h
  cases w with
  | ok | timeout => exact .next ⟨h.step (.respond _ _ _), hΦ.idle⟩

theorem writeAnswer_paired {own own' : Label} {site site' : Site} (hown : own ≠ .pTx site) (hown' : own' ≠ .pTx site') :
    Matches (Paired O l l' (WritePhases own own' site site')) (Paired O l l' (WritePhases own own' site site'))
      (writeAnswer own site) (writeAnswer own' site') := by
  rintro a s t ⟨h, hph⟩
  rcases writePhases_cases hph with ⟨hs, ht⟩ | ⟨hs, ht⟩ | hwait
  · simp only [writeAnswer, hs, ht]
    exact .fault _
  · simp only [writeAnswer, hs, ht, if_true]
    cases a with
    | fail => exact .next ⟨h.step (.respond _ _ _), .idle⟩
    | ok bytes => exact .next ⟨h.startWait site site', .poll⟩
  · rw [writeAnswer_handlesWait own site hown a s (hwait.imp And.left And.left),
      writeAnswer_handlesWait own' site' hown' a t (hwait.imp And.right And.right)]
    exact pollAnswer_outRel (writeDone_paired (writePhases_pairsIdle _ _ _ _)) (fun h => ⟨h.issuePoll _ _, .poll⟩)
      (fun h => ⟨h.issueRx _ _ _, .read⟩) a h hwait

theorem forgetAnswer_paired {own own' : Label} :
    Matches (Paired O l l' (ForgetPhases own own')) (Paired O l l' (ForgetPhases own own'))
      (fun (_ : Answer) => forgetAnswer own) (fun _ => forgetAnswer own') := by
  rintro a s t ⟨h, hph⟩
  rcases forgetPhases_cases hph with ⟨hs, ht⟩ | ⟨hs, ht⟩
  · simp only [forgetAnswer, hs, ht]
    exact .fault _
  · simp only [forgetAnswer, hs, ht, if_true]
    exact .next ⟨h.step (.respond _ _ _), .idle⟩

end

/-- Two writes of one frame look alike at the ports. -/
theorem write_portsAgree {i j : Instr} {own own' : Label} {site site' : Site} {a8 : Byte} {d : List Byte}
    (hi : IsWrite i own site a8 d) (hj : IsWrite j own' site' a8 d) {s t : State} (hs : s.phase = .idle)
    (he : exec i s = .next t) : ∃ u, exec j s = .next u ∧ PortsAgree s t u := by
  obtain ⟨u, hu, _, hports⟩ := exec_paired (O := fun _ _ => True) (Φ := WritePhases own own' site site')
    (writePhases_pairsIdle _ _ _ _) hj.dom (by rw [hi.frm, hj.frm]) trivial trivial
    (by rw [hi.lbl, hj.lbl]; exact .frame) (by rw [hi.ans, hj.ans]; exact writeAnswer_paired hi.own hj.own) hs he
  exact ⟨u, hu, hports⟩

/-- R103 (c): BRG_WR_REG sends the frame of BRG_WR_BULK of its two bytes. -/
theorem brgWrReg_portsAgree {f : Fields} {len : Byte} {s t : State} (hs : s.phase = .idle)
    (he : exec (.brgWrReg f len) s = .next t) : ∃ u, exec (.brgWrBulk f [f.reg, f.val]) s = .next u ∧ PortsAgree s t u := by
  obtain ⟨u, hu, _, hports⟩ := exec_paired (O := fun _ _ => True) (Φ := ForgetPhases .bwTx .bbTx)
    (i := .brgWrReg f len) (j := .brgWrBulk f [f.reg, f.val]) (forgetPhases_pairsIdle _ _) rfl rfl trivial trivial .frame
    forgetAnswer_paired hs he
  exact ⟨u, hu, hports⟩

/-- Settles O26: (a) and (b) are writes of the frame of their I2C_WRITE, under other labels. -/
theorem equivalentCommandsAgreeAtThePorts : Obligations.EquivalentCommandsAgreeAtThePorts := by
  refine fun f len d s t hs => ⟨fun he => ?_, fun he => ?_, brgWrReg_portsAgree hs⟩
  · exact write_portsAgree (isWrite_regWrByte f len) (isWrite_i2cWrite f [f.reg, f.val]) hs he
  · exact write_portsAgree (isWrite_regWrBytes f d) (isWrite_i2cWrite f d) hs he

/-! ## Commands that differ in fields they ignore (30_encoding.md R99) -/

/-- The operand latches that the answers of `i` read, the others blanked. -/
def readByAnswers (i : Instr) (o : OperandLatches) : OperandLatches :=
  match i with
  | .i2cWrite _ _ | .brgRdReg _ _ | .brgWrReg _ _ | .brgWrBulk _ _ | .regWrByte _ _ | .regWrBytes _ _ => .empty
  | .i2cRead _ _ => { OperandLatches.empty with len := o.len }
  | .regRdByte _ _ | .regRd16 _ _ | .regRd24be _ _ => { OperandLatches.empty with addr := o.addr }
  | .regWrField _ _ => { o with op := none, len := none }

section
variable {O : OperandLatches × Option (List Byte) → OperandLatches × Option (List Byte) → Prop} {l l' : List Event}

theorem eq_pairsIdle : PairsIdle (fun p q => p = q) := ⟨rfl, fun h => h ▸ Iff.rfl⟩

/-- Alike, at the same step. -/
abbrev AtSameStep (O : OperandLatches × Option (List Byte) → OperandLatches × Option (List Byte) → Prop)
    (l l' : List Event) : State → State → Prop := Paired O l l' (fun p q => p = q)

theorem Alike.respond {s t : State} (h : Alike O l l' s t) (st : Status) (v : Option Word32) (d : Option (List Byte)) :
    OutRel (AtSameStep O l l') (.next (respond st v d s)) (.next (respond st v d t)) :=
  .next ⟨h.step (.respond st v d), rfl⟩

theorem Alike.sendTx {s t : State} (h : Alike O l l' s t) (k : Label) (frame : List Byte) :
    OutRel (AtSameStep O l l') (.next (Machine.issueTx k frame s)) (.next (Machine.issueTx k frame t)) :=
  .next ⟨h.issueTx k k frame, rfl⟩

theorem Alike.sendRx {s t : State} (h : Alike O l l' s t) (k : Label) (n : Nat) :
    OutRel (AtSameStep O l l') (.next (Machine.issueRx k n s)) (.next (Machine.issueRx k n t)) :=
  .next ⟨h.issueRx k k n, rfl⟩

theorem Alike.beginWait {s t : State} (h : Alike O l l' s t) (site : Site) :
    OutRel (AtSameStep O l l') (.next (Machine.startWait site s)) (.next (Machine.startWait site t)) :=
  .next ⟨h.startWait site site, rfl⟩

theorem pollAnswer_sameStep {k : WaitResult → State → Out} {site : Site}
    (hk : Matches (Alike O l l') (AtSameStep O l l') k k) (a : Answer) {s t : State} (h : Alike O l l' s t)
    (hs : s.phase = .txWait (.pTx site) ∨ s.phase = .rxWait (.pRx site)) (ht : s.phase = t.phase) :
    OutRel (AtSameStep O l l') (pollAnswer site k a s) (pollAnswer site k a t) :=
  pollAnswer_outRel hk (fun h => ⟨h.issuePoll _ _, rfl⟩) (fun h => ⟨h.issueRx _ _ _, rfl⟩) a h
    (hs.imp (fun hs => ⟨hs, ht ▸ hs⟩) (fun hs => ⟨hs, ht ▸ hs⟩))

theorem writeAnswer_sameStep (own : Label) (site : Site) :
    Matches (AtSameStep O l l') (AtSameStep O l l') (writeAnswer own site) (writeAnswer own site) := by
  rintro a s t ⟨h, hph⟩
  unfold writeAnswer
  rw [← hph]
  split
  · cases a with
    | fail => exact h.respond _ _ _
    | ok bytes => exact h.beginWait site
  · split
    · exact pollAnswer_sameStep (writeDone_paired eq_pairsIdle) a h ‹_› hph
    · exact .fault _

theorem forgetAnswer_sameStep (own : Label) :
    Matches (AtSameStep O l l') (AtSameStep O l l') (fun (_ : Answer) => forgetAnswer own) (fun _ => forgetAnswer own) := by
  rintro a s t ⟨h, hph⟩
  dsimp only [forgetAnswer]
  rw [← hph]
  split
  · exact h.respond _ _ _
  · exact .fault _

theorem i2cReadAnswer_sameStep (hlen : ∀ {o o'}, O o o' → o.1.len = o'.1.len) :
    Matches (AtSameStep O l l') (AtSameStep O l l') i2cReadAnswer i2cReadAnswer := by
  rintro a s t ⟨h, hph⟩
  have hl : s.ops.len = t.ops.len := hlen h.accepted
  unfold i2cReadAnswer
  rw [← hph, hl]
  split
  · cases a with
    | fail => exact h.respond _ _ _
    | ok bytes => exact OutRel.readHeld fun n => h.sendRx _ _
  · cases a with
    | fail => exact h.respond _ _ _
    | ok bytes => exact (h.step (.setRxbuf bytes)).respond _ _ _
  · exact .fault _

theorem brgRdRegAnswer_sameStep :
    Matches (AtSameStep O l l') (AtSameStep O l l') brgRdRegAnswer brgRdRegAnswer := by
  rintro a s t ⟨h, hph⟩
  unfold brgRdRegAnswer
  rw [← hph]
  split
  · cases a with
    | fail => exact h.respond _ _ _
    | ok bytes => exact h.sendRx _ _
  · cases a with
    | fail => exact h.respond _ _ _
    | ok bytes =>
      dsimp only
      split
      · exact (h.step (.setRxbuf bytes)).respond _ _ _
      · exact .fault _
  · exact .fault _

theorem readDone_sameStep (assemble : List Byte → Option Word32) :
    Matches (Alike O l l') (AtSameStep O l l') (readDone assemble) (readDone assemble) := by
  intro x s t h
  cases x with
  | fail | timeout => exact h.respond _ _ _
  | ok bytes =>
    unfold readDone
    dsimp only
    split
    · exact h.respond _ _ _
    · exact .fault _

theorem selectWaited_sameStep (haddr : ∀ {o o'}, O o o' → o.1.addr = o'.1.addr) {k : SelectResult → State → Out}
    (hk : Matches (Alike O l l') (AtSameStep O l l') k k) (n : Nat) :
    Matches (Alike O l l') (AtSameStep O l l') (selectWaited n k) (selectWaited n k) := by
  intro w s t h
  have ha : s.ops.addr = t.ops.addr := haddr h.accepted
  cases w with
  | timeout => exact hk _ _ _ h
  | ok =>
    unfold selectWaited
    rw [ha, h.params]
    exact OutRel.readHeld fun a => h.sendTx _ _

theorem selectAnswer_sameStep (haddr : ∀ {o o'}, O o o' → o.1.addr = o'.1.addr) {k : SelectResult → State → Out}
    (hk : Matches (Alike O l l') (AtSameStep O l l') k k) (n : Nat) :
    Matches (AtSameStep O l l') (AtSameStep O l l') (selectAnswer n k) (selectAnswer n k) := by
  rintro a s t ⟨h, hph⟩
  have hwait := pollAnswer_sameStep (site := .s) (selectWaited_sameStep haddr hk n) a h
  unfold selectAnswer
  rw [← hph]
  split
  · cases a with
    | fail => exact hk _ _ _ h
    | ok bytes => exact h.beginWait .s
  · exact hwait (.inl ‹_›) hph
  · exact hwait (.inr ‹_›) hph
  · cases a with
    | fail => exact hk _ _ _ h
    | ok bytes => exact h.sendRx _ _
  · cases a with
    | fail => exact hk _ _ _ h
    | ok bytes => exact hk _ _ _ (h.step (.setRxbuf bytes))
  · exact .fault _

/-- The latches that REG_WR_FIELD's write-back reads hold the same. -/
def SameFieldLatches (o o' : OperandLatches) : Prop :=
  o.addr = o'.addr ∧ o.reg = o'.reg ∧ o.val = o'.val ∧ o.pos = o'.pos ∧ o.wid = o'.wid

theorem fieldAfterRead_sameStep (hO : ∀ {o o'}, O o o' → SameFieldLatches o.1 o'.1) :
    Matches (Alike O l l') (AtSameStep O l l') fieldAfterRead fieldAfterRead := by
  intro x s t h
  cases x with
  | fail | timeout => exact h.respond _ _ _
  | ok bytes =>
    cases bytes with
    | nil => exact .fault _
    | cons old _ =>
      obtain ⟨haddr, hreg, hval, hpos, hwid⟩ : SameFieldLatches s.ops t.ops := hO h.accepted
      unfold fieldAfterRead
      rw [haddr, hreg, hval, hpos, hwid, h.params]
      exact OutRel.readHeld fun pos => OutRel.readHeld fun wid => OutRel.readHeld fun val =>
        OutRel.readHeld fun a => OutRel.readHeld fun r => (h.step (.setField old _ _)).sendTx _ _

theorem fieldDone_sameStep : Matches (Alike O l l') (AtSameStep O l l') fieldDone fieldDone :=
  fun _ _ _ h => h.respond _ _ _

theorem regWrFieldAnswer_sameStep (hO : ∀ {o o'}, O o o' → SameFieldLatches o.1 o'.1) :
    Matches (AtSameStep O l l') (AtSameStep O l l') regWrFieldAnswer regWrFieldAnswer := by
  rintro a s t ⟨h, hph⟩
  have hback := pollAnswer_sameStep (site := .f) fieldDone_sameStep a h
  unfold regWrFieldAnswer
  rw [← hph]
  split
  · cases a with
    | fail => exact h.respond _ _ _
    | ok bytes => exact h.beginWait .f
  · exact hback (.inl ‹_›) hph
  · exact hback (.inr ‹_›) hph
  · exact selectAnswer_sameStep (fun h => (hO h).1) (fieldAfterRead_sameStep hO) 1 a s t ⟨h, hph⟩

/-- Where the latches that the answers of `i` read hold the same, its runs stay alike. -/
theorem answerOf_sameStep (i : Instr) (hO : ∀ {o o'}, O o o' → readByAnswers i o.1 = readByAnswers i o'.1) :
    Matches (AtSameStep O l l') (AtSameStep O l l') (answerOf i) (answerOf i) := by
  have same {α : Type} (g : OperandLatches → α) (hg : ∀ o, g (readByAnswers i o) = g o)
      {o o' : OperandLatches × Option (List Byte)} (h : O o o') : g o.1 = g o'.1 := by
    rw [← hg o.1, hO h, hg]
  cases i with
  | i2cWrite f d | regWrByte f len | regWrBytes f d => exact writeAnswer_sameStep _ _
  | brgWrReg f len | brgWrBulk f d => exact forgetAnswer_sameStep _
  | i2cRead f len => exact i2cReadAnswer_sameStep (same OperandLatches.len fun _ => rfl)
  | brgRdReg f len => exact brgRdRegAnswer_sameStep
  | regRdByte f len | regRd16 f len | regRd24be f len =>
    exact selectAnswer_sameStep (same OperandLatches.addr fun _ => rfl) (readDone_sameStep _) _
  | regWrField f len =>
    exact regWrFieldAnswer_sameStep fun h => ⟨same OperandLatches.addr (fun _ => rfl) h,
      same OperandLatches.reg (fun _ => rfl) h, same OperandLatches.val (fun _ => rfl) h,
      same OperandLatches.pos (fun _ => rfl) h, same OperandLatches.wid (fun _ => rfl) h⟩

end

/-! A command and the same command with its ignored fields at 0 begin alike and answer alike. -/

theorem inDomain_eraseIgnored (i : Instr) : inDomain (eraseIgnored i) = inDomain i := by cases i <;> rfl

theorem answerOf_eraseIgnored (i : Instr) : answerOf (eraseIgnored i) = answerOf i := by cases i <;> rfl

theorem firstLabel_eraseIgnored (i : Instr) : firstLabel (eraseIgnored i) = firstLabel i := by cases i <;> rfl

theorem firstFrame_eraseIgnored (p : Params) (i : Instr) : firstFrame p (eraseIgnored i) = firstFrame p i := by
  cases i <;> rfl

theorem data_eraseIgnored (i : Instr) : (eraseIgnored i).data? = i.data? := by cases i <;> rfl

theorem readByAnswers_eraseIgnored (i : Instr) : readByAnswers (eraseIgnored i) = readByAnswers i := by
  cases i <;> rfl

theorem readByAnswers_latches_eraseIgnored (i : Instr) :
    readByAnswers i (latchesOf (eraseIgnored i)) = readByAnswers i (latchesOf i) := by
  cases i <;> rfl

/-- What `eraseIgnored` keeps, two commands that it makes equal have in common. -/
theorem eq_of_eraseIgnored {α : Type} {g : Instr → α} (hg : ∀ i, g (eraseIgnored i) = g i) {i j : Instr}
    (h : eraseIgnored i = eraseIgnored j) : g i = g j := by
  rw [← hg i, h, hg j]

theorem readByAnswers_latches {i j : Instr} (h : eraseIgnored i = eraseIgnored j) :
    readByAnswers i (latchesOf i) = readByAnswers i (latchesOf j) := by
  have hread : readByAnswers i = readByAnswers j := eq_of_eraseIgnored readByAnswers_eraseIgnored h
  calc readByAnswers i (latchesOf i)
      = readByAnswers i (latchesOf (eraseIgnored i)) := (readByAnswers_latches_eraseIgnored i).symm
    _ = readByAnswers j (latchesOf (eraseIgnored j)) := by rw [hread, h]
    _ = readByAnswers j (latchesOf j) := readByAnswers_latches_eraseIgnored j
    _ = readByAnswers i (latchesOf j) := by rw [hread]

/-- `L.TXBUF` holds the same, and so do the operand latches that the answers of `i` read. -/
def SameForAnswers (i : Instr) (o o' : OperandLatches × Option (List Byte)) : Prop :=
  readByAnswers i o.1 = readByAnswers i o'.1 ∧ o.2 = o'.2

/-- Settles O25: the two commands begin with the same frame and have the same answer function, which reads no ignored
field (`answerOf_sameStep`). -/
theorem ignoredFieldsHaveNoEffect : Obligations.IgnoredFieldsHaveNoEffect := by
  intro i j s t h hs he
  have hdomain : inDomain j = true := by
    rw [← eq_of_eraseIgnored inDomain_eraseIgnored h]
    exact inDomain_of_exec_next he
  have hanswer : answerOf i = answerOf j := eq_of_eraseIgnored answerOf_eraseIgnored h
  obtain ⟨u, hu, hpaired, hports⟩ := exec_paired (O := SameForAnswers i) (Φ := fun p q => p = q) eq_pairsIdle hdomain
    (eq_of_eraseIgnored (firstFrame_eraseIgnored s.params) h)
    ⟨readByAnswers_latches h, eq_of_eraseIgnored data_eraseIgnored h⟩ ⟨rfl, rfl⟩
    (congrArg Phase.txWait (eq_of_eraseIgnored firstLabel_eraseIgnored h))
    (hanswer ▸ answerOf_sameStep i And.left) hs he
  refine ⟨u, hu, hports, hpaired.phase, hpaired.alike.work, ?_⟩
  have htx : t.buf.tx = u.buf.tx := hpaired.alike.accepted.2
  have hrx : t.buf.rx = u.buf.rx := hpaired.alike.map (fun v => v.buf.rx)
  calc t.buf = ⟨t.buf.tx, t.buf.rx⟩ := rfl
    _ = ⟨u.buf.tx, u.buf.rx⟩ := by rw [htx, hrx]

end Sys2Proof.Machine
end

section
/-!
PROOFS. REG_RD_BYTE as I2C_WRITE of the register number and then I2C_READ of one byte (O27).
-/
namespace Sys2Proof.Machine

/-! ## The transport events of two traces -/

theorem transportOf_append (a b : List Event) : transportOf (a ++ b) = transportOf a ++ transportOf b :=
  List.filter_append a b

/-- Traces that begin alike and show the same transport show the same transport from there on. -/
theorem transportOf_drop_eq {l a b : List Event} (ha : l <+: a) (hb : l <+: b) (h : transportOf a = transportOf b) :
    transportOf (a.drop l.length) = transportOf (b.drop l.length) := by
  obtain ⟨e, rfl⟩ := ha
  obtain ⟨e', rfl⟩ := hb
  rw [transportOf_append, transportOf_append] at h
  rw [List.drop_left, List.drop_left]
  exact List.append_cancel_left h

theorem exec_idle_trace {i : Instr} {s t : State} (hs : s.phase = .idle) (he : exec i s = .next t) :
    s.trace <+: t.trace := by
  obtain ⟨e, h⟩ := exec_idle_records hs he
  exact ⟨e, h.trace.symm⟩

/-! ## The select write beside I2C_WRITE (41_register_access.md R140) -/

/-- The select's address operand is latched in the second of two states. -/
def HoldsAddr (f : Fields) (_ o : OperandLatches × Option (List Byte)) : Prop := o.1.addr = some f.addr

/-- I2C_WRITE of the register number beside REG_RD_BYTE: at the same step of the write, or ended alike with a failure, or
I2C_WRITE has responded STATUS_OK where REG_RD_BYTE sends its read frame. -/
inductive Selecting (f : Fields) (l l' : List Event) : State → State → Prop
  | running {s t : State} (paired : Paired (HoldsAddr f) l l' (WritePhases .wTx .sTx .w .s) s t)
      (notOk : s.phase = .idle → s.rsp ≠ some (bareResponse .stOk)) : Selecting f l l' s t
  | selected {s t : State} (alike : Alike (HoldsAddr f) l l' s t) :
      Selecting f l l' (respond .stOk none none s) (issueTx .sIr (encIR t.params f.addr 1) t)

section
variable {f : Fields} {l l' : List Event} {s t : State}

theorem Selecting.failed (h : Alike (HoldsAddr f) l l' s t) {st : Status} (hst : st ≠ .stOk) :
    Selecting f l l' (respond st none none s) (respond st none none t) :=
  .running ⟨h.step (.respond _ _ _), .idle⟩ fun _ hr => hst (congrArg Response.status (Option.some.inj hr))

theorem Selecting.busy (h : Selecting f l l' s t) (hs : s.phase ≠ .idle) :
    Paired (HoldsAddr f) l l' (WritePhases .wTx .sTx .w .s) s t := by
  cases h with
  | running paired _ => exact paired
  | selected alike => exact absurd rfl hs

theorem Selecting.with_inputs (h : Selecting f l l' s t) (is : List Input) :
    Selecting f l l' { s with inputs := is } t := by
  cases h with
  | running paired notOk => exact .running ⟨paired.alike.with_inputs is _, paired.phase⟩ notOk
  | selected alike => exact .selected (alike.with_inputs is _)

/-- The end of the wait: where I2C_WRITE responds STATUS_OK the select sends the read frame. -/
theorem writeDone_selecting : Matches (Alike (HoldsAddr f) l l') (Selecting f l l') writeDone
    (selectWaited 1 (readDone assemble8)) := by
  intro w s t h
  have haddr : t.ops.addr = some f.addr := h.accepted
  cases w with
  | ok =>
    simp only [writeDone, selectWaited, haddr, readHeld_some]
    exact .next (.selected h)
  | timeout => exact .next (.failed h (by decide))

theorem writeAnswer_selecting (a : Answer) (h : Paired (HoldsAddr f) l l' (WritePhases .wTx .sTx .w .s) s t) :
    OutRel (Selecting f l l') (i2cWriteAnswer a s) (regRdByteAnswer a t) := by
  obtain ⟨h, hph⟩ := h
  rcases writePhases_cases hph with ⟨hs, ht⟩ | ⟨hs, ht⟩ | hwait
  · simp only [i2cWriteAnswer, writeAnswer, regRdByteAnswer, selectAnswer, hs, ht]
    exact .fault _
  · simp only [i2cWriteAnswer, writeAnswer, regRdByteAnswer, selectAnswer, hs, ht, if_true]
    cases a with
    | fail => exact .next (.failed h (by decide))
    | ok bytes => exact .next (.running ⟨h.startWait _ _, .poll⟩ nofun)
  · rw [i2cWrite_handlesWait a s (hwait.imp And.left And.left), regRdByteAnswer,
      selectAnswer_handlesWait 1 _ a t (hwait.imp And.right And.right)]
    exact pollAnswer_outRel writeDone_selecting (fun h => .running ⟨h.issuePoll _ _, .poll⟩ nofun)
      (fun h => .running ⟨h.issueRx _ _ _, .read⟩ nofun) a h hwait

theorem deliver_selecting {x : Input} (hx : ∀ sent, x ≠ .reset sent) (h : Selecting f l l' s t) (hs : s.phase ≠ .idle) :
    OutRel (Selecting f l l') (deliver i2cWriteAnswer x s) (deliver regRdByteAnswer x t) := by
  have hp := h.busy hs
  exact deliver_outRel hp.alike.request h (fun r => .running ⟨hp.alike.command r, hp.phase⟩ fun h => absurd h hs)
    (.running ⟨hp.alike.take, hp.phase⟩ fun h => absurd h hs) (fun sent h => absurd h (hx sent))
    fun r a _ _ => writeAnswer_selecting a ⟨hp.alike.takeAnswer r x, hp.phase⟩

end

/-- REG_RD_BYTE follows I2C_WRITE of the register number to its end. -/
theorem regRdByte_follows_i2cWrite (f : Fields) (len : Byte) {s u : State} (hs : s.phase = .idle)
    (hn : noReset s.inputs = true) (he : exec (.i2cWrite f [f.reg]) s = .next u) :
    ∃ v, Selecting f (accept (.i2cWrite f [f.reg]) s).trace (accept (.regRdByte f len) s).trace u v ∧
      exec (.regRdByte f len) s = drive regRdByteAnswer u.inputs v ∧ (u.phase = .idle ∨ u.inputs = []) := by
  rw [exec_idle _ s rfl hs] at he
  rw [exec_idle _ s rfl hs]
  have hfirst : Selecting f (accept (.i2cWrite f [f.reg]) s).trace (accept (.regRdByte f len) s).trace _ _ :=
    .running ⟨alike_first rfl rfl, .frame⟩ nofun
  exact drive_follows (fun h hs => mt ((writePhases_pairsIdle _ _ _ _).busy (h.busy hs).phase).mpr hs)
    (fun hx h hs => deliver_selecting (ne_reset_of_noReset hn hx) h hs) (fun is h => h.with_inputs is) hfirst he

/-! ## The read beside I2C_READ (41_register_access.md R140) -/

/-- I2C_READ of one byte beside the read of REG_RD_BYTE: at the same step, or ended with the same status and data. -/
structure Reading (s t : State) : Prop where
  request : s.request = t.request
  transport : transportOf s.trace = transportOf t.trace
  step : ((s.phase = .txWait .rTx ∧ t.phase = .txWait .sIr ∧ s.ops.len = some 1) ∨
      (s.phase = .rxWait .rRx ∧ t.phase = .rxWait .sRx ∧ ∀ r, s.request = some r → r = .rx 1)) ∨
    (s.phase = .idle ∧ t.phase = .idle ∧
      t.rsp.map (fun r => (r.status, r.data)) = s.rsp.map (fun r => (r.status, r.data)))

theorem Reading.idle_iff {s t : State} (h : Reading s t) : s.phase = .idle ↔ t.phase = .idle := by
  rcases h.step with (⟨hs, ht, _⟩ | ⟨hs, ht, _⟩) | ⟨hs, ht, _⟩ <;> simp [hs, ht]

theorem transportOf_append_congr {a b : List Event} (h : transportOf a = transportOf b) (e : List Event) :
    transportOf (a ++ e) = transportOf (b ++ e) := by
  rw [transportOf_append, transportOf_append, h]

/-- Responses are no transport events, and VALUE is not compared. -/
theorem Reading.responded {s t : State} (h : transportOf s.trace = transportOf t.trace) (st : Status)
    (v v' : Option Word32) (d : Option (List Byte)) : Reading (respond st v d s) (respond st v' d t) := by
  refine ⟨rfl, ?_, .inr ⟨rfl, rfl, rfl⟩⟩
  rw [respond_trace, respond_trace, transportOf_append, transportOf_append, h]
  rfl

theorem readAnswer_reading {s t : State} {r : Request} {a : Answer} (h : transportOf s.trace = transportOf t.trace)
    (hshape : Shaped r a)
    (hstep : (s.phase = .txWait .rTx ∧ t.phase = .txWait .sIr ∧ s.ops.len = some 1) ∨
      (s.phase = .rxWait .rRx ∧ t.phase = .rxWait .sRx ∧ r = .rx 1)) :
    OutRel Reading (i2cReadAnswer a s) (regRdByteAnswer a t) := by
  rcases hstep with ⟨hs, ht, hlen⟩ | ⟨hs, ht, rfl⟩
  · simp only [i2cReadAnswer, regRdByteAnswer, selectAnswer, hs, ht, hlen, readHeld_some]
    cases a with
    | fail => exact .next (.responded h _ _ _ _)
    | ok bytes =>
      refine .next ⟨rfl, transportOf_append_congr h _, .inl (.inr ⟨rfl, rfl, ?_⟩)⟩
      rintro r ⟨⟩
      rfl
  · simp only [i2cReadAnswer, regRdByteAnswer, selectAnswer, hs, ht]
    cases a with
    | fail => exact .next (.responded h _ _ _ _)
    | ok bytes =>
      obtain ⟨b, rfl⟩ := List.length_eq_one_iff.mp (hshape 1 bytes rfl rfl)
      exact .next (.responded (s := setRxbuf [b] s) (t := setRxbuf [b] t) h _ _ _ _)

theorem deliver_reading {x : Input} {s t : State} (h : Reading s t) (hs : s.phase ≠ .idle) :
    OutRel Reading (deliver i2cReadAnswer x s) (deliver regRdByteAnswer x t) := by
  obtain ⟨hrequest, htransport, hstep⟩ := h
  have hstep := hstep.resolve_right fun h => hs h.1
  refine deliver_outRel hrequest ⟨hrequest, htransport, .inl hstep⟩ (fun r => ?_) ?_ (fun sent _ => ?_)
    fun r a hr ha => ?_
  · exact ⟨hrequest, htransport, .inl hstep⟩
  · exact ⟨hrequest, htransport, .inl hstep⟩
  · refine ⟨rfl, ?_, .inr ⟨rfl, rfl, rfl⟩⟩
    rw [resetState_trace, resetState_trace, transportOf_append, transportOf_append, htransport]
    rfl
  · exact readAnswer_reading (transportOf_append_congr htransport _) (answerTo_shaped ha)
      (hstep.imp_right fun ⟨hs, ht, hreq⟩ => ⟨hs, ht, hreq r hr⟩)

/-- Once the select has ended OK, REG_RD_BYTE follows I2C_READ of one byte to its end. -/
theorem regRdByte_follows_i2cRead {f : Fields} {l l' : List Event} {s t v : State} (hl : transportOf l = transportOf l')
    (h : Alike (HoldsAddr f) l l' s t) (he : exec (.i2cRead f 1) (respond .stOk none none s) = .next v) :
    ∃ w, Reading v w ∧ drive regRdByteAnswer s.inputs (issueTx .sIr (encIR t.params f.addr 1) t) =
      .next { w with inputs := v.inputs } := by
  obtain ⟨e, hs, ht⟩ := h.trace
  have hfirst : Reading (issueTx .rTx (encIR s.params f.addr 1) (accept (.i2cRead f 1) (respond .stOk none none s)))
      (issueTx .sIr (encIR t.params f.addr 1) t) := by
    refine ⟨by rw [h.params]; rfl, ?_, .inl (.inl ⟨rfl, rfl, rfl⟩)⟩
    rw [h.params, issueTx_trace, issueTx_trace]
    refine transportOf_append_congr ?_ _
    rw [accept, latchRecord_trace, respond_trace, hs, ht]
    simp only [transportOf_append, hl]
    simp [transportOf]
  rw [exec_idle _ _ rfl rfl] at he
  obtain ⟨w, hw, hdrive, hend⟩ := drive_follows (fun h => mt h.idle_iff.mpr) (fun _ h hs => deliver_reading h hs)
    (fun is h => ⟨h.request, h.transport, h.step⟩) hfirst he
  exact ⟨w, hw, hdrive.trans (drive_rest (hend.imp_left hw.idle_iff.mp))⟩

/-- Settles O27: REG_RD_BYTE follows I2C_WRITE to its end; where that reported STATUS_OK, it follows I2C_READ from there. -/
theorem regRdByteIsSelectThenRead : Obligations.RegRdByteIsSelectThenRead := by
  intro f len s u hs hn he
  have hl : transportOf (accept (.i2cWrite f [f.reg]) s).trace = transportOf (accept (.regRdByte f len) s).trace := by
    rw [accept, accept, latchRecord_trace, latchRecord_trace, transportOf_append, transportOf_append]
    rfl
  obtain ⟨v, hsel, hexec, hend⟩ := regRdByte_follows_i2cWrite f len hs hn he
  have hsu := exec_idle_trace hs he
  cases hsel with
  | running paired notOk =>
    have hidle := (writePhases_pairsIdle _ _ _ _).busy paired.phase
    have ht := hexec.trans (drive_rest (hend.imp_left hidle.mp))
    refine ⟨_, ht, fun ⟨hi, hok⟩ => absurd hok (notOk hi), fun _ => ⟨?_, rfl, ?_, hidle.symm, fun _ => ?_⟩⟩
    · refine transportOf_drop_eq (exec_idle_trace hs ht) hsu ?_
      obtain ⟨e, hu, hv⟩ := paired.alike.trace
      show transportOf v.trace = _
      rw [hu, hv, transportOf_append, transportOf_append, hl]
    · exact paired.alike.request.symm
    · exact paired.alike.rsp.symm
  | @selected s₁ t₁ alike =>
    obtain ⟨v, hv⟩ := exec_answers (.i2cRead f 1) (respond .stOk none none s₁) rfl (.inl rfl)
    obtain ⟨w, hw, hdrive⟩ := regRdByte_follows_i2cRead hl alike hv
    have ht := hexec.trans hdrive
    refine ⟨_, ht, fun _ => ⟨v, hv, ?_, rfl, hw.request.symm, hw.idle_iff.symm, fun hi => ?_⟩, fun h => absurd ⟨rfl, rfl⟩ h⟩
    · exact transportOf_drop_eq (exec_idle_trace hs ht) (hsu.trans (exec_idle_trace rfl hv)) hw.transport.symm
    · rcases hw.step with (⟨_, hbusy, _⟩ | ⟨_, hbusy, _⟩) | ⟨_, _, hrsp⟩
      · exact absurd (hbusy.symm.trans hi) nofun
      · exact absurd (hbusy.symm.trans hi) nofun
      · exact hrsp

end Sys2Proof.Machine
end

section
/-!
PROOFS. The commands of 40_codec.md over the answers the environment gives them (O10, O13, O14, O15, O16), and over its
silence (O29). A command's run is followed through the states `during` it, one rule per operation of the sequencer.
-/
namespace Sys2Proof.Machine

/-! ## The states of a command between its acceptance and its response -/

/-- `s` after command `i`, accepted in `s`, has come to `phase` with `request` outstanding: the work latches are `w`,
`L.RXBUF` is `rx`, and `events` are the transport events since acceptance. The inputs are those of `s`. -/
def during (i : Instr) (phase : Phase) (request : Option Request) (w : WorkLatches) (rx : Option (List Byte))
    (events : List Event) (s : State) : State :=
  { s with
    phase := phase
    request := request
    ops := latchesOf i
    work := w
    buf := ⟨i.data?, rx⟩
    trace := s.trace ++ (.accept (encode i) :: events) }

section
variable (i : Instr) (ph : Phase) (req : Option Request) (w : WorkLatches) (rx : Option (List Byte)) (ev : List Event)
  (s : State)

@[simp] theorem during_phase : (during i ph req w rx ev s).phase = ph := rfl
@[simp] theorem during_request : (during i ph req w rx ev s).request = req := rfl
@[simp] theorem during_params : (during i ph req w rx ev s).params = s.params := rfl

theorem during_event (ph' : Phase) (req' : Option Request) (w' : WorkLatches) (rx' : Option (List Byte))
    (ev' : List Event) :
    { during i ph req w rx ev s with
      phase := ph', request := req', work := w', buf := ⟨i.data?, rx'⟩
      trace := (during i ph req w rx ev s).trace ++ ev' } = during i ph' req' w' rx' (ev ++ ev') s := by
  simp [during]

theorem issueTx_accept (k : Label) (frame : List Byte) :
    issueTx k frame (accept i s) = during i (.txWait k) (some (.tx frame)) s.work s.buf.rx [.tx frame] s := by
  simp [during, issueTx, accept, latchRecord, latchesOf, encode]

theorem issueRx_during (k : Label) (n : Nat) :
    issueRx k n (during i ph req w rx ev s) = during i (.rxWait k) (some (.rx n)) w rx (ev ++ [.rx n]) s :=
  during_event i ph req w rx ev s _ _ _ _ _

theorem takeAnswer_during (r : Request) (x : Input) :
    takeAnswer r x (during i ph req w rx ev s) = during i ph none w rx (ev ++ [answerEvent r x]) s :=
  during_event i ph req w rx ev s _ _ _ _ _

theorem missed_during (ms : List Miss) (stat : Option Byte) :
    missed ms (during i ph req (polled stat 0 w) rx ev s) =
      during i ph req (polled (missStat stat ms) ms.length w) rx (ev ++ missEvents s.params ms) s := by
  simp [missed, during, polled]

theorem setRxbuf_during (bytes : List Byte) :
    setRxbuf bytes (during i ph req w rx ev s) = during i ph req w (some bytes) ev s := rfl

/-- A response ends the run; the inputs after it are left unread (R12). -/
theorem drive_respond (h : Answer → State → Out) (st : Status) (v : Option Word32) (d : Option (List Byte))
    (rest : List Input) :
    drive h rest (respond st v d (during i ph req w rx ev s)) =
      .next (finished i w rx (mkResponse st v d) ev rest s) := by
  rw [drive_idle _ _ _ rfl]
  simp [respond, during, finished]

/-- Where no input is left, the command waits. -/
theorem drive_during_nil (h : Answer → State → Out) (r : Request) :
    drive h [] (during i ph (some r) w rx ev s) = .next (waiting i ph r w rx ev s) := rfl

/-- An answer of the request's shape is recorded and handed to the command (R24, R215). -/
theorem drive_during_answer (h : Answer → State → Out) (x : Input) (rest : List Input) (r : Request) (a : Answer)
    (hph : ph ≠ .idle) (ha : answerTo r x = some a) :
    drive h (x :: rest) (during i ph (some r) w rx ev s) =
      (h a (during i ph none w rx (ev ++ [answerEvent r x]) s)).andThen (drive h rest) := by
  have hdeliver : deliver h x (during i ph (some r) w rx ev s) =
      h a (takeAnswer r x (during i ph (some r) w rx ev s)) := by
    cases x with
    | txOk | txFail _ | rxOk _ | rxFail => simp [deliver, ha]
    | silent | late | command _ | take | reset _ => cases r <;> cases ha
  rw [drive_cons _ _ _ _ hph, hdeliver, takeAnswer_during]

theorem drive_during_txOk (h : Answer → State → Out) (k : Label) (frame : List Byte) (rest : List Input) :
    drive h (.txOk :: rest) (during i (.txWait k) (some (.tx frame)) w rx ev s) =
      (h (.ok []) (during i (.txWait k) none w rx (ev ++ [.txOk]) s)).andThen (drive h rest) :=
  drive_during_answer i _ w rx ev s h .txOk rest (.tx frame) (.ok []) nofun rfl

theorem drive_during_txFail (h : Answer → State → Out) (k : Label) (frame : List Byte) (n : Nat) (rest : List Input) :
    drive h (.txFail n :: rest) (during i (.txWait k) (some (.tx frame)) w rx ev s) =
      (h .fail (during i (.txWait k) none w rx (ev ++ [.txFail (frame.take n)]) s)).andThen (drive h rest) :=
  drive_during_answer i _ w rx ev s h (.txFail n) rest (.tx frame) .fail nofun rfl

theorem drive_during_rxOk (h : Answer → State → Out) (k : Label) {n : Nat} {bytes : List Byte} (hl : bytes.length = n)
    (rest : List Input) :
    drive h (.rxOk bytes :: rest) (during i (.rxWait k) (some (.rx n)) w rx ev s) =
      (h (.ok bytes) (during i (.rxWait k) none w rx (ev ++ [.rxOk bytes]) s)).andThen (drive h rest) :=
  drive_during_answer i _ w rx ev s h (.rxOk bytes) rest (.rx n) (.ok bytes) nofun (if_pos hl)

theorem drive_during_rxFail (h : Answer → State → Out) (k : Label) (n : Nat) (rest : List Input) :
    drive h (.rxFail :: rest) (during i (.rxWait k) (some (.rx n)) w rx ev s) =
      (h .fail (during i (.rxWait k) none w rx (ev ++ [.rxFail]) s)).andThen (drive h rest) :=
  drive_during_answer i _ w rx ev s h .rxFail rest (.rx n) .fail nofun rfl

end

/-- A command accepted in IDLE stands at its first request (R25). -/
theorem exec_idle_during (i : Instr) {s : State} (hd : inDomain i = true) (hs : s.phase = .idle) :
    exec i s = drive (answerOf i) s.inputs (during i (.txWait (firstLabel i)) (some (.tx (firstFrame s.params i)))
      s.work s.buf.rx [.tx (firstFrame s.params i)] s) := by
  rw [exec_idle i s hd hs, issueTx_accept]

/-- Before its first frame is answered, a command waits at its first step. -/
theorem exec_idle_waits (i : Instr) {s : State} (hd : inDomain i = true) (hs : s.phase = .idle) (hi : s.inputs = []) :
    exec i s = .next (waiting i (.txWait (firstLabel i)) (.tx (firstFrame s.params i)) s.work s.buf.rx
      [.tx (firstFrame s.params i)] s) := by
  rw [exec_idle_during i hd hs, hi, drive_during_nil]

/-- The first frame is answered OK. -/
theorem exec_idle_txOk (i : Instr) {s : State} {rest : List Input} (hd : inDomain i = true) (hs : s.phase = .idle)
    (hi : s.inputs = .txOk :: rest) :
    exec i s = (answerOf i (.ok []) (during i (.txWait (firstLabel i)) none s.work s.buf.rx
      [.tx (firstFrame s.params i), .txOk] s)).andThen (drive (answerOf i) rest) := by
  rw [exec_idle_during i hd hs, hi, drive_during_txOk]
  rfl

/-- The first frame fails, with any part of it delivered (R215). -/
theorem exec_idle_txFail (i : Instr) {s : State} {n : Nat} {rest : List Input} (hd : inDomain i = true)
    (hs : s.phase = .idle) (hi : s.inputs = .txFail n :: rest) :
    exec i s = (answerOf i .fail (during i (.txWait (firstLabel i)) none s.work s.buf.rx
      (txFails (firstFrame s.params i) n) s)).andThen (drive (answerOf i) rest) := by
  rw [exec_idle_during i hd hs, hi, drive_during_txFail]
  rfl

/-! ## Waits of a command (40_codec.md R111) -/

section
variable {h : Answer → State → Out} {site : Site} {k : WaitResult → State → Out} (hh : HandlesWait h site k)
  (i : Instr) (ph : Phase) (req : Option Request) (stat : Option Byte) (w : WorkLatches) (rx : Option (List Byte))
  (ev : List Event) {s : State} {ms : List Miss} (hm : allMiss s.params ms = true)
include hh hm

/-- Not-OK polls within the bound bring the wait to its next poll. -/
theorem drive_during_misses (rest : List Input) (hb : withinBound s.params ms.length = true) :
    drive h (missInputs ms ++ rest) (issuePoll site (during i ph req (polled stat 0 w) rx ev s)) =
      drive h rest (issuePoll site
        (during i ph req (polled (missStat stat ms) ms.length w) rx (ev ++ missEvents s.params ms) s)) := by
  rw [drive_misses h site k hh ms rest (during i ph req (polled stat 0 w) rx ev s) 0 rfl hm (by simpa using hb),
    missed_during]

/-- The poll that reads the sentinel ends the wait (R111 OK). -/
theorem drive_during_waitOk (rest : List Input) (hb : withinBound s.params ms.length = true) :
    drive h (waitInputs s.params ms ++ rest) (issuePoll site (during i ph req (polled stat 0 w) rx ev s)) =
      (k .ok (during i (.rxWait (.pRx site)) none (polled (some s.params.okSentinel) ms.length w) rx
        (ev ++ waitEvents s.params ms) s)).andThen (drive h rest) := by
  rw [waitInputs, List.append_assoc, drive_during_misses hh i ph req stat w rx ev hm _ hb]
  refine (drive_ok h site k hh rest _).trans ?_
  rw [waitEvents, ← List.append_assoc]
  exact congrArg (fun t => (k .ok t).andThen (drive h rest)) (during_event i _ _ _ rx _ s _ _ _ rx _)

/-- As many not-OK polls as `MAX_POLLS` end the wait (R111 TIMEOUT). -/
theorem drive_during_timeout (rest : List Input) (hp : s.params.maxPolls = some ms.length) (h0 : 0 < ms.length) :
    ∃ ph', drive h (missInputs ms ++ rest) (issuePoll site (during i ph req (polled stat 0 w) rx ev s)) =
      (k .timeout (during i ph' none (polled (missStat stat ms) ms.length w) rx (ev ++ missEvents s.params ms) s)).andThen
        (drive h rest) := by
  obtain ⟨ph', hdrive⟩ := drive_timeout h site k hh ms rest (during i ph req (polled stat 0 w) rx ev s) rfl hm hp h0
  exact ⟨ph', by rw [hdrive, missed_during]; rfl⟩

/-- Otherwise the command waits at its next poll (R206). -/
theorem drive_during_polls (hb : withinBound s.params ms.length = true) :
    drive h (missInputs ms) (issuePoll site (during i ph req (polled stat 0 w) rx ev s)) =
      .next (waiting i (.txWait (.pTx site)) (.tx (framePoll s.params)) (polled (missStat stat ms) ms.length w) rx
        (ev ++ missEvents s.params ms ++ [.tx (framePoll s.params)]) s) := by
  rw [← List.append_nil (missInputs ms), drive_during_misses hh i ph req stat w rx ev hm [] hb]
  exact congrArg (drive h []) (during_event i _ _ _ rx _ s _ _ _ rx _)

end

/-! ## The writes: one IW frame and its wait (40_codec.md R112) -/

theorem writeAnswer_frame_ok {own : Label} {s : State} (hs : s.phase = .txWait own) (site : Site) (bytes : List Byte) :
    writeAnswer own site (.ok bytes) s = .next (startWait site s) := if_pos hs

theorem writeAnswer_frame_fail {own : Label} {s : State} (hs : s.phase = .txWait own) (site : Site) :
    writeAnswer own site .fail s = .next (respond .stFail none none s) := if_pos hs

/-- The frame of a write is answered OK: its wait begins, with no poll counted (R111). -/
theorem write_begins_wait {i : Instr} {own : Label} {site : Site} {a8 : Byte} {d : List Byte}
    (h : IsWrite i own site a8 d) {s : State} (hs : s.phase = .idle) {rest : List Input}
    (hi : s.inputs = .txOk :: rest) :
    exec i s = drive (answerOf i) rest (issuePoll site (during i (.txWait own) none (polled s.work.stat 0 s.work)
      s.buf.rx [.tx (frameIW s.params a8 d), .txOk] s)) := by
  rw [exec_idle_txOk i h.dom hs hi, h.ans, h.lbl, h.frm, writeAnswer_frame_ok (during_phase ..)]
  rfl

/-- A write of one frame behaves as R112 says: one clause per way the environment can answer. -/
theorem writeBehaves_of_isWrite {i : Instr} {own : Label} {site : Site} {a8 : Byte} {d : List Byte}
    (h : IsWrite i own site a8 d) : WriteBehaves i own site a8 d := by
  intro s hs
  have hwait := write_handlesWait h
  refine ⟨fun ms rest hm hb hi => ?_, fun n rest hi => ?_, fun ms rest hm hp h0 hi => ?_, fun ms hm hb hi => ?_,
    fun hi => ?_⟩
  · rw [write_begins_wait h hs hi, drive_during_waitOk (hh := hwait) (hm := hm) (hb := hb)]
    exact drive_respond ..
  · rw [exec_idle_txFail i h.dom hs hi, h.ans, h.lbl, h.frm, writeAnswer_frame_fail (during_phase ..)]
    exact drive_respond ..
  · obtain ⟨ph, hdrive⟩ := drive_during_timeout hwait i (.txWait own) none s.work.stat s.work s.buf.rx
      [.tx (frameIW s.params a8 d), .txOk] hm rest hp h0
    rw [write_begins_wait h hs hi, hdrive]
    exact drive_respond ..
  · rw [write_begins_wait h hs hi]
    exact drive_during_polls (hh := hwait) (hm := hm) (hb := hb) ..
  · rw [exec_idle_waits i h.dom hs hi, h.lbl, h.frm]
    rfl

/-- Settles O10: I2C_WRITE is a write of its data. -/
theorem i2cWriteBehaves : Obligations.I2cWriteBehaves :=
  fun f d _ => ⟨rfl, writeBehaves_of_isWrite (isWrite_i2cWrite f d)⟩

/-! ## Silence (40_codec.md R131) -/

/-- A busy sequencer's run over silent moments and late answers only uses them up. -/
theorem drive_silent (h : Answer → State → Out) {is : List Input} {s : State} (hs : s.phase ≠ .idle)
    (hsilent : ∀ x ∈ is, x = .silent ∨ x = .late) : drive h is s = .next { s with inputs := [] } := by
  induction is with
  | nil => rfl
  | cons x rest ih =>
    have hx : deliver h x s = .next s := by
      rcases hsilent x List.mem_cons_self with rfl | rfl <;> rfl
    rw [drive_cons _ _ _ _ hs, hx]
    exact ih fun y hy => hsilent y (List.mem_cons_of_mem x hy)

/-- Settles O29: each silent moment and each late answer leaves the state as it is. -/
theorem silentTransportChangesNothing : Obligations.SilentTransportChangesNothing := by
  intro i s hs hf hd hsilent
  rw [exec_inFlight i s hd hs hf]
  exact drive_silent (answerOf i) hs hsilent

/-! ## The reads without a poll (40_codec.md R113, R114) -/

/-- The read frame is answered OK: the command stands at its `RxRead` (R113). -/
theorem i2cRead_begins_read (f : Fields) (len : Byte) {s : State} (hs : s.phase = .idle) {rest : List Input}
    (hi : s.inputs = .txOk :: rest) :
    exec (.i2cRead f len) s = drive i2cReadAnswer rest (during (.i2cRead f len) (.rxWait .rRx)
      (some (.rx len.toNat)) s.work s.buf.rx [.tx (frameIR s.params f.addr len), .txOk, .rx len.toNat] s) := by
  rw [exec_idle_txOk _ rfl hs hi]
  exact congrArg (drive i2cReadAnswer rest) (issueRx_during ..)

/-- The read frame is answered OK: the command stands at its one `RxRead` (R114). -/
theorem brgRdReg_begins_read (f : Fields) (len : Byte) {s : State} (hs : s.phase = .idle) {rest : List Input}
    (hi : s.inputs = .txOk :: rest) :
    exec (.brgRdReg f len) s = drive brgRdRegAnswer rest (during (.brgRdReg f len) (.rxWait .bRx) (some (.rx 1))
      s.work s.buf.rx [.tx [s.params.mkR, f.reg, s.params.mkP], .txOk, .rx 1] s) := by
  rw [exec_idle_txOk _ rfl hs hi]
  exact congrArg (drive brgRdRegAnswer rest) (issueRx_during ..)

theorem i2cReadAnswer_read_ok {s : State} (hs : s.phase = .rxWait .rRx) (bytes : List Byte) :
    i2cReadAnswer (.ok bytes) s = .next (respond .stOk none (some bytes) (setRxbuf bytes s)) := by
  simp only [i2cReadAnswer, hs]

theorem brgRdRegAnswer_read_ok {s : State} (hs : s.phase = .rxWait .bRx) (b : Byte) :
    brgRdRegAnswer (.ok [b]) s = .next (respond .stOk (some (b.setWidth 32)) (some [b]) (setRxbuf [b] s)) := by
  simp only [brgRdRegAnswer, hs, assemble8]

/-- Settles O13: R113's two steps, each answered or not. -/
theorem i2cReadBehaves : Obligations.I2cReadBehaves := by
  intro f len s hs
  refine ⟨rfl, fun bytes rest hl hi => ?_, fun n rest hi => ?_, fun rest hi => ?_, fun hi => ?_, fun hi => ?_⟩
  · have hresponse : mkResponse .stOk none (some bytes) = ⟨.stOk, none, some bytes, some len⟩ := by
      simp [mkResponse, hl]
    rw [i2cRead_begins_read f len hs hi, drive_during_rxOk (hl := hl),
      i2cReadAnswer_read_ok (during_phase ..), setRxbuf_during, ← hresponse]
    exact drive_respond ..
  · rw [exec_idle_txFail _ rfl hs hi]
    exact drive_respond ..
  · rw [i2cRead_begins_read f len hs hi, drive_during_rxFail]
    exact drive_respond ..
  · exact exec_idle_waits _ rfl hs hi
  · rw [i2cRead_begins_read f len hs hi]
    exact drive_during_nil ..

/-- Settles O14: R114's two steps; the byte read is reported as it is. -/
theorem brgRdRegBehaves : Obligations.BrgRdRegBehaves := by
  intro f len s hs
  refine ⟨rfl, fun b rest hi => ?_, fun n rest hi => ?_, fun rest hi => ?_, fun hi => ?_⟩
  · rw [brgRdReg_begins_read f len hs hi, drive_during_rxOk (hl := List.length_singleton),
      brgRdRegAnswer_read_ok (during_phase ..), setRxbuf_during]
    exact drive_respond ..
  · rw [exec_idle_txFail _ rfl hs hi]
    exact drive_respond ..
  · rw [brgRdReg_begins_read f len hs hi, drive_during_rxFail]
    exact drive_respond ..
  · exact exec_idle_waits _ rfl hs hi

/-! ## Fire-and-forget (40_codec.md R115, R116) -/

theorem forgetAnswer_frame {own : Label} {s : State} (hs : s.phase = .txWait own) :
    forgetAnswer own s = .next (respond .stNone none none s) := if_pos hs

theorem forgetBehaves_of_forgetAnswer {i : Instr} (hd : inDomain i = true)
    (hans : ∀ a, answerOf i a = forgetAnswer (firstLabel i)) :
    ForgetBehaves i (firstLabel i) (fun p => firstFrame p i) := by
  intro s hs _
  refine ⟨fun rest hi => ?_, fun n rest hi => ?_, exec_idle_waits i hd hs⟩
  · rw [exec_idle_txOk i hd hs hi, hans, forgetAnswer_frame (during_phase ..)]
    exact drive_respond ..
  · rw [exec_idle_txFail i hd hs hi, hans, forgetAnswer_frame (during_phase ..)]
    exact drive_respond ..

/-- Settles O15: BRG_WR_REG discards the answer to its RW frame. -/
theorem brgWrRegBehaves : Obligations.BrgWrRegBehaves :=
  fun f len => ⟨rfl, forgetBehaves_of_forgetAnswer (i := .brgWrReg f len) rfl fun _ => rfl⟩

/-- Settles O16: BRG_WR_BULK discards the answer to its RB frame. -/
theorem brgWrBulkBehaves : Obligations.BrgWrBulkBehaves :=
  fun f d _ => ⟨rfl, forgetBehaves_of_forgetAnswer (i := .brgWrBulk f d) rfl fun _ => rfl⟩

end Sys2Proof.Machine
end

section
/-!
PROOFS. The field arithmetic of 41_register_access.md R151, R152 (O7).
-/
namespace Sys2Proof.Machine

/-- 41_register_access.md R152: the three bounds of the domain. -/
theorem fieldDomain_iff (pos wid : Byte) :
    fieldDomain pos wid = true ↔ pos.toNat ≤ 7 ∧ wid.toNat ≤ 8 ∧ wid.toNat ≤ pos.toNat + 1 := by
  simp [fieldDomain, and_assoc]

/-- A byte shifted up by `k`, cut to 8 bits. -/
theorem getLsbD_shifted (val : Byte) (k : Nat) {b : Nat} (hb : b < 8) :
    (BitVec.ofNat 8 (val.toNat <<< k)).getLsbD b = (decide (k ≤ b) && val.getLsbD (b - k)) := by
  rw [BitVec.getLsbD_ofNat, Nat.testBit_shiftLeft, BitVec.testBit_toNat, decide_eq_true hb, Bool.true_and]

section
variable {pos wid : Byte} (hd : fieldDomain pos wid = true)
include hd

/-- On the domain the difference of R151 is exact: the field and the gap below it fill the bits up to `pos`. -/
theorem fieldLsb_add_wid : fieldLsb pos wid + wid.toNat = pos.toNat + 1 := by
  obtain ⟨-, -, hwid⟩ := (fieldDomain_iff pos wid).mp hd
  exact Nat.sub_add_cancel hwid

/-- The mask loses nothing in 8 bits: it lies below bit `pos + 1` (R151). -/
theorem fieldMask_toNat : (fieldMask pos wid).toNat = ((1 <<< wid.toNat) - 1) <<< fieldLsb pos wid := by
  obtain ⟨hpos, -, -⟩ := (fieldDomain_iff pos wid).mp hd
  refine Nat.mod_eq_of_lt ?_
  rw [Nat.one_shiftLeft, Nat.shiftLeft_eq]
  calc (2 ^ wid.toNat - 1) * 2 ^ fieldLsb pos wid
    _ < 2 ^ wid.toNat * 2 ^ fieldLsb pos wid :=
        Nat.mul_lt_mul_of_pos_right (Nat.sub_lt (Nat.two_pow_pos _) Nat.one_pos) (Nat.two_pow_pos _)
    _ = 2 ^ (pos.toNat + 1) := by rw [← Nat.pow_add, Nat.add_comm, fieldLsb_add_wid hd]
    _ ≤ 2 ^ 8 := Nat.pow_le_pow_right (by decide) (by omega)

theorem getLsbD_fieldMask (b : Nat) :
    (fieldMask pos wid).getLsbD b = decide (fieldLsb pos wid ≤ b ∧ b ≤ pos.toNat) := by
  have hsum := fieldLsb_add_wid hd
  rw [← BitVec.testBit_toNat, fieldMask_toNat hd, Nat.one_shiftLeft, Nat.testBit_shiftLeft,
    Nat.testBit_two_pow_sub_one, ← Bool.decide_and, decide_eq_decide]
  omega

/-- Outside the mask the old byte's bits, inside it the value's, shifted (R151). -/
theorem getLsbD_fieldInsert (old val : Byte) {b : Nat} (hb : b < 8) :
    (fieldInsert old val pos wid).getLsbD b =
      if fieldLsb pos wid ≤ b ∧ b ≤ pos.toNat then val.getLsbD (b - fieldLsb pos wid) else old.getLsbD b := by
  rw [fieldInsert, fieldCleared, fieldBits, BitVec.getLsbD_or, BitVec.getLsbD_and, BitVec.getLsbD_and,
    BitVec.getLsbD_not, getLsbD_fieldMask hd, getLsbD_shifted val _ hb]
  by_cases hfield : fieldLsb pos wid ≤ b ∧ b ≤ pos.toNat <;> simp [hfield, hb]

end

/-- What the shift loses in 8 bits the mask would clear. -/
theorem fieldBits_toNat (val pos wid : Byte) :
    (fieldBits val pos wid).toNat = (val.toNat <<< fieldLsb pos wid) &&& (fieldMask pos wid).toNat := calc
  (fieldBits val pos wid).toNat
  _ = (val.toNat <<< fieldLsb pos wid) % 2 ^ 8 &&& (fieldMask pos wid).toNat % 2 ^ 8 := by
      rw [fieldBits, BitVec.toNat_and, BitVec.toNat_ofNat, Nat.mod_eq_of_lt (fieldMask pos wid).isLt]
  _ = ((val.toNat <<< fieldLsb pos wid) &&& (fieldMask pos wid).toNat) % 2 ^ 8 := Nat.and_mod_two_pow.symm
  _ = _ := Nat.mod_eq_of_lt (Nat.and_lt_two_pow _ (fieldMask pos wid).isLt)

/-- R151's equation holds of the unbounded integers. -/
theorem fieldInsert_toNat (old val pos wid : Byte) :
    (fieldInsert old val pos wid).toNat = (old.toNat &&& (fieldMask pos wid ^^^ 0xFF).toNat)
      ||| ((val.toNat <<< fieldLsb pos wid) &&& (fieldMask pos wid).toNat) := by
  have hcomplement : ~~~(fieldMask pos wid) = fieldMask pos wid ^^^ 0xFF := BitVec.xor_allOnes.symm
  rw [fieldInsert, fieldCleared, BitVec.toNat_or, BitVec.toNat_and, hcomplement, fieldBits_toNat]

/-- Settles O7: on the domain each function of R151 is the exact integer, and its bits are those of the field. -/
theorem fieldInsertBitByBit : Obligations.FieldInsertBitByBit := by
  intro old val pos wid hd
  have hsum := fieldLsb_add_wid hd
  obtain ⟨hpos, -, -⟩ := (fieldDomain_iff pos wid).mp hd
  exact ⟨by omega, by omega, fieldMask_toNat hd, fieldInsert_toNat old val pos wid,
    fun b hb => ⟨getLsbD_fieldMask hd b, getLsbD_fieldInsert hd old val hb⟩⟩

end Sys2Proof.Machine
end

section
/-!
PROOFS. REG_WR_FIELD is refused exactly outside FieldDomain, from every state, consistent or not (O8).
-/
namespace Sys2Proof.Machine

/-! ## Runs that refuse nothing

From a state in which the latches and the phase need not fit, an answer function may fault (R31, log 17), but it has no
refusal of its own. -/

def Unrefused (o : Out) : Prop := ∀ r, o ≠ .refused r

/-- Whatever it is given and from whatever state, `k` does not refuse. -/
def NeverRefuses {α : Type} (k : α → State → Out) : Prop := ∀ a s, Unrefused (k a s)

theorem unrefused_next (s : State) : Unrefused (.next s) := nofun

theorem unrefused_fault (r : Fault) : Unrefused (.fault r) := nofun

theorem unrefused_readHeld {α : Type} (what : Holder) (v : Option α) {k : α → Out} (hk : ∀ a, Unrefused (k a)) :
    Unrefused (readHeld what v k) := by
  cases v with
  | none => exact unrefused_fault _
  | some a => exact hk a

theorem unrefused_pollMissed (site : Site) {k : WaitResult → State → Out} (hk : NeverRefuses k) (s : State) :
    Unrefused (pollMissed site k s) :=
  unrefused_readHeld _ _ fun n => by
    split
    · exact hk _ _
    · exact unrefused_next _

theorem pollAnswer_neverRefuses (site : Site) {k : WaitResult → State → Out} (hk : NeverRefuses k) :
    NeverRefuses (pollAnswer site k) := by
  intro a s
  cases a with
  | fail => exact unrefused_pollMissed site hk s
  | ok bytes =>
    unfold pollAnswer
    cases s.phase with
    | idle => exact unrefused_fault _
    | txWait _ => exact unrefused_next _
    | rxWait _ =>
      cases bytes with
      | nil => exact unrefused_fault _
      | cons b _ =>
        dsimp only
        split
        · exact hk _ _
        · exact unrefused_pollMissed site hk _

theorem selectWaited_neverRefuses (n : Nat) {k : SelectResult → State → Out} (hk : NeverRefuses k) :
    NeverRefuses (selectWaited n k)
  | .timeout, _ => hk _ _
  | .ok, _ => unrefused_readHeld _ _ fun _ => unrefused_next _

theorem selectAnswer_neverRefuses (n : Nat) {k : SelectResult → State → Out} (hk : NeverRefuses k) :
    NeverRefuses (selectAnswer n k) := by
  intro a s
  have hpoll := pollAnswer_neverRefuses .s (selectWaited_neverRefuses n hk) a s
  unfold selectAnswer
  split
  · cases a with
    | fail => exact hk _ _
    | ok _ => exact unrefused_next _
  · exact hpoll
  · exact hpoll
  · cases a with
    | fail => exact hk _ _
    | ok _ => exact unrefused_next _
  · cases a with
    | fail => exact hk _ _
    | ok _ => exact hk _ _
  · exact unrefused_fault _

theorem fieldAfterRead_neverRefuses : NeverRefuses fieldAfterRead
  | .fail, _ | .timeout, _ => unrefused_next _
  | .ok [], _ => unrefused_fault _
  | .ok (_ :: _), _ =>
    unrefused_readHeld _ _ fun _ => unrefused_readHeld _ _ fun _ => unrefused_readHeld _ _ fun _ =>
      unrefused_readHeld _ _ fun _ => unrefused_readHeld _ _ fun _ => unrefused_next _

theorem regWrFieldAnswer_neverRefuses : NeverRefuses regWrFieldAnswer := by
  intro a s
  have hpoll := pollAnswer_neverRefuses .f (k := fieldDone) (fun _ _ => unrefused_next _) a s
  unfold regWrFieldAnswer
  split
  · cases a with
    | fail | ok _ => exact unrefused_next _
  · exact hpoll
  · exact hpoll
  · exact selectAnswer_neverRefuses 1 fieldAfterRead_neverRefuses a s

theorem unrefused_deliver {h : Answer → State → Out} (hh : NeverRefuses h) (x : Input) (s : State) :
    Unrefused (deliver h x s) := by
  cases x with
  | silent | late | command _ | take | reset _ => exact unrefused_next _
  | txOk | txFail _ | rxOk _ | rxFail =>
    simp only [deliver]
    split
    · exact unrefused_next _
    · split
      · exact unrefused_next _
      · exact hh _ _

theorem unrefused_andThen {o : Out} {k : State → Out} (ho : Unrefused o) (hk : ∀ s, Unrefused (k s)) :
    Unrefused (o.andThen k) := by
  cases o with
  | next s => exact hk s
  | fault r => exact unrefused_fault r
  | refused r => exact absurd rfl (ho r)

theorem unrefused_drive {h : Answer → State → Out} (hh : NeverRefuses h) (is : List Input) (s : State) :
    Unrefused (drive h is s) := by
  induction is generalizing s with
  | nil => exact unrefused_next _
  | cons x rest ih =>
    by_cases hs : s.phase = .idle
    · rw [drive_idle _ _ _ hs]
      exact unrefused_next _
    · rw [drive_cons _ _ _ _ hs]
      exact unrefused_andThen (unrefused_deliver hh x s) ih

/-- A command inside its domain starts, goes on or is held, in every state (R25). -/
theorem unrefused_exec {i : Instr} (hd : inDomain i = true) (hh : NeverRefuses (answerOf i)) (s : State) :
    Unrefused (exec i s) := by
  by_cases hs : s.phase = .idle
  · rw [exec_idle i s hd hs]
    exact unrefused_drive hh _ _
  · by_cases hf : inFlight s = some i
    · rw [exec_inFlight i s hd hs hf]
      exact unrefused_drive hh _ _
    · rw [exec_held i s hd hs hf]
      exact unrefused_next s

/-! ## REG_WR_FIELD (41_register_access.md R150, R152) -/

theorem regWrField_refused_iff (f : Fields) (len : Byte) (s : State) :
    exec (.regWrField f len) s = .refused .fieldDomain ↔ fieldDomain f.pos f.wid = false := by
  constructor
  · intro he
    refine Bool.eq_false_iff.mpr fun hd => ?_
    exact unrefused_exec (i := .regWrField f len) hd regWrFieldAnswer_neverRefuses s _ he
  · exact exec_outside_domain (.regWrField f len) s

/-- The trace of a command accepted in IDLE goes on with its acceptance and its first frame, whatever the inputs. -/
theorem exec_idle_first_events {i : Instr} {s t : State} (hs : s.phase = .idle) (he : exec i s = .next t) :
    s.trace ++ [.accept (encode i), .tx (firstFrame s.params i)] <+: t.trace := by
  rw [exec_idle_during i (inDomain_of_exec_next he) hs] at he
  obtain ⟨e, hholds⟩ := drive_continues he
  exact ⟨e, hholds.trace.symm⟩

/-- Settles O8: what is refused is what lies outside the domain; inside it, in IDLE, the select frame goes out. -/
theorem regWrFieldRefusedExactlyOutsideDomain : Obligations.RegWrFieldRefusedExactlyOutsideDomain := by
  intro f len
  refine ⟨fieldDomain_iff f.pos f.wid, regWrField_refused_iff f len, fun s hs hd => ?_, fun s hs hi hd => ?_⟩
  · obtain ⟨t, ht⟩ := exec_answers (.regWrField f len) s hd (.inl hs)
    exact ⟨t, ht, exec_idle_first_events hs ht⟩
  · exact exec_idle_waits (.regWrField f len) hd hs hi

end Sys2Proof.Machine
end

section
/-!
PROOFS. The register access commands of 41_register_access.md over the answers the environment gives them (O11, O12,
O17 to O20).
-/
namespace Sys2Proof.Machine

/-! ## The writes (41_register_access.md R141, R142) -/

/-- Settles O11: REG_WR_BYTE is a write of the register number and the value. -/
theorem regWrByteBehaves : Obligations.RegWrByteBehaves :=
  fun f len => ⟨rfl, writeBehaves_of_isWrite (isWrite_regWrByte f len)⟩

/-- Settles O12: REG_WR_BYTES is a write of its data. -/
theorem regWrBytesBehaves : Obligations.RegWrBytesBehaves :=
  fun f d _ => ⟨rfl, writeBehaves_of_isWrite (isWrite_regWrBytes f d)⟩

/-! ## `SelectAndRead` of a command (41_register_access.md R140) -/

theorem accept_during (i : Instr) (ph : Phase) (req : Option Request) (w : WorkLatches) (rx : Option (List Byte))
    (ev : List Event) (s : State) :
    { accept i s with
      phase := ph, request := req, work := w, buf := ⟨i.data?, rx⟩
      trace := (accept i s).trace ++ ev } = during i ph req w rx ev s := by
  simp [during, accept, latchRecord, latchesOf, encode]

theorem selBase_during (i : Instr) (f : Fields) (s : State) :
    selBase i f s = during i (.txWait .sTx) none (polled s.work.stat 0 s.work) s.buf.rx
      [Event.tx (frameIW s.params f.addr [f.reg]), .txOk] s :=
  accept_during ..

theorem irState_during (i : Instr) (f : Fields) (n : Nat) (ms : List Miss) (s : State) :
    irState i f n ms s = during i (.txWait .sIr) (some (.tx (frameIR s.params f.addr (BitVec.ofNat 8 n))))
      (polled (some s.params.okSentinel) ms.length s.work) s.buf.rx
      (selectEvents s.params f ms ++ [Event.tx (frameIR s.params f.addr (BitVec.ofNat 8 n))]) s := by
  rw [← during_event i s.phase s.request, ← accept_during]
  rfl

theorem selectWaited_timeout (n : Nat) (k : SelectResult → State → Out) (s : State) :
    selectWaited n k .timeout s = k .timeout s := rfl

/-! Each answer, at the step that awaits it. -/

section
variable (n : Nat) (k : SelectResult → State → Out) {s : State}

theorem selectAnswer_fail (hs : s.phase = .txWait .sTx ∨ s.phase = .txWait .sIr ∨ s.phase = .rxWait .sRx) :
    selectAnswer n k .fail s = k .fail s := by
  rcases hs with hs | hs | hs <;> simp only [selectAnswer, hs]

theorem selectAnswer_readFrame_ok (hs : s.phase = .txWait .sIr) (bytes : List Byte) :
    selectAnswer n k (.ok bytes) s = .next (issueRx .sRx n s) := by
  simp only [selectAnswer, hs]

theorem selectAnswer_read_ok (hs : s.phase = .rxWait .sRx) (bytes : List Byte) :
    selectAnswer n k (.ok bytes) s = k (.ok bytes) (setRxbuf bytes s) := by
  simp only [selectAnswer, hs]

end

section
variable {i : Instr} {f : Fields} {n : Nat} {k : SelectResult → State → Out} (h : IsSelect i f n k) {s : State}
  (hs : s.phase = .idle) {ms : List Miss}
include h hs

/-- The select frame is answered OK: its wait begins, with no poll counted. -/
theorem select_begins_wait {rest : List Input} (hi : s.inputs = .txOk :: rest) :
    exec i s = drive (answerOf i) rest (issuePoll .s (during i (.txWait .sTx) none (polled s.work.stat 0 s.work)
      s.buf.rx [Event.tx (frameIW s.params f.addr [f.reg]), .txOk] s)) := by
  rw [sel_start h s hs rest hi, selBase_during]

/-- The select write's poll never reads OK: no response (R206). -/
theorem select_polls (hm : allMiss s.params ms = true) (hb : withinBound s.params ms.length = true)
    (hi : s.inputs = .txOk :: missInputs ms) :
    exec i s = .next (waiting i (.txWait (.pTx .s)) (.tx (framePoll s.params))
      (polled (missStat s.work.stat ms) ms.length s.work) s.buf.rx
      ([Event.tx (frameIW s.params f.addr [f.reg]), .txOk] ++ missEvents s.params ms ++
        [Event.tx (framePoll s.params)]) s) := by
  rw [select_begins_wait h hs hi]
  exact drive_during_polls (hh := h.wait) (hm := hm) (hb := hb) ..

section
variable (hm : allMiss s.params ms = true) (hb : withinBound s.params ms.length = true)
include hm hb

/-- The wait ends OK and the read frame is answered OK: the command stands at its `RxRead`. -/
theorem select_begins_read {rest : List Input}
    (hi : s.inputs = .txOk :: (waitInputs s.params ms ++ (.txOk :: rest))) :
    exec i s = drive (answerOf i) rest (during i (.rxWait .sRx) (some (.rx n))
      (polled (some s.params.okSentinel) ms.length s.work) s.buf.rx
      (selectEvents s.params f ms ++ [Event.tx (frameIR s.params f.addr (BitVec.ofNat 8 n)), .txOk, .rx n]) s) := by
  rw [sel_waited h s hs ms _ hm hb hi, irState_during, drive_during_txOk, h.sIr _ _ (during_phase ..),
    selectAnswer_readFrame_ok _ _ (during_phase ..), Out.andThen_next, issueRx_during, List.append_assoc,
    List.append_assoc]
  rfl

/-- The read is answered: the caller goes on with the bytes in `L.RXBUF`. -/
theorem select_reads {bytes : List Byte} {rest : List Input} (hl : bytes.length = n)
    (hi : s.inputs = .txOk :: (waitInputs s.params ms ++ (.txOk :: .rxOk bytes :: rest))) :
    exec i s = (k (.ok bytes) (during i (.rxWait .sRx) none (polled (some s.params.okSentinel) ms.length s.work)
      (some bytes) (selectEvents s.params f ms ++
        [Event.tx (frameIR s.params f.addr (BitVec.ofNat 8 n)), .txOk, .rx n, .rxOk bytes]) s)).andThen
          (drive (answerOf i) rest) := by
  rw [select_begins_read h hs hm hb hi, drive_during_rxOk (hl := hl), h.sRx _ _ (during_phase ..),
    selectAnswer_read_ok _ _ (during_phase ..), setRxbuf_during, List.append_assoc]
  rfl

end

/-! A caller that answers a failed step with a bare response ends there. -/

section
variable {st : Status} (hfail : ∀ t, k .fail t = .next (respond st none none t))
include hfail

theorem select_frame_fails {j : Nat} {rest : List Input} (hi : s.inputs = .txFail j :: rest) :
    exec i s = .next (finished i s.work s.buf.rx (bareResponse st) (txFails (frameIW s.params f.addr [f.reg]) j)
      rest s) := by
  rw [exec_idle_txFail i h.dom hs hi, h.lbl, h.frm, h.sTx _ _ (during_phase ..),
    selectAnswer_fail _ _ (.inl rfl), hfail, Out.andThen_next, drive_respond]
  rfl

section
variable (hm : allMiss s.params ms = true) (hb : withinBound s.params ms.length = true)
include hm hb

theorem select_read_frame_fails {j : Nat} {rest : List Input}
    (hi : s.inputs = .txOk :: (waitInputs s.params ms ++ (.txFail j :: rest))) :
    exec i s = .next (finished i (polled (some s.params.okSentinel) ms.length s.work) s.buf.rx (bareResponse st)
      (selectEvents s.params f ms ++ txFails (frameIR s.params f.addr (BitVec.ofNat 8 n)) j) rest s) := by
  rw [sel_waited h s hs ms _ hm hb hi, irState_during, drive_during_txFail, h.sIr _ _ (during_phase ..),
    selectAnswer_fail _ _ (.inr (.inl rfl)), hfail, Out.andThen_next, drive_respond, List.append_assoc]
  rfl

theorem select_read_fails {rest : List Input}
    (hi : s.inputs = .txOk :: (waitInputs s.params ms ++ (.txOk :: .rxFail :: rest))) :
    exec i s = .next (finished i (polled (some s.params.okSentinel) ms.length s.work) s.buf.rx (bareResponse st)
      (selectEvents s.params f ms ++ [Event.tx (frameIR s.params f.addr (BitVec.ofNat 8 n)), .txOk, .rx n, .rxFail])
      rest s) := by
  rw [select_begins_read h hs hm hb hi, drive_during_rxFail, h.sRx _ _ (during_phase ..),
    selectAnswer_fail _ _ (.inr (.inr rfl)), hfail, Out.andThen_next, drive_respond, List.append_assoc]
  rfl

end

end

theorem select_times_out {st : Status} (htimeout : ∀ t, k .timeout t = .next (respond st none none t))
    (hm : allMiss s.params ms = true) (hp : s.params.maxPolls = some ms.length) (h0 : 0 < ms.length)
    {rest : List Input} (hi : s.inputs = .txOk :: (missInputs ms ++ rest)) :
    exec i s = .next (finished i (polled (missStat s.work.stat ms) ms.length s.work) s.buf.rx (bareResponse st)
      ([Event.tx (frameIW s.params f.addr [f.reg]), .txOk] ++ missEvents s.params ms) rest s) := by
  obtain ⟨ph, hdrive⟩ := drive_during_timeout h.wait i (.txWait .sTx) none s.work.stat s.work s.buf.rx
    [Event.tx (frameIW s.params f.addr [f.reg]), .txOk] hm rest hp h0
  rw [select_begins_wait h hs hi, hdrive, selectWaited_timeout, htimeout, Out.andThen_next, drive_respond]
  rfl

end

/-! ## The register reads (41_register_access.md R143, R144, R145) -/

theorem readFails_of_isSelect {i : Instr} {f : Fields} {n : Nat} {assemble : List Byte → Option Word32}
    (h : IsSelect i f n (readDone assemble)) : ReadFails i f n :=
  fun _ hs => ⟨fun _ _ hi => select_frame_fails h hs (fun _ => rfl) hi,
    fun _ _ hm hp h0 hi => select_times_out h hs (fun _ => rfl) hm hp h0 hi,
    fun _ _ _ hm hb hi => select_read_frame_fails h hs (fun _ => rfl) hm hb hi,
    fun _ _ hm hb hi => select_read_fails h hs (fun _ => rfl) hm hb hi,
    fun _ hm hb hi => select_polls h hs hm hb hi⟩

theorem readDone_ok {assemble : List Byte → Option Word32} {bytes : List Byte} {v : Word32}
    (hv : assemble bytes = some v) (s : State) :
    readDone assemble (.ok bytes) s = .next (respond .stOk (some v) (some bytes) s) := by
  rw [readDone, hv]

theorem readSucceeds_of_isSelect {i : Instr} {f : Fields} {bytes : List Byte} {assemble : List Byte → Option Word32}
    (h : IsSelect i f bytes.length (readDone assemble)) {value : Word32} (hv : assemble bytes = some value) :
    ReadSucceeds i f bytes value := by
  intro s ms rest hs hm hb hi
  rw [select_reads h hs hm hb rfl hi, readDone_ok hv]
  exact drive_respond ..

theorem isSelect_regRdByte (f : Fields) (len : Byte) : IsSelect (.regRdByte f len) f 1 (readDone assemble8) :=
  isSelect_read _ f 1 _ rfl rfl (fun _ => rfl) rfl rfl

theorem isSelect_regRd16 (f : Fields) (len : Byte) : IsSelect (.regRd16 f len) f 2 (readDone assemble16) :=
  isSelect_read _ f 2 _ rfl rfl (fun _ => rfl) rfl rfl

theorem isSelect_regRd24be (f : Fields) (len : Byte) : IsSelect (.regRd24be f len) f 3 (readDone assemble24) :=
  isSelect_read _ f 3 _ rfl rfl (fun _ => rfl) rfl rfl

/-- An assembly as its unsigned number (R51). -/
theorem eq_some_ofNat {o : Option Word32} {n : Nat} (h : ∃ v, o = some v ∧ v.toNat = n) :
    o = some (BitVec.ofNat 32 n) := by
  obtain ⟨v, rfl, rfl⟩ := h
  rw [BitVec.ofNat_toNat, BitVec.setWidth_eq]

theorem assemble16_eq (b0 b1 : Byte) :
    assemble16 [b0, b1] = some (BitVec.ofNat 32 (b1.toNat * 256 + b0.toNat)) :=
  have ⟨_, h16, _⟩ := assemblyOfReceivedBytes b0 b1 0
  eq_some_ofNat h16

theorem assemble24_eq (b0 b1 b2 : Byte) :
    assemble24 [b0, b1, b2] = some (BitVec.ofNat 32 (b0.toNat * 65536 + b1.toNat * 256 + b2.toNat)) :=
  have ⟨_, _, h24⟩ := assemblyOfReceivedBytes b0 b1 b2
  eq_some_ofNat h24

/-- Settles O17: `SelectAndRead(1)`, its byte zero-extended. -/
theorem regRdByteBehaves : Obligations.RegRdByteBehaves := fun f len =>
  have h := isSelect_regRdByte f len
  ⟨rfl, fun _ => readSucceeds_of_isSelect h rfl, readFails_of_isSelect h⟩

/-- Settles O18: `SelectAndRead(2)`, assembled low byte first. -/
theorem regRd16Behaves : Obligations.RegRd16Behaves := fun f len =>
  have h := isSelect_regRd16 f len
  ⟨rfl, fun b0 b1 => readSucceeds_of_isSelect h (assemble16_eq b0 b1), readFails_of_isSelect h⟩

/-- Settles O19: `SelectAndRead(3)`, assembled big-endian. -/
theorem regRd24beBehaves : Obligations.RegRd24beBehaves := fun f len =>
  have h := isSelect_regRd24be f len
  ⟨rfl, fun b0 b1 b2 => readSucceeds_of_isSelect h (assemble24_eq b0 b1 b2), readFails_of_isSelect h⟩

/-! ## REG_WR_FIELD to its end (41_register_access.md R150) -/

/-- The byte read gives the three field latches and the write-back frame. -/
theorem fieldAfterRead_during (f : Fields) (len old : Byte) (ph : Phase) (req : Option Request) (w : WorkLatches)
    (rx : Option (List Byte)) (ev : List Event) (s : State) :
    fieldAfterRead (.ok [old]) (during (.regWrField f len) ph req w rx ev s) =
      .next (during (.regWrField f len) (.txWait .fTx) (some (.tx (frameBack s.params f old))) (fielded f old w) rx
        (ev ++ [Event.tx (frameBack s.params f old)]) s) :=
  congrArg Host.Outcome.next (during_event (.regWrField f len) ph req w rx ev s (.txWait .fTx)
    (some (.tx (frameBack s.params f old))) (fielded f old w) rx [Event.tx (frameBack s.params f old)])

/-- Where the read is answered, the command stands at its write-back. -/
theorem regWrField_begins_writeBack {f : Fields} {len old : Byte} {s : State} {ms : List Miss} {rest : List Input}
    (hd : fieldDomain f.pos f.wid = true) (hs : s.phase = .idle) (hm : allMiss s.params ms = true)
    (hb : withinBound s.params ms.length = true)
    (hi : s.inputs = .txOk :: (waitInputs s.params ms ++ (.txOk :: .rxOk [old] :: rest))) :
    exec (.regWrField f len) s = drive regWrFieldAnswer rest (during (.regWrField f len) (.txWait .fTx)
      (some (.tx (frameBack s.params f old)))
      (fielded f old (polled (some s.params.okSentinel) ms.length s.work)) (some [old])
      (selectEvents s.params f ms ++ [Event.tx (frameIR s.params f.addr 1), .txOk, .rx 1, .rxOk [old],
        .tx (frameBack s.params f old)]) s) := by
  rw [select_reads (isSelect_field f len hd) hs hm hb rfl hi, fieldAfterRead_during, List.append_assoc]
  rfl

theorem regWrFieldAnswer_frame_ok {s : State} (hs : s.phase = .txWait .fTx) (bytes : List Byte) :
    regWrFieldAnswer (.ok bytes) s = .next (startWait .f s) := by
  simp only [regWrFieldAnswer, hs]

theorem startWait_during (site : Site) (i : Instr) (ph : Phase) (req : Option Request) (w : WorkLatches)
    (rx : Option (List Byte)) (ev : List Event) (s : State) :
    startWait site (during i ph req w rx ev s) = issuePoll site (during i ph req (polled w.stat 0 w) rx ev s) := rfl

theorem fieldDone_eq (x : WaitResult) (s : State) : fieldDone x s = .next (respond .stNone none none s) := rfl

/-- Settles O20: the write-back is answered and its wait ends OK; the response reports neither. -/
theorem regWrFieldCompletes : Obligations.RegWrFieldCompletes := by
  intro f len old s ms ms' rest hd hs hm hb hm' hb' hi
  rw [regWrField_begins_writeBack hd hs hm hb hi, drive_during_txOk, regWrFieldAnswer_frame_ok (during_phase ..),
    Out.andThen_next, startWait_during, drive_during_waitOk (hh := regWrField_handlesBackWait) (hm := hm') (hb := hb'),
    fieldDone_eq, Out.andThen_next, drive_respond, List.append_assoc (selectEvents s.params f ms)]
  rfl

end Sys2Proof.Machine
end

section
/-!
PROOFS. REG_WR_FIELD where a step of it fails, with nothing reported (O21, O22), and a poll that never reads OK (O28).
-/
namespace Sys2Proof.Machine

/-! ## What REG_WR_FIELD does not report (60_exceptions.md R202, R203) -/

/-- Settles O21: each way `SelectAndRead(1)` can fail, with a caller that answers it with STATUS_NONE. -/
theorem regWrFieldSwallowsAFailedRead : Obligations.RegWrFieldSwallowsAFailedRead := by
  intro f len s hd hs
  have h := isSelect_field f len hd
  exact ⟨fun _ _ hi => select_frame_fails h hs (fun _ => rfl) hi,
    fun _ _ hm hp h0 hi => select_times_out h hs (fun _ => rfl) hm hp h0 hi,
    fun _ _ _ hm hb hi => select_read_frame_fails h hs (fun _ => rfl) hm hb hi,
    fun _ _ hm hb hi => select_read_fails h hs (fun _ => rfl) hm hb hi⟩

theorem regWrFieldAnswer_frame_fail {s : State} (hs : s.phase = .txWait .fTx) :
    regWrFieldAnswer .fail s = .next (respond .stNone none none s) := by
  simp only [regWrFieldAnswer, hs]

/-- Where the write-back is answered OK, its wait begins, with no poll counted. -/
theorem regWrField_begins_backWait {f : Fields} {len old : Byte} {s : State} {ms : List Miss} {rest : List Input}
    (hd : fieldDomain f.pos f.wid = true) (hs : s.phase = .idle) (hm : allMiss s.params ms = true)
    (hb : withinBound s.params ms.length = true)
    (hi : s.inputs = .txOk :: (waitInputs s.params ms ++ (.txOk :: .rxOk [old] :: .txOk :: rest))) :
    exec (.regWrField f len) s = drive regWrFieldAnswer rest (issuePoll .f (during (.regWrField f len) (.txWait .fTx)
      none (polled (some s.params.okSentinel) 0 (fielded f old s.work)) (some [old])
      (selectEvents s.params f ms ++ [Event.tx (frameIR s.params f.addr 1), .txOk, .rx 1, .rxOk [old],
        .tx (frameBack s.params f old), .txOk]) s)) := by
  rw [regWrField_begins_writeBack hd hs hm hb hi, drive_during_txOk, regWrFieldAnswer_frame_ok (during_phase ..),
    Out.andThen_next, startWait_during, List.append_assoc (selectEvents s.params f ms)]
  rfl

/-- Settles O22: after the read, the write-back frame fails, or its wait runs out or goes on; neither end of it is
reported. -/
theorem regWrFieldDoesNotReportTheWriteBack : Obligations.RegWrFieldDoesNotReportTheWriteBack := by
  intro f len old s ms hd hs hm hb
  refine ⟨fun n rest hi => ?_, fun ms' rest hm' hp h0 hi => ?_, fun ms' hm' hb' hi => ?_⟩
  · rw [regWrField_begins_writeBack hd hs hm hb hi, drive_during_txFail, regWrFieldAnswer_frame_fail (during_phase ..),
      Out.andThen_next, drive_respond, List.append_assoc, List.append_assoc]
    rfl
  · obtain ⟨ph, hdrive⟩ := drive_during_timeout regWrField_handlesBackWait (.regWrField f len) (.txWait .fTx) none
      (some s.params.okSentinel) (fielded f old s.work) (some [old])
      (selectEvents s.params f ms ++ [Event.tx (frameIR s.params f.addr 1), .txOk, .rx 1, .rxOk [old],
        .tx (frameBack s.params f old), .txOk]) hm' rest hp h0
    rw [regWrField_begins_backWait hd hs hm hb hi, hdrive, fieldDone_eq, Out.andThen_next, drive_respond]
    rfl
  · rw [regWrField_begins_backWait hd hs hm hb hi]
    exact drive_during_polls (hh := regWrField_handlesBackWait) (hm := hm') (hb := hb') ..

/-! ## Polls without end (60_exceptions.md R206) -/

theorem responsesIn_append (a b : List Event) : responsesIn (a ++ b) = responsesIn a ++ responsesIn b :=
  List.filterMap_append

theorem responsesIn_missEvents (p : Params) (ms : List Miss) : responsesIn (missEvents p ms) = [] := by
  induction ms with
  | nil => rfl
  | cons m ms ih =>
    have hm : responsesIn (m.events p) = [] := by cases m <;> rfl
    rw [missEvents, List.flatMap_cons, responsesIn_append, hm]
    exact ih

/-- After the not-OK polls `ms`, command `i`, accepted in `s`, stands at its next poll, with its own frame and those polls
behind it. -/
def PollsOn (i : Instr) (s : State) (ms : List Miss) : Prop :=
  ∃ site frame, exec i s = .next (waiting i (.txWait (.pTx site)) (.tx (framePoll s.params))
    (polled (missStat s.work.stat ms) ms.length s.work) s.buf.rx
    ([Event.tx frame, .txOk] ++ missEvents s.params ms ++ [Event.tx (framePoll s.params)]) s)

/-- Every command that polls does so while no poll reads OK and the bound is not reached. -/
theorem exec_pollsOn {i : Instr} {s : State} {ms : List Miss} (hp : polls i = true) (hd : inDomain i = true)
    (hs : s.phase = .idle) (hm : allMiss s.params ms = true) (hb : withinBound s.params ms.length = true)
    (hi : s.inputs = .txOk :: missInputs ms) : PollsOn i s ms := by
  have hwrite {own site a8 d} (h : IsWrite i own site a8 d) : PollsOn i s ms :=
    have ⟨_, _, _, hpolls, _⟩ := writeBehaves_of_isWrite h s hs
    ⟨site, _, hpolls ms hm hb hi⟩
  have hselect {f n k} (h : IsSelect i f n k) : PollsOn i s ms := ⟨.s, _, select_polls h hs hm hb hi⟩
  cases i with
  | i2cWrite f d => exact hwrite (isWrite_i2cWrite f d)
  | regWrByte f len => exact hwrite (isWrite_regWrByte f len)
  | regWrBytes f d => exact hwrite (isWrite_regWrBytes f d)
  | regRdByte f len => exact hselect (isSelect_regRdByte f len)
  | regRd16 f len => exact hselect (isSelect_regRd16 f len)
  | regRd24be f len => exact hselect (isSelect_regRd24be f len)
  | regWrField f len => exact hselect (isSelect_field f len hd)
  | i2cRead f len | brgRdReg f len | brgWrReg f len | brgWrBulk f d => cases hp

/-- Settles O28: an unbounded wait is within its bound after any number of polls. -/
theorem unboundedPollingIsAHang : Obligations.UnboundedPollingIsAHang := by
  intro i s ms hp hd hs hmax hm hi
  have hb : withinBound s.params ms.length = true := by rw [withinBound, hmax]
  obtain ⟨site, frame, he⟩ := exec_pollsOn hp hd hs hm hb hi
  refine ⟨_, _, he, rfl, nofun, rfl, rfl, rfl, rfl, rfl, ?_⟩
  show responsesIn ([Event.tx frame, .txOk] ++ missEvents s.params ms ++ [Event.tx (framePoll s.params)]) = []
  rw [responsesIn_append, responsesIn_append, responsesIn_missEvents]
  rfl

end Sys2Proof.Machine
end

section
/-!
PROOFS. The responses of a command (O23) and the end of a run (O48).
-/
namespace Sys2Proof.Machine

/-! ## What a command comes to (60_exceptions.md R200) -/

/-- What command `i`, accepted in `s`, has come to in `t`, by the responses it has made: it is in flight and has made
none, it has responded, or a reset has abandoned it. -/
inductive ComesTo (i : Instr) (s t : State) : List Response → Prop
  | busy (phase : t.phase ≠ .idle) : ComesTo i s t []
  | responded {r : Response} (phase : t.phase = .idle) (rsp : t.rsp = some r)
      (may : mayReport s.params i r.status = true) (wf : r.wf = true) : ComesTo i s t [r]
  | abandoned (phase : t.phase = .idle) (reset : noReset s.inputs = false) : ComesTo i s t []

/-- `t` comes after the acceptance of `i` in `s`, with no other command accepted since. -/
structure Since (i : Instr) (s t : State) : Prop where
  params : t.params = s.params
  came : ∃ events, t.trace = s.trace ++ .accept (encode i) :: events ∧ (∀ r, Event.accept r ∉ events) ∧
    ComesTo i s t (responsesIn events)

theorem ComesTo.busy_eq {i : Instr} {s t : State} {rs : List Response} (h : ComesTo i s t rs) (ht : t.phase ≠ .idle) :
    rs = [] := by
  cases h with
  | busy => rfl
  | responded phase => exact absurd phase ht
  | abandoned => rfl

theorem ComesTo.congr {i : Instr} {s u t : State} {rs : List Response} (h : ComesTo i s u rs)
    (phase : t.phase = u.phase) (rsp : t.rsp = u.rsp) : ComesTo i s t rs := by
  cases h with
  | busy hu => exact .busy (phase ▸ hu)
  | responded hu hr may wf => exact .responded (phase.trans hu) (rsp.trans hr) may wf
  | abandoned hu hreset => exact .abandoned (phase.trans hu) hreset

/-- A change outside the parameters, the phase, the response register and the trace. -/
theorem Since.unrecorded {i : Instr} {s u t : State} (h : Since i s u) (params : t.params = u.params)
    (phase : t.phase = u.phase) (rsp : t.rsp = u.rsp) (trace : t.trace = u.trace) : Since i s t := by
  obtain ⟨hp, events, htr, hacc, hcame⟩ := h
  exact ⟨params.trans hp, events, trace.trans htr, hacc, hcame.congr phase rsp⟩

/-- One event of the command in flight. -/
theorem Since.event {i : Instr} {s u t : State} {e : Event} (h : Since i s u) (hu : u.phase ≠ .idle)
    (params : t.params = u.params) (trace : t.trace = u.trace ++ [e]) (he : ∀ r, Event.accept r ≠ e)
    (came : ComesTo i s t (responsesIn [e])) : Since i s t := by
  obtain ⟨hp, events, htr, hacc, hcame⟩ := h
  refine ⟨params.trans hp, events ++ [e], by rw [trace, htr, List.append_assoc]; rfl, fun r hr => ?_, ?_⟩
  · exact (List.mem_append.mp hr).elim (hacc r) fun hr => he r (List.mem_singleton.mp hr)
  · rw [responsesIn_append, hcame.busy_eq hu]
    exact came

/-- A command issues its next request, or responds with a status of its row and fields as R28 says. -/
theorem Since.advance {i : Instr} {s u t : State} (h : Since i s u) (hu : u.phase ≠ .idle) (ha : Advance i u t) :
    Since i s t := by
  cases ha with
  | tx k frame w rx req poll touch => exact h.event (e := .tx frame) hu rfl rfl nofun (.busy nofun)
  | rx k n w rx req poll touch => exact h.event (e := .rx n) hu rfl rfl nofun (.busy nofun)
  | done st v d w rx may wf touch =>
    exact h.event (e := .response (mkResponse st v d)) hu rfl rfl nofun (.responded rfl rfl (h.params ▸ may) wf)

theorem Since.takesAnswer {i : Instr} {s u : State} (h : Since i s u) (hu : u.phase ≠ .idle) (r : Request) (x : Input) :
    Since i s (takeAnswer r x u) := by
  have hnone : responsesIn [answerEvent r x] = [] := by cases x <;> rfl
  exact h.event hu rfl rfl (by cases x <;> nofun) (hnone ▸ .busy hu)

/-- Every input of the environment. -/
theorem Since.delivered {i : Instr} {s u t : State} {x : Input} (h : Since i s u) (hx : x ∈ s.inputs)
    (hu : u.phase ≠ .idle) (hd : Delivered i u x t) : Since i s t := by
  cases hd with
  | command r => exact h.unrecorded rfl rfl rfl rfl
  | take => exact h.unrecorded rfl rfl rfl rfl
  | nothing => exact h
  | reset sent =>
    have hreset : noReset s.inputs = false :=
      Bool.eq_false_iff.mpr fun hn => ne_reset_of_noReset hn hx sent rfl
    exact h.event hu rfl rfl nofun (.abandoned rfl hreset)
  | answer r a req ans adv => exact (h.takesAnswer hu r x).advance hu adv

theorem since_first (i : Instr) (s : State) :
    Since i s (issueTx (firstLabel i) (firstFrame s.params i) (accept i s)) := by
  rw [issueTx_accept]
  exact ⟨rfl, _, rfl, by simp, .busy nofun⟩

theorem exec_idle_since {i : Instr} {s t : State} (hs : s.phase = .idle) (he : exec i s = .next t) : Since i s t :=
  (exec_keeps_idle i s t (Since i s) hs he (since_first i s)
    (fun _ _ _ hx hu h hd => h.delivered hx hu.busy hd) (fun _ _ h => h.unrecorded rfl rfl rfl rfl)).1

/-- Settles O23: the three ways of `ComesTo`, of which a reset alone brings the last. -/
theorem responsesAsTheStatusTable : Obligations.ResponsesAsTheStatusTable := by
  intro i s t hs he
  obtain ⟨_, events, htrace, _, hcame⟩ := exec_idle_since hs he
  refine ⟨_, htrace, ?_⟩
  rw [show responsesIn (.accept (encode i) :: events) = responsesIn events from rfl]
  generalize responsesIn events = rs at hcame
  cases hcame with
  | busy phase => simp [phase]
  | responded phase rsp may wf => simp [phase, rsp, may, wf]
  | abandoned phase reset => simp [reset]

/-! ## The end of a run (60_exceptions.md R221) -/

theorem ended_iff (s : State) :
    s.ended = true ↔ s.phase = .idle ∧ s.port = [] ∧ noCommand s.inputs = true ∧ lastCommandResponded s.trace = true := by
  simp [State.ended, and_assoc]

/-- Whether the last command has responded, after events that accept none. -/
theorem foldl_responded_of_noAccept {events : List Event} (h : ∀ r, Event.accept r ∉ events) (before : Bool) :
    events.foldl Event.responded before = (before || !(responsesIn events).isEmpty) := by
  induction events generalizing before with
  | nil => simp [responsesIn]
  | cons e rest ih =>
    have hrest := ih (fun r hr => h r (List.mem_cons_of_mem _ hr)) (e.responded before)
    rw [List.foldl_cons, hrest]
    cases e with
    | accept r => exact absurd List.mem_cons_self (h r)
    | response r => simp [Event.responded, responsesIn]
    | _ => rfl

theorem lastCommandResponded_accepted (l : List Event) (r : List Byte) {events : List Event}
    (h : ∀ r, Event.accept r ∉ events) :
    lastCommandResponded (l ++ .accept r :: events) = !(responsesIn events).isEmpty := by
  rw [lastCommandResponded_append, List.foldl_cons, foldl_responded_of_noAccept h]
  rfl

theorem scanFrom_none (events : List Event) : scanFrom none events = none := by
  induction events with
  | nil => rfl
  | cons e rest ih => exact ih

/-- A trace in order that ends within a command ends before that command's response. -/
theorem foldl_responded_of_scan {events : List Event} {c c' : Cursor} (h : scanFrom (some c) events = some c')
    {before : Bool} (hc : c ≠ .idle → before = false) (hc' : c' ≠ .idle) :
    events.foldl Event.responded before = false := by
  induction events generalizing c before with
  | nil =>
    cases h
    exact hc hc'
  | cons e rest ih =>
    cases hn : c.next e with
    | none =>
      rw [scanFrom, Option.bind_some, hn, scanFrom_none] at h
      cases h
    | some d =>
      rw [scanFrom, Option.bind_some, hn] at h
      refine ih h fun hd => ?_
      cases e with
      | accept r => rfl
      | response r => cases c <;> cases hn; exact absurd rfl hd
      | reset p => rw [Cursor.next_reset] at hn; cases hn; exact absurd rfl hd
      | _ => exact hc (by rintro rfl; cases hn)

theorem lastCommandResponded_busy {s : State} (h : s.TraceInOrder) (hs : s.phase ≠ .idle) :
    lastCommandResponded s.trace = false := by
  refine foldl_responded_of_scan h (fun hc => absurd rfl hc) ?_
  rw [cursor_busy hs]
  rcases s.request with _ | _ | _ <;> nofun

theorem noCommand_suffix {l inputs : List Input} (hl : l <:+ inputs) (h : noCommand inputs = true) :
    noCommand l = true :=
  List.all_eq_true.mpr fun x hx => List.all_eq_true.mp h x (hl.subset hx)

theorem exec_idle_inputs {i : Instr} {s t : State} (hs : s.phase = .idle) (he : exec i s = .next t) :
    t.inputs <:+ s.inputs := by
  rw [exec_idle i s (inDomain_of_exec_next he) hs] at he
  exact drive_inputs _ _ _ _ he

theorem Delivered.port {i : Instr} {s t : State} {x : Input} (hx : ∀ r, x ≠ .command r) (hd : Delivered i s x t) :
    t.port = s.port := by
  cases hd with
  | command r => exact absurd rfl (hx r)
  | take | reset sent | nothing => rfl
  | answer r a req ans adv => cases adv <;> rfl

/-- Where no command is among the inputs, the port keeps its records. -/
theorem exec_idle_port {i : Instr} {s t : State} (hs : s.phase = .idle) (hn : noCommand s.inputs = true)
    (he : exec i s = .next t) : t.port = s.port := by
  have hx : ∀ x ∈ s.inputs, ∀ r, x ≠ .command r := by
    rintro x hx r rfl
    exact Bool.false_ne_true (List.all_eq_true.mp hn _ hx)
  exact (exec_keeps_idle i s t (fun u => u.port = s.port) hs he rfl
    (fun _ x _ hmem _ h hd => (hd.port (hx x hmem)).trans h) (fun _ _ h => h)).1

theorem exec_inFlight_reset {i : Instr} {s : State} {sent : Nat} {rest : List Input} (hd : inDomain i = true)
    (hs : s.phase ≠ .idle) (hf : inFlight s = some i) (hi : s.inputs = .reset sent :: rest) :
    exec i s = .next { resetState sent s with inputs := rest } := by
  rw [exec_inFlight i s hd hs hf, hi, drive_cons _ _ _ _ hs]
  exact drive_idle _ _ _ rfl

/-- Settles O48: by `ComesTo`, a command accepted in IDLE is the last to have responded exactly when it has made its
response; one that a reset abandons is in flight until then, and the trace in order shows it without a response. -/
theorem runHasEndedWhenItsLastCommandResponded : Obligations.RunHasEndedWhenItsLastCommandResponded := by
  intro i s t hport hcmd he
  refine ⟨fun hs hn => ?_, fun hs hend => ?_, fun hs hf _ htrace sent rest hi => ?_⟩
  · obtain ⟨_, events, htrace, hacc, hcame⟩ := exec_idle_since hs he
    have hport' : t.port = [] := (exec_idle_port hs hcmd he).trans hport
    have hcmd' := noCommand_suffix (exec_idle_inputs hs he) hcmd
    rw [ended_iff, htrace, lastCommandResponded_accepted _ _ hacc]
    generalize responsesIn events = rs at hcame
    cases hcame with
    | busy phase => simp [phase]
    | responded phase rsp may wf => simp [phase, hport', hcmd']
    | abandoned phase reset => simp [hn] at reset
  · obtain ⟨_, events, htrace, hacc, hcame⟩ := exec_idle_since hs he
    obtain ⟨hidle, _, _, hresp⟩ := (ended_iff t).mp hend
    rw [htrace, lastCommandResponded_accepted _ _ hacc] at hresp
    rw [htrace, List.drop_left, show responsesIn (.accept (encode i) :: events) = responsesIn events from rfl]
    generalize responsesIn events = rs at hcame hresp
    cases hcame with
    | busy phase => exact absurd hidle phase
    | responded phase rsp may wf => exact ⟨_, rfl, rsp⟩
    | abandoned phase reset => cases hresp
  · rw [exec_inFlight_reset (inDomain_of_exec_next he) hs hf hi] at he
    cases he
    have hresp : lastCommandResponded (resetState sent s).trace = false := by
      rw [resetState_trace, lastCommandResponded_append, lastCommandResponded_busy htrace hs]
      rfl
    refine Bool.eq_false_iff.mpr fun hend => ?_
    obtain ⟨_, _, _, hresp'⟩ := (ended_iff _).mp hend
    exact Bool.false_ne_true (hresp.symm.trans hresp')

end Sys2Proof.Machine
end

section
/-!
PROOFS. A step at an illegal code (O33) and a step without a listed input (O39).
-/
namespace Sys2Proof.Machine

theorem decodeOp_unassigned {op : Byte}
    (h : op ∉ [0x01, 0x02, 0x03, 0x04, 0x05, 0x10, 0x11, 0x12, 0x13, 0x14, (0x15 : Byte)]) (f : Fields) (len : Byte) :
    decodeOp op f len [] = .error (.unassigned op f len) := by
  simp only [List.mem_cons, List.not_mem_nil, or_false, not_or] at h
  obtain ⟨h1, h2, h3, h4, h5, h10, h11, h12, h13, h14, h15⟩ := h
  unfold decodeOp
  rw [if_neg h1, if_neg h2, if_neg h3, if_neg h4, if_neg h5, if_neg h10, if_neg h11, if_neg h12, if_neg h13,
    if_neg h14, if_neg h15]

theorem step_idle_unassigned {s : State} {r : List Byte} {rest : List (List Byte)} {op len : Byte} {f : Fields}
    (hs : s.phase = .idle) (hp : s.port = r :: rest) (hd : decode r = .error (.unassigned op f len)) :
    step s = .next (rejectUnassigned op f len { s with port := rest }) := by
  rw [step_idle hs]
  simp [stepIdle, hp, hd]

/-- Settles O33: the record is rejected by its code, with the latches written and STATUS_ILLEGAL at once. -/
theorem unassignedCodeIsIllegal : Obligations.UnassignedCodeIsIllegal := by
  intro s op len f rest hs hop hp
  rw [step_idle_unassigned hs hp (decodeOp_unassigned hop f len)]
  simp [rejectUnassigned, respond, latchRecord, recordBytes, mkResponse, hs]

/-- Settles O39: in flight it is the input that `topUp` draws, in IDLE the one that `takeInput` draws. -/
theorem freeInputIsTheNextInput : Obligations.FreeInputIsTheNextInput := by
  intro s hi h
  by_cases hs : s.phase = .idle
  · have hp : s.port = [] := h.resolve_left fun hbusy => hbusy hs
    rw [step_idle_input (s := { s with inputs := [Config.world s.drawn], drawn := s.drawn + 1 }) hs hp rfl, step_idle hs]
    simp [stepIdle, hp, takeInput, hi]
  · rw [step_busy hs, step_busy (s := { s with inputs := [Config.world s.drawn], drawn := s.drawn + 1 }) hs]
    have htop : topUp s = topUp { s with inputs := [Config.world s.drawn], drawn := s.drawn + 1 } := by
      simp only [topUp, hi]
    rw [stepBusy, htop]
    rfl

end Sys2Proof.Machine
end

section
/-!
PROOFS. A reset, in flight (O36) and in IDLE (O49).
-/
namespace Sys2Proof.Machine

/-- The state that the statements give after a reset is the model's, with the inputs still to come. -/
theorem afterReset_eq (sent : Nat) (rest : List Input) (s : State) :
    afterReset sent rest s = { resetState sent s with inputs := rest } := rfl

theorem step_idle_late {s : State} {rest : List Input} (hs : s.phase = .idle) (hp : s.port = [])
    (hi : s.inputs = .late :: rest) : step s = .next { s with inputs := rest } :=
  step_idle_input hs hp hi

theorem step_idle_reset {s : State} {sent : Nat} {rest : List Input} (hs : s.phase = .idle) (hp : s.port = [])
    (hi : s.inputs = .reset sent :: rest) : step s = .next { resetState sent s with inputs := rest } :=
  step_idle_input hs hp hi

/-- Settles O36: the driver stops at the reset, which leaves IDLE, and there a late answer finds no request. -/
theorem resetAbandonsTheCommand : Obligations.ResetAbandonsTheCommand := by
  refine fun i s sent rest hs hf hd hi => ⟨?_, fun t => step_idle_late⟩
  rw [afterReset_eq]
  exact exec_inFlight_reset hd hs hf hi

/-- Settles O49: a step in IDLE takes the reset, and R32's values do not depend on the inputs still to come. -/
theorem resetInIdleGivesTheResetState : Obligations.ResetInIdleGivesTheResetState := by
  intro s sent rest hs hp hi
  rw [afterReset_eq]
  exact ⟨step_idle_reset hs hp hi, holdsResetValues_resetState sent s, rfl⟩

end Sys2Proof.Machine
end
